-- ==== Sys2Proof/Word.lean ====
section
/-! DEFINITION. The word of the machine: one byte (00_scope.md R9). -/

namespace Sys2Proof

/-- A byte: 8 bits, an unsigned value 0 to 255 (R9). Bit 7 is the most significant (R14). -/
abbrev Byte := BitVec 8

end Sys2Proof
end

