-- ==== Sys2Proof/Config.lean ====
section
/-! DEFINITION. The configuration of the block (00_scope.md R5 to R8) and the free values: constants without a body
for everything the spec leaves open. -/

namespace Sys2Proof

/-- The configuration record `cfg` (00_scope.md section 4). -/
structure Cfg where
  /-- START_BYTE (R5). -/
  startByte : Byte
  /-- FILLER_BYTE (R6). -/
  fillerByte : Byte
  /-- MAX_FRAME_DATA_SIZE, CAP: the number of cells of PAY (R7). -/
  cap : Nat
  /-- MAX_FRAME_SIZE, MFS: the number of cells of BKP (R8). -/
  mfs : Nat
  deriving DecidableEq, Repr

/-- The constraints of R6, R7 and R8. -/
abbrev Cfg.Valid (c : Cfg) : Prop :=
  c.fillerByte ≠ c.startByte ∧ 5 ≤ c.cap ∧ c.cap < c.mfs

/-- START_BYTE is 0x7E (R5). UNVERIFIED by the spec itself ("unaudited"); unsafe, log 4. -/
def Config.startByte : Byte := 0x7E

/-- Free: how far FILLER_BYTE lies above START_BYTE, less one (R6; log 3, safe). -/
opaque Config.fillerOffset : Fin 255

/-- FILLER_BYTE: any byte but START_BYTE (R6, D4; log 3). -/
def Config.fillerByte : Byte :=
  Config.startByte + 1 + BitVec.ofNat 8 Config.fillerOffset.val

/-- Free: by how much CAP exceeds its least value (R7; log 3, safe). -/
opaque Config.capExtra : Nat

/-- CAP: any natural that is at least 5 (R7, D5; log 3). -/
def Config.cap : Nat := 5 + Config.capExtra

/-- Free: by how much MFS exceeds its least value (R8; log 3, safe). -/
opaque Config.mfsExtra : Nat

/-- MFS: any natural above CAP (R8, D6; log 3). -/
def Config.mfs : Nat := Config.cap + 1 + Config.mfsExtra

/-- The configuration the block is built with. -/
def Config.built : Cfg :=
  { startByte := Config.startByte, fillerByte := Config.fillerByte,
    cap := Config.cap, mfs := Config.mfs }

/-- Free: the answer of `PeerHasData()` at the n-th free draw (R11, R57, U7; log 2, safe). -/
opaque Config.freeSignal : Nat → Bool

/-- Free: the byte `Exchange` returns at the n-th free draw (R11, R56, U6; log 2, safe). -/
opaque Config.freeByte : Nat → Byte

/-- Free: by how much the clock has advanced at the n-th free draw (R151, D24; log 17). -/
opaque Config.freeTick : Nat → Nat

/-- Free: the power-on content of PAY cell i (R34, U4; log 6, safe). -/
opaque Config.powerOnPay : Nat → Byte

/-- Free: the power-on content of BKP cell i (R34, U4; log 6, safe). -/
opaque Config.powerOnBkp : Nat → Byte

end Sys2Proof
end

