-- ==== Sys2Proof/Syntax.lean ====
section
/-! DEFINITION. The operations of the block: one constructor for each row of spec/opcode_table.json
(30_encoding.md R80, R90, R95, R100). -/

namespace Sys2Proof

/-- The two checksum accumulators (10_state.md R27, R30). -/
inductive Acc where
  /-- `rx.sum` (R27). -/
  | rx
  /-- `tx.sum` (R30). -/
  | tx
  deriving DecidableEq, Repr

/-- The operations. The operand `n` of TX_FRAME is the number of bytes of its payload list (R99; log 9). -/
inductive Instr where
  -- host commands (R95, R96)
  | nop
  | rxReset
  | rxPoll
  | rxTimed (deadlineMillis : Int)
  | rxRead
  | txFrame (apiId frameId : Byte) (payload : List Byte)
  | bkReset
  | bkRead
  /-- The codes 0x8 to 0xF; `low` is `op[2:0]` (R97). -/
  | reserved (low : BitVec 3)
  -- micro-operations (R95)
  | ckClr (a : Acc)
  | ckAdd (a : Acc) (b : Byte)
  | ckValid (a : Acc)
  | ckCompute (a : Acc)
  | rxDiscard
  | rxByte (b : Byte)
  | txEmit (b : Byte)
  | txDrain
  | bkAppend (b : Byte)
  -- the classes of a byte given to RX_BYTE (R90)
  | rxbRestart (b : Byte)
  | rxbOverrun (b : Byte)
  | rxbSkip (b : Byte)
  | rxbStart (b : Byte)
  | rxbLenMsb (b : Byte)
  | rxbLenLsb (b : Byte)
  | rxbApiId (b : Byte)
  | rxbTermOk (b : Byte)
  | rxbTermBad (b : Byte)
  | rxbData (b : Byte)
  -- a frame on the wire (R80)
  | frame (apiId frameId : Byte) (payload : List Byte)
  -- pseudo-operations (R100)
  | rxFreshPoll
  | loopback (apiId frameId : Byte) (payload : List Byte)
  deriving DecidableEq, Repr

/-- The ten classes of the receiver's byte decode (R90). -/
inductive ByteClass where
  | restart
  | overrun
  | skip
  | start
  | lenMsb
  | lenLsb
  | apiId
  | termOk
  | termBad
  | data
  deriving DecidableEq, Repr

end Sys2Proof
end

