-- ==== Sys2Proof/Decode.lean ====
section
/-! DEFINITION. The two encodings of the block. First the host command: a 4-bit code `op[3:0]` with operand lines
(30_encoding.md R96, R97). Then the wire frame (R80 to R89, R98). Each has its decoder, total, and after it its
encoder, written from the same tables. -/

namespace Sys2Proof

/-! ### Host commands -/

/-- A command as the host presents it: the code and the operand lines of the command port (R96). A command reads only
the operands that R96 says it carries (log 14). -/
structure Command where
  /-- `op[3:0]`. -/
  op : BitVec 4
  /-- The operand of RX_TIMED: an integer, zero and negative allowed (42_timed_receive.md R150). -/
  deadlineMillis : Int
  /-- Operands of TX_FRAME (43_transmitter.md R160). -/
  apiId : Byte
  frameId : Byte
  payload : List Byte
  deriving DecidableEq, Repr

/-- What the decoder says of a command. -/
inductive Decoded where
  /-- One of the eight commands of R96. -/
  | valid (i : Instr)
  /-- "invalid" (R97): a reserved code. It carries the RESERVED row of the table that the code belongs to (log 8). -/
  | invalid (i : Instr)
  deriving DecidableEq, Repr

/-- The operation a decoded command names. -/
def Decoded.instr : Decoded → Instr
  | .valid i => i
  | .invalid i => i

/-- The command decoder (R96, R97): total on every code. -/
def decode (c : Command) : Decoded :=
  match c.op with
  | 0x0#4 => .valid .nop
  | 0x1#4 => .valid .rxReset
  | 0x2#4 => .valid .rxPoll
  | 0x3#4 => .valid (.rxTimed c.deadlineMillis)
  | 0x4#4 => .valid .rxRead
  | 0x5#4 => .valid (.txFrame c.apiId c.frameId c.payload)
  | 0x6#4 => .valid .bkReset
  | 0x7#4 => .valid .bkRead
  | _ => .invalid (.reserved (c.op.extractLsb' 0 3))

/-- A command that carries no operands: its operand lines are zero. -/
def Command.plain (op : BitVec 4) : Command :=
  { op := op, deadlineMillis := 0, apiId := 0, frameId := 0, payload := [] }

/-- The command an operation is issued by, for the operations that have a code (R96). A micro-operation, a byte class,
a wire frame and a pseudo-operation have none (R95, R97, R100). -/
def encode : Instr → Option Command
  | .nop => some (.plain 0x0)
  | .rxReset => some (.plain 0x1)
  | .rxPoll => some (.plain 0x2)
  | .rxTimed d => some { Command.plain 0x3 with deadlineMillis := d }
  | .rxRead => some (.plain 0x4)
  | .txFrame a f p => some { Command.plain 0x5 with apiId := a, frameId := f, payload := p }
  | .bkReset => some (.plain 0x6)
  | .bkRead => some (.plain 0x7)
  | .reserved low => some (.plain (1#1 ++ low))
  | .ckClr _ => none
  | .ckAdd _ _ => none
  | .ckValid _ => none
  | .ckCompute _ => none
  | .rxDiscard => none
  | .rxByte _ => none
  | .txEmit _ => none
  | .txDrain => none
  | .bkAppend _ => none
  | .rxbRestart _ => none
  | .rxbOverrun _ => none
  | .rxbSkip _ => none
  | .rxbStart _ => none
  | .rxbLenMsb _ => none
  | .rxbLenLsb _ => none
  | .rxbApiId _ => none
  | .rxbTermOk _ => none
  | .rxbTermBad _ => none
  | .rxbData _ => none
  | .frame _ _ _ => none
  | .rxFreshPoll => none
  | .loopback _ _ _ => none

/-- The command of a table word: the code is `op[3:0]`, the mask of every CMD row of the table is 0xF, and the operand
lines are zero. -/
def commandOfTableWord (w : Nat) : Command :=
  .plain (BitVec.ofNat 4 w)

/-- The instruction the decoder reads from a table word: rows of fewer than four bits hold no code. -/
def decodeTableWord (nbits w : Nat) : Option Instr :=
  if nbits < 4 then none else some (decode (commandOfTableWord w)).instr

/-! ### The wire frame -/

/-- `LEN[15:8]` of a frame whose payload has `n` bytes (R84, R85). -/
def lenMsb (n : Nat) : Byte := BitVec.ofNat 8 ((n + 2) / 256)

/-- `LEN[7:0]` (R84, R85). -/
def lenLsb (n : Nat) : Byte := BitVec.ofNat 8 ((n + 2) % 256)

/-- `(msb << 8) | lsb`, as a natural number 0 to 65535 (R86). -/
def assembleLength (msb lsb : Byte) : Nat := 256 * msb.toNat + lsb.toNat

/-- The sum of a list of bytes modulo 256. -/
def byteSum (bytes : List Byte) : Byte := bytes.foldl (· + ·) 0

/-- CHECKSUM: `0xFF` less the sum of api-id, frame-id and payload modulo 256 (R89). -/
def checkByte (apiId frameId : Byte) (payload : List Byte) : Byte :=
  0xFF - byteSum (apiId :: frameId :: payload)

/-- Why a byte string is no frame; the decoder of the wire rejects by one of these names. -/
inductive FrameReject where
  /-- The first byte is not START_BYTE: it is skipped (R94). -/
  | noStartByte
  /-- A byte after offset 0 equals START_BYTE (R91). -/
  | startByteInside
  /-- LEN is 0 or 1: no frame-id (R92; R84 gives `LEN = n + 2`). -/
  | lengthBelowTwo
  /-- The string ends before the byte at offset LEN + 3 (R98). -/
  | truncated
  /-- The bytes from offset 3 to offset LEN + 3 do not sum to 0xFF (R89). -/
  | badChecksum
  deriving DecidableEq, Repr

/-- The last part of the frame decoder: api-id, frame-id, payload and check byte, all present. -/
def decodeBody (body rest : List Byte) : Except FrameReject (Instr × List Byte) :=
  match body with
  | a :: f :: tail =>
    if byteSum body = 0xFF then .ok (.frame a f tail.dropLast, rest) else .error .badChecksum
  | _ => .error .truncated

/-- The frame decoder (R98, R80, R91): a frame and the bytes after it, or a rejection by name. A START_BYTE inside is
looked for in the bytes that are there (log 20). -/
def decodeFrame (start : Byte) (bytes : List Byte) : Except FrameReject (Instr × List Byte) :=
  match bytes with
  | [] => .error .truncated
  | d :: tail =>
    if d ≠ start then .error .noStartByte
    else match tail with
      | m :: l :: rest =>
        let size := assembleLength m l + 1
        if m = start ∨ l = start ∨ start ∈ rest.take size then .error .startByteInside
        else if assembleLength m l < 2 then .error .lengthBelowTwo
        else if rest.length < size then .error .truncated
        else decodeBody (rest.take size) (rest.drop size)
      | [m] => if m = start then .error .startByteInside else .error .truncated
      | [] => .error .truncated

/-- The frame encoder: the bytes of R80 in order of transmission, for a block whose START_BYTE is `start`; this is
`txBytes` of 43_transmitter.md R165. -/
def frameBytes (start apiId frameId : Byte) (payload : List Byte) : List Byte :=
  [start, lenMsb payload.length, lenLsb payload.length, apiId, frameId] ++ payload ++ [checkByte apiId frameId payload]

end Sys2Proof
end

