-- ==== Sys2Proof/Machine/State.lean ====
section
/-! DEFINITION. The state of the block (10_state.md R20), the operation in progress (R31), the environment as data
(00_scope.md R11, R15), the faults and refusals, and the state after hardware reset (R34). Plain data throughout. -/

namespace Sys2Proof.Machine

/-- A byte memory: the cells written so far, by rising index. A cell that is not listed has not been written since
hardware reset (R34; log 6). -/
abbrev Mem := List Host.Cell

/-- The three error kinds (60_exceptions.md R190). -/
inductive ErrorKind where
  | checksumFailure
  | packetExceedsCapacity
  | unexpectedStartByte
  deriving DecidableEq, Repr

/-- `rx.outcome` (10_state.md R28). -/
inductive RxOutcome where
  | pending
  | available
  | error (kind : ErrorKind)
  deriving DecidableEq, Repr

/-- The receiver's record (R20 to R28). -/
structure Rx where
  /-- `rx.position`, the block's program counter (R21). -/
  position : Nat
  /-- `rx.lengthMsb` (R23). -/
  lengthMsb : Byte
  /-- `rx.lengthLsb` (R23). -/
  lengthLsb : Byte
  /-- `rx.apiId` (R24). -/
  apiId : Byte
  /-- `rx.recLen` (R25). -/
  recLen : Nat
  /-- `rx.payload`, address space PAY (R26). -/
  payload : Mem
  /-- `rx.sum` (R27). -/
  sum : Byte
  /-- `rx.outcome` (R28). -/
  outcome : RxOutcome
  deriving DecidableEq, Repr

/-- The backup buffer (R29). -/
structure Bk where
  /-- `bk.data`, address space BKP. -/
  data : Mem
  /-- `bk.count`, the append cursor. -/
  count : Nat
  deriving DecidableEq, Repr

/-- The transmitter's record (R30). -/
structure Tx where
  /-- `tx.sum`. -/
  sum : Byte
  deriving DecidableEq, Repr

/-- Who issued the RX_POLL in progress. -/
inductive Caller where
  /-- The host (41_receiver.md R132). -/
  | host
  /-- RX_TIMED, which keeps `t0` and its deadline while it runs (42_timed_receive.md R150, R151). -/
  | timed (t0 : Nat) (deadline : Int)
  deriving DecidableEq, Repr

/-- The operation in progress (R31; log 1). -/
inductive Control where
  /-- None: the block waits for a command (R34). -/
  | idle
  /-- In the loop of RX_POLL. -/
  | poll (caller : Caller)
  /-- In the loop of RX_TIMED, about to read the clock for its test. -/
  | clockTest (t0 : Nat) (deadline : Int)
  deriving DecidableEq, Repr

/-- One environment call as the trace records it (00_scope.md R11). -/
inductive Event where
  /-- `sig(v)`. -/
  | sig (v : Bool)
  /-- `xchg(out, ret)`. -/
  | xchg (out ret : Byte)
  /-- `now(t)`. -/
  | now (t : Nat)
  deriving DecidableEq, Repr

/-- The record RX_READ returns (41_receiver.md R134). -/
structure RxRecord where
  outcome : RxOutcome
  apiId : Byte
  lengthMsb : Byte
  lengthLsb : Byte
  declaredLength : Nat
  recLen : Nat
  payload : List Byte
  deriving DecidableEq, Repr

/-- The record BK_READ returns (44_backup_capture.md R182). -/
structure BkRecord where
  count : Nat
  data : List Byte
  deriving DecidableEq, Repr

/-- What the block presents to the host at the end of a command that returns something (R36, R96). -/
inductive Result where
  /-- RX_TIMED's boolean (R150). -/
  | timed (ok : Bool)
  | rxRead (r : RxRecord)
  | bkRead (r : BkRecord)
  deriving DecidableEq, Repr

/-- What a micro-operation executed on its own returned to its invoker (R112, R113; log 10). The host does not see it. -/
inductive MicroValue where
  | none
  | flag (v : Bool)
  | byte (b : Byte)
  deriving DecidableEq, Repr

/-- The peer's answers as data (R15; log 2). -/
inductive Peer where
  /-- `ScriptEnv`: the answers to come of `PeerHasData` and of `Exchange`. Past the end of either list the answers are
  free values, so `script [] []` is the peer of R11 that nothing is known of. -/
  | script (signals : List Bool) (answers : List Byte)
  /-- `QueuePeer(q)`. -/
  | queue (pending : List Byte)
  deriving DecidableEq, Repr

/-- The environment and the host (R10, R11): no state of the block (R32). -/
structure Env where
  /-- The commands the host will issue, oldest first (R12, R96). -/
  host : List Command
  peer : Peer
  /-- The latest answer of the clock; it never decreases (R151). -/
  clock : Nat
  /-- By how much the clock advances at each reading to come; past the end the advances are free values. -/
  ticks : List Nat
  /-- How many free values have been drawn. -/
  draws : Nat
  deriving DecidableEq, Repr

/-- The whole state: the block's record of R20, the operation in progress, and the model's own fields (log 2, 3, 10,
16). -/
structure State where
  /-- The configuration: no operation writes it (R33). -/
  cfg : Cfg
  rx : Rx
  bk : Bk
  tx : Tx
  ctl : Control
  /-- What the block has presented to the host, oldest first (R36). -/
  results : List Result
  micro : MicroValue
  /-- The environment calls made so far, oldest first (R11). -/
  trace : List Event
  env : Env
  deriving DecidableEq, Repr

/-- Faults: an access the spec says does not exist. No run from reset reaches one (10_state.md R35; log 7). -/
inductive Fault where
  /-- RX_READ would read a PAY cell at or above CAP (R14: `MemRead(PAY[i])` requires `i < CAP`). Safe. -/
  | payOutOfRange
  /-- BK_READ would read a BKP cell at or above MFS (R14). Safe. -/
  | bkpOutOfRange
  deriving DecidableEq, Repr

/-- Refusals: what the model has no step for. -/
inductive Refusal where
  /-- Raised by exec for a row without a meaning. Safe. -/
  | notModelled (mnemonic : String)
  /-- Raised by RESERVED: a command code 0x8 to 0xF (30_encoding.md R97, U2; log 8). Safe. -/
  | reservedCode (low : BitVec 3)
  /-- Raised by TX_FRAME, FRAME and LOOPBACK when `n + 2 > 65535` (43_transmitter.md R160, U1; log 9). Safe. -/
  | payloadTooLong
  /-- Raised by a byte-class row at a state and byte that R90 puts in another class (log 11). Safe. -/
  | byteNotOfClass
  deriving DecidableEq, Repr

/-- The receiver after hardware reset (R34). -/
def Rx.reset : Rx :=
  { position := 0, lengthMsb := 0, lengthLsb := 0, apiId := 0, recLen := 0,
    payload := [], sum := 0, outcome := .pending }

/-- The environment of State.reset: no command, nothing scripted (log 15, 19). -/
def Env.initial : Env :=
  { host := [], peer := .script [] [], clock := 0, ticks := [], draws := 0 }

/-- The state after hardware reset (R34, 70 R220). -/
def State.reset : State :=
  { cfg := Config.built, rx := Rx.reset, bk := { data := [], count := 0 }, tx := { sum := 0 },
    ctl := .idle, results := [], micro := .none, trace := [], env := Env.initial }

end Sys2Proof.Machine
end

