-- ==== Sys2Proof/Machine/Operands.lean ====
section
/-! DEFINITION. The operand forms: the declared length, the terminator position, the payload index, the accumulators,
the bytes a frame to send is made of (30_encoding.md R84 to R88; 10_state.md R23, R27, R30). -/

namespace Sys2Proof.Machine

/-- `declaredLength` (R23, R86): a function of the two length registers, never stored. -/
def declaredLength (r : Rx) : Nat := assembleLength r.lengthMsb r.lengthLsb

/-- The position of the checksum terminator, `declaredLength + 3`, exact (R88, D23). -/
def terminatorPosition (r : Rx) : Nat := declaredLength r + 3

/-- The index in PAY of a byte consumed at position `p >= 4` (R87). -/
def payloadIndex (p : Nat) : Nat := p - 4

/-- The value of an accumulator operand (R27, R30). -/
def accValue (a : Acc) (s : State) : Byte :=
  match a with
  | .rx => s.rx.sum
  | .tx => s.tx.sum

/-- Write an accumulator; the other one keeps its value (40_checksum.md R116). -/
def setAcc (a : Acc) (v : Byte) (s : State) : State :=
  match a with
  | .rx => { s with rx := { s.rx with sum := v } }
  | .tx => { s with tx := { s.tx with sum := v } }

end Sys2Proof.Machine
end

