-- ==== Sys2Proof/Machine/Flags.lean ====
section
/-! DEFINITION. The checksum arithmetic (40_checksum.md R110 to R114), the status code of the outcome (60 R191) and the
receiver's classification of a byte (30_encoding.md R90). -/

namespace Sys2Proof.Machine

/-- CK_CLR's value (R110). -/
def sumClear : Byte := 0

/-- CK_ADD's value: `(A + b) mod 256`, the carry discarded (R111). -/
def sumAdd (a b : Byte) : Byte := a + b

/-- CK_VALID's value: `A == 0xFF` (R112). -/
def sumValid (a : Byte) : Bool := a == 0xFF

/-- CK_COMPUTE's value: `0xFF - A` (R113, 90_conflicts.md C1). -/
def sumCompute (a : Byte) : Byte := 0xFF - a

/-- The 3-bit status code of `rx.outcome` (R191, D7). -/
def outcomeCode (o : RxOutcome) : BitVec 3 :=
  match o with
  | .pending => 0
  | .error .checksumFailure => 1
  | .error .packetExceedsCapacity => 2
  | .error .unexpectedStartByte => 3
  | .available => 4

/-- The class of the byte `b`: the first row of R90 whose condition holds, with the position, the declared length and
the sum as they are before the byte has any effect. -/
def classify (cfg : Cfg) (r : Rx) (b : Byte) : ByteClass :=
  if 0 < r.position ∧ b = cfg.startByte then .restart
  else if cfg.cap < r.position then .overrun
  else if r.position = 0 ∧ b ≠ cfg.startByte then .skip
  else if r.position = 0 then .start
  else if r.position = 1 then .lenMsb
  else if r.position = 2 then .lenLsb
  else if r.position = 3 then .apiId
  else if r.position = terminatorPosition r then
    if sumValid (sumAdd r.sum b) then .termOk else .termBad
  else .data

end Sys2Proof.Machine
end

