-- ==== Sys2Proof/Machine/Ops.lean ====
section
/-! DEFINITION. The shared operations: the two byte memories, the environment calls, raising an error and leaving one,
taking the host's next command, presenting a result, and the test environments of 00_scope.md R15. -/

namespace Sys2Proof.Machine

/-! ### Memory (20_memory.md R50, R55) -/

/-- What a cell that is not listed reads as: nothing, it has not been written since hardware reset (10_state.md R34;
log 6). -/
def Mem.unlisted : Option Byte := none

/-- The byte last written to a cell, if any was. -/
def Mem.read : Mem → Nat → Option Byte
  | [], _ => Mem.unlisted
  | c :: m, i => if c.1 = i then some c.2 else Mem.read m i

/-- Write one cell, keeping the cells listed by rising index. -/
def Mem.write : Mem → Nat → Byte → Mem
  | [], i, b => [(i, b)]
  | c :: m, i, b =>
    if i < c.1 then (i, b) :: c :: m
    else if i = c.1 then (i, b) :: m
    else c :: Mem.write m i b

/-- The canonical form: indices strictly rising from `low` on. -/
def Mem.risingFrom : Nat → Mem → Bool
  | _, [] => true
  | low, c :: m => decide (low ≤ c.1) && Mem.risingFrom (c.1 + 1) m

/-- The canonical form of a memory (no listed cell can equal what an unlisted one reads as). -/
def Mem.wf (m : Mem) : Bool := Mem.risingFrom 0 m

/-- `MemRead(PAY[i], 1)`: a cell never written holds a free value (R34, U4; log 6). -/
def payRead (r : Rx) (i : Nat) : Byte := (Mem.read r.payload i).getD (Config.powerOnPay i)

/-- `MemRead(BKP[i], 1)` (log 6). -/
def bkpRead (k : Bk) (i : Nat) : Byte := (Mem.read k.data i).getD (Config.powerOnBkp i)

/-- The first `n` cells of PAY, in index order. -/
def payCells (r : Rx) (n : Nat) : List Byte := (List.range n).map (payRead r)

/-- The first `n` cells of BKP, in index order. -/
def bkpCells (k : Bk) (n : Nat) : List Byte := (List.range n).map (bkpRead k)

/-! ### Named updates -/

def withRx (r : Rx) (s : State) : State := { s with rx := r }

def withBk (k : Bk) (s : State) : State := { s with bk := k }

def withCtl (c : Control) (s : State) : State := { s with ctl := c }

def withPeer (p : Peer) (s : State) : State := { s with env := { s.env with peer := p } }

/-- The commands the host still has to issue. -/
def withHost (cs : List Command) (s : State) : State := { s with env := { s.env with host := cs } }

/-- Present a result to the host (R36, R96). -/
def present (r : Result) (s : State) : State := { s with results := s.results ++ [r] }

/-- The value a micro-operation executed on its own returns (log 10). -/
def withMicro (v : MicroValue) (s : State) : State := { s with micro := v }

/-! ### The environment calls (00_scope.md R11; 20_memory.md R56, R57; 42_timed_receive.md R151) -/

/-- The answer of the next `PeerHasData()`. -/
def signalAnswer (e : Env) : Bool :=
  match e.peer with
  | .queue q => !q.isEmpty
  | .script (v :: _) _ => v
  | .script [] _ => Config.freeSignal e.draws

/-- The environment after it: reading the line has no effect on a queued peer. -/
def afterSignal (e : Env) : Env :=
  match e.peer with
  | .queue _ => e
  | .script (_ :: vs) rs => { e with peer := .script vs rs }
  | .script [] _ => { e with draws := e.draws + 1 }

/-- The byte the next `Exchange` returns. -/
def exchangeAnswer (e : Env) : Byte :=
  match e.peer with
  | .queue (r :: _) => r
  | .queue [] => 0x00
  | .script _ (r :: _) => r
  | .script _ [] => Config.freeByte e.draws

/-- The environment after it: the byte is consumed from the peer. -/
def afterExchange (e : Env) : Env :=
  match e.peer with
  | .queue (_ :: q) => { e with peer := .queue q }
  | .queue [] => e
  | .script vs (_ :: rs) => { e with peer := .script vs rs }
  | .script _ [] => { e with draws := e.draws + 1 }

/-- The answer of the next `NowMillis()`: never below the last one (R151). -/
def clockAnswer (e : Env) : Nat :=
  match e.ticks with
  | t :: _ => e.clock + t
  | [] => e.clock + Config.freeTick e.draws

/-- The environment after it. -/
def afterClock (e : Env) : Env :=
  match e.ticks with
  | _ :: ts => { e with clock := clockAnswer e, ticks := ts }
  | [] => { e with clock := clockAnswer e, draws := e.draws + 1 }

/-- The answers of `n` pairs of calls, each pair one `PeerHasData()` and then one `Exchange`: the alternation of a poll,
of the emissions of a transmit and of a drain (41 R132, 43 R163, R166). -/
def pairAnswers : Nat → Env → List (Bool × Byte)
  | 0, _ => []
  | n + 1, e => (signalAnswer e, exchangeAnswer (afterSignal e)) :: pairAnswers n (afterExchange (afterSignal e))

/-- The environment after `n` such pairs. -/
def afterPairs : Nat → Env → Env
  | 0, e => e
  | n + 1, e => afterPairs n (afterExchange (afterSignal e))

/-- `PeerHasData()` as a change of state: the trace gains `sig(v)`; the answer is `signalAnswer` of the state before. -/
def readSignal (s : State) : State :=
  { s with trace := s.trace ++ [.sig (signalAnswer s.env)], env := afterSignal s.env }

/-- `Exchange(out)` as a change of state: the trace gains `xchg(out, ret)`; the byte returned is `exchangeAnswer` of the
state before. -/
def exchange (out : Byte) (s : State) : State :=
  { s with trace := s.trace ++ [.xchg out (exchangeAnswer s.env)], env := afterExchange s.env }

/-- `NowMillis()` as a change of state: the trace gains `now(t)`; the answer is `clockAnswer` of the state before. -/
def readClock (s : State) : State :=
  { s with trace := s.trace ++ [.now (clockAnswer s.env)], env := afterClock s.env }

/-! ### Raising an error and leaving one (60_exceptions.md R199, R201) -/

/-- `raise E`: the outcome records the kind and nothing else happens by the raise itself (00_scope.md R14). -/
def raiseError (k : ErrorKind) (r : Rx) : Rx := { r with outcome := .error k }

/-- RX_DISCARD: a terminal outcome goes back to PENDING, nothing else changes (41_receiver.md R121, D11). -/
def discardOutcome (r : Rx) : Rx := if r.outcome ≠ .pending then { r with outcome := .pending } else r

/-- RX_RESET on the receiver's record: everything but the payload cells (R120, D14). -/
def resetRx (r : Rx) : Rx :=
  { r with position := 0, sum := sumClear, outcome := .pending, lengthMsb := 0, lengthLsb := 0, apiId := 0, recLen := 0 }

/-! ### Test environments (00_scope.md R15) -/

/-- The advances of a clock that reads `last` and then answers the given times. -/
def ticksOf : Nat → List Nat → List Nat
  | _, [] => []
  | last, t :: ts => (t - last) :: ticksOf t ts

/-- `ScriptEnv(S, R, T)`. -/
def scriptEnv (signals : List Bool) (answers : List Byte) (times : List Nat) (s : State) : State :=
  { s with env := { s.env with peer := .script signals answers, ticks := ticksOf s.env.clock times } }

/-- `QueuePeer(q)`. -/
def queuePeer (q : List Byte) (s : State) : State := withPeer (.queue q) s

/-- The bytes a list of events sent to the peer, in order. -/
def sentBytes : List Event → List Byte
  | [] => []
  | .xchg out _ :: es => out :: sentBytes es
  | .sig _ :: es => sentBytes es
  | .now _ :: es => sentBytes es

/-- The events of `t` after those of `s`, for a state `t` that comes after `s`. -/
def newEvents (s t : State) : List Event := t.trace.drop s.trace.length

end Sys2Proof.Machine
end

