-- ==== Sys2Proof/Machine/Backup.lean ====
section
/-! DEFINITION. The backup buffer: BK_APPEND, BK_RESET, BK_READ (44_backup_capture.md). -/

namespace Sys2Proof.Machine

/-- BK_APPEND on the buffer's record: nothing once it is full (R180). -/
def appendBk (cfg : Cfg) (b : Byte) (k : Bk) : Bk :=
  if k.count < cfg.mfs then { data := Mem.write k.data k.count b, count := k.count + 1 } else k

/-- BK_APPEND (R180). -/
def bkAppend (b : Byte) (s : State) : State := withBk (appendBk s.cfg b s.bk) s

/-- What BK_READ returns (R182). -/
def bkRecord (k : Bk) : BkRecord := { count := k.count, data := bkpCells k k.count }

def execBkAppend (b : Byte) (s : State) : Host.Outcome State Fault Refusal := .next (bkAppend b s)

/-- BK_RESET: the cursor only, the cells keep their bytes (R181, D27). -/
def execBkReset (s : State) : Host.Outcome State Fault Refusal := .next (withBk { s.bk with count := 0 } s)

/-- BK_READ: a pure read (R182); a count above MFS, which no run reaches (10_state.md R35 I3), would read a cell that
does not exist (log 7). -/
def execBkRead (s : State) : Host.Outcome State Fault Refusal :=
  if s.bk.count ≤ s.cfg.mfs then .next (present (.bkRead (bkRecord s.bk)) s) else .fault .bkpOutOfRange

end Sys2Proof.Machine
end

