-- ==== Sys2Proof/Machine/ByteClass.lean ====
section
/-! DEFINITION. The ten classes of a byte given to RX_BYTE, each with the effect its row of 30_encoding.md R90 and its
rule of 41_receiver.md give it. Written from the table, apart from the pseudocode of R122 in Receiver.lean. -/

namespace Sys2Proof.Machine

/-- Run the effect of a class on the receiver, at a state and byte that R90 puts in that class; elsewhere no such byte
event exists (log 11). -/
def asClass (k : ByteClass) (b : Byte) (s : State) (after : Rx) : Host.Outcome State Fault Refusal :=
  if classify s.cfg s.rx b = k then .next (withRx after s) else .refused .byteNotOfClass

/-- RXB_RESTART: the error, and nothing else (R123). -/
def execRxbRestart (b : Byte) (s : State) : Host.Outcome State Fault Refusal :=
  asClass .restart b s (raiseError .unexpectedStartByte s.rx)

/-- RXB_OVERRUN: the error, and nothing else (R124). -/
def execRxbOverrun (b : Byte) (s : State) : Host.Outcome State Fault Refusal :=
  asClass .overrun b s (raiseError .packetExceedsCapacity s.rx)

/-- RXB_SKIP: nothing (R126, R94). -/
def execRxbSkip (b : Byte) (s : State) : Host.Outcome State Fault Refusal :=
  asClass .skip b s s.rx

/-- RXB_START (R126). -/
def execRxbStart (b : Byte) (s : State) : Host.Outcome State Fault Refusal :=
  asClass .start b s { s.rx with position := 1 }

/-- RXB_LEN_MSB (R127). -/
def execRxbLenMsb (b : Byte) (s : State) : Host.Outcome State Fault Refusal :=
  asClass .lenMsb b s { s.rx with lengthMsb := b, position := 2 }

/-- RXB_LEN_LSB (R128). -/
def execRxbLenLsb (b : Byte) (s : State) : Host.Outcome State Fault Refusal :=
  asClass .lenLsb b s { s.rx with lengthLsb := b, position := 3 }

/-- RXB_API_ID (R129). -/
def execRxbApiId (b : Byte) (s : State) : Host.Outcome State Fault Refusal :=
  asClass .apiId b s { s.rx with sum := sumAdd s.rx.sum b, apiId := b, position := 4 }

/-- RXB_TERM_OK (R131). -/
def execRxbTermOk (b : Byte) (s : State) : Host.Outcome State Fault Refusal :=
  asClass .termOk b s { s.rx with outcome := .available, recLen := s.rx.position - 4, position := 0, sum := sumClear }

/-- RXB_TERM_BAD: the recorded length keeps its value (R131, D13). -/
def execRxbTermBad (b : Byte) (s : State) : Host.Outcome State Fault Refusal :=
  asClass .termBad b s { raiseError .checksumFailure s.rx with position := 0, sum := sumClear }

/-- RXB_DATA (R130). -/
def execRxbData (b : Byte) (s : State) : Host.Outcome State Fault Refusal :=
  asClass .data b s
    { s.rx with
      sum := sumAdd s.rx.sum b,
      payload := Mem.write s.rx.payload (payloadIndex s.rx.position) b,
      position := s.rx.position + 1 }

end Sys2Proof.Machine
end

