-- ==== Sys2Proof/Machine/Checksum.lean ====
section
/-! DEFINITION. The checksum accumulator: CK_CLR, CK_ADD, CK_VALID, CK_COMPUTE (40_checksum.md). -/

namespace Sys2Proof.Machine

/-- CK_CLR (R110). -/
def ckClr (a : Acc) (s : State) : State := setAcc a sumClear s

/-- CK_ADD (R111). -/
def ckAdd (a : Acc) (b : Byte) (s : State) : State := setAcc a (sumAdd (accValue a s) b) s

/-- CK_VALID (R112). -/
def ckValid (a : Acc) (s : State) : Bool := sumValid (accValue a s)

/-- CK_COMPUTE (R113). -/
def ckCompute (a : Acc) (s : State) : Byte := sumCompute (accValue a s)

def execCkClr (a : Acc) (s : State) : Host.Outcome State Fault Refusal := .next (ckClr a s)

def execCkAdd (a : Acc) (b : Byte) (s : State) : Host.Outcome State Fault Refusal := .next (ckAdd a b s)

/-- CK_VALID on its own: the result goes to the invoker, no state of the block changes (R112; log 10). -/
def execCkValid (a : Acc) (s : State) : Host.Outcome State Fault Refusal := .next (withMicro (.flag (ckValid a s)) s)

/-- CK_COMPUTE on its own (R113; log 10). -/
def execCkCompute (a : Acc) (s : State) : Host.Outcome State Fault Refusal := .next (withMicro (.byte (ckCompute a s)) s)

end Sys2Proof.Machine
end

