-- ==== Sys2Proof/Machine/Receiver.lean ====
section
/-! DEFINITION. The frame receiver: RX_RESET, RX_DISCARD, RX_BYTE, RX_READ (41_receiver.md R120 to R131, R134). -/

namespace Sys2Proof.Machine

/-- The checksum feed: every byte consumed at position 3 or later is summed, before the dispatch (R125). -/
def feedSum (b : Byte) (r : Rx) : Rx :=
  if 3 ≤ r.position then { r with sum := sumAdd r.sum b } else r

/-- The verdict at the terminator, the terminator byte already summed; then position and sum are cleared (R131). -/
def closeFrame (r : Rx) : Rx :=
  let verdict :=
    if sumValid r.sum then { r with outcome := .available, recLen := r.position - 4 }
    else raiseError .checksumFailure r
  { verdict with position := 0, sum := sumClear }

/-- A data byte: stored at `position - 4`, and the position advances (R130). -/
def storePayload (b : Byte) (r : Rx) : Rx :=
  { r with payload := Mem.write r.payload (payloadIndex r.position) b, position := r.position + 1 }

/-- The dispatch by position (R122, R126 to R131). -/
def dispatchByte (cfg : Cfg) (b : Byte) (r : Rx) : Rx :=
  if r.position = 0 then
    if b = cfg.startByte then { r with position := 1 } else r
  else if r.position = 1 then { r with lengthMsb := b, position := 2 }
  else if r.position = 2 then { r with lengthLsb := b, position := 3 }
  else if r.position = 3 then { r with apiId := b, position := 4 }
  else if r.position = terminatorPosition r then closeFrame r
  else storePayload b r

/-- RX_BYTE on the receiver's record, "a total function of `(cfg, rx, b)`": the two edge rules in their order, then the
checksum feed, then the dispatch (R122). -/
def stepByte (cfg : Cfg) (b : Byte) (r : Rx) : Rx :=
  if 0 < r.position ∧ b = cfg.startByte then raiseError .unexpectedStartByte r
  else if cfg.cap < r.position then raiseError .packetExceedsCapacity r
  else dispatchByte cfg b (feedSum b r)

/-- RX_BYTE (R122): no environment call, nothing outside the receiver's record. -/
def rxByte (b : Byte) (s : State) : State := withRx (stepByte s.cfg b s.rx) s

/-- What RX_READ returns (R134). -/
def rxRecord (r : Rx) : RxRecord :=
  { outcome := r.outcome, apiId := r.apiId, lengthMsb := r.lengthMsb, lengthLsb := r.lengthLsb,
    declaredLength := declaredLength r, recLen := r.recLen, payload := payCells r r.recLen }

/-- RX_RESET (R120). -/
def execRxReset (s : State) : Host.Outcome State Fault Refusal := .next (withRx (resetRx s.rx) s)

/-- RX_DISCARD (R121). -/
def execRxDiscard (s : State) : Host.Outcome State Fault Refusal := .next (withRx (discardOutcome s.rx) s)

/-- RX_BYTE executed on its own runs whatever the outcome is (log 21). -/
def execRxByte (b : Byte) (s : State) : Host.Outcome State Fault Refusal := .next (rxByte b s)

/-- RX_READ: a pure read (R134, D12); a recorded length above CAP, which no run reaches (10_state.md R35 I4), would read
a cell that does not exist (log 7). -/
def execRxRead (s : State) : Host.Outcome State Fault Refusal :=
  if s.rx.recLen ≤ s.cfg.cap then .next (present (.rxRead (rxRecord s.rx)) s) else .fault .payOutOfRange

end Sys2Proof.Machine
end

