-- ==== Sys2Proof/Machine/Frame.lean ====
section
/-! DEFINITION. A frame on the wire as the receiver consumes it (30_encoding.md R80; 41_receiver.md R122, R137; log 12). -/

namespace Sys2Proof.Machine

/-- Give bytes to RX_BYTE in order, for as long as the outcome is PENDING (R122: "only while `rx.outcome == PENDING`"). -/
def feed : List Byte → State → State
  | [], s => s
  | b :: bs, s => if s.rx.outcome = .pending then feed bs (rxByte b s) else s

/-- FRAME: its bytes, in the order of R80, reach the receiver; a frame whose length does not fit 16 bits has no wire
form (R84; log 9). -/
def execFrame (apiId frameId : Byte) (payload : List Byte) (s : State) : Host.Outcome State Fault Refusal :=
  if payload.length + 2 ≤ 65535 then .next (feed (frameBytes s.cfg.startByte apiId frameId payload) s)
  else .refused .payloadTooLong

end Sys2Proof.Machine
end

