-- ==== Sys2Proof/Machine/Polling.lean ====
section
/-! DEFINITION. RX_POLL and RX_TIMED (41_receiver.md R132; 42_timed_receive.md R150). Both can run for ever (R136, R154),
so each is a loop kept in `ctl`: one step runs it on for as long as the environment holds answers as data, and by one
iteration where the answers are free values (log 1). -/

namespace Sys2Proof.Machine

/-- The head of RX_POLL: RX_DISCARD, then the loop (R132). -/
def startPoll (c : Caller) (s : State) : State :=
  withCtl (.poll c) (withRx (discardOutcome s.rx) s)

/-- RX_TIMED ends with its result (R150). -/
def endTimed (ok : Bool) (s : State) : State := present (.timed ok) (withCtl .idle s)

/-- RX_POLL returns to its caller: to the host without a result, to RX_TIMED's tests of the outcome (R132, R150). -/
def endPoll (c : Caller) (s : State) : State :=
  match c with
  | .host => withCtl .idle s
  | .timed t0 deadline =>
    match s.rx.outcome with
    | .available => endTimed true s
    | .error _ => endTimed false s
    | .pending => withCtl (.clockTest t0 deadline) s

/-- Pull one byte with FILLER_BYTE and give it to RX_BYTE (R132, D16). -/
def pullByte (s : State) : State :=
  rxByte (exchangeAnswer s.env) (exchange s.cfg.fillerByte s)

/-- One iteration of RX_POLL's loop: one signal read; line deasserted, the poll returns; else one exchange, RX_BYTE, and
a terminal outcome ends the poll (R132, D17). -/
def pollIteration (c : Caller) (s : State) : State :=
  if signalAnswer s.env then
    let s := pullByte (readSignal s)
    if s.rx.outcome = .pending then s else endPoll c s
  else endPoll c (readSignal s)

/-- The loop test of RX_TIMED: one clock read; within the deadline a poll starts, past it the result is false
("exceeds" is strict, R150). -/
def clockIteration (t0 : Nat) (deadline : Int) (s : State) : State :=
  if (clockAnswer s.env : Int) - (t0 : Int) ≤ deadline then startPoll (.timed t0 deadline) (readClock s)
  else endTimed false (readClock s)

/-- One iteration of the operation in progress; an idle block does nothing (60_exceptions.md R196). -/
def advance (s : State) : State :=
  match s.ctl with
  | .idle => s
  | .poll c => pollIteration c s
  | .clockTest t0 deadline => clockIteration t0 deadline s

/-- A number of iterations. -/
def advanceBy : Nat → State → State
  | 0, s => s
  | k + 1, s => advanceBy k (advance s)

/-- A bound on the iterations that answers held as data can feed; zero where every answer is a free value. -/
def heldAnswers (e : Env) : Nat :=
  (match e.peer with
   | .queue q => q.length
   | .script vs _ => vs.length) + 2 * e.ticks.length

/-- Run the operation in progress on (log 1). -/
def resume (s : State) : State := advanceBy (heldAnswers s.env + 1) s

/-- RX_POLL (R132). -/
def rxPoll (s : State) : State := resume (startPoll .host s)

def execRxPoll (s : State) : Host.Outcome State Fault Refusal := .next (rxPoll s)

/-- RX_TIMED (R150, R152): a deadline that is not positive is rejected at once, without any environment call. -/
def execRxTimed (deadlineMillis : Int) (s : State) : Host.Outcome State Fault Refusal :=
  .next (if deadlineMillis ≤ 0 then present (.timed false) s
         else resume (withCtl (.clockTest (clockAnswer s.env) deadlineMillis) (readClock s)))

end Sys2Proof.Machine
end

