-- ==== Sys2Proof/Machine/Port.lean ====
section
/-! DEFINITION. The command port: NOP, the reserved codes, and taking the host's next command (30_encoding.md R96, R97). -/

namespace Sys2Proof.Machine

/-- NOP (R97). -/
def execNop (s : State) : Host.Outcome State Fault Refusal := .next s

/-- A reserved code: refused, no step (R97, D28; log 8). -/
def execReserved (low : BitVec 3) (_s : State) : Host.Outcome State Fault Refusal := .refused (.reservedCode low)

/-- The operation the host's next command names, and the state with that command taken, when the host has one (R12,
R96). -/
def fetchCommand (s : State) : Option (Instr × State) :=
  match s.env.host with
  | [] => none
  | c :: cs => some ((decode c).instr, withHost cs s)

end Sys2Proof.Machine
end

