-- ==== Sys2Proof/Machine/Transmitter.lean ====
section
/-! DEFINITION. The frame transmitter: TX_EMIT, TX_DRAIN, TX_FRAME (43_transmitter.md). -/

namespace Sys2Proof.Machine

/-- Exchange a byte and append what comes back to the backup buffer. -/
def exchangeCaptured (out : Byte) (s : State) : State := bkAppend (exchangeAnswer s.env) (exchange out s)

/-- TX_EMIT: the line is read once, before the exchange, and that sample decides whether the returned byte is captured
(R163, D20). -/
def txEmit (b : Byte) (s : State) : State :=
  if signalAnswer s.env then exchangeCaptured b (readSignal s) else exchange b (readSignal s)

/-- CK_ADD and TX_EMIT of a covered byte (R161 steps 3 and 4, R164). -/
def txCovered (s : State) (b : Byte) : State := txEmit b (ckAdd .tx b s)

/-- The loop of TX_DRAIN: the line first, then the capacity, then one exchange with FILLER_BYTE, always captured (R166,
D21). The fuel of txDrain is never used up. -/
def drainLoop : Nat → State → State
  | 0, s => s
  | k + 1, s =>
    if signalAnswer s.env then
      if s.cfg.mfs ≤ s.bk.count then readSignal s
      else drainLoop k (exchangeCaptured s.cfg.fillerByte (readSignal s))
    else readSignal s

/-- TX_DRAIN (R166): at most `MFS - bk.count` exchanges. -/
def txDrain (s : State) : State := drainLoop (s.cfg.mfs - s.bk.count + 1) s

/-- Steps 1 and 2 of TX_FRAME: the sum cleared, START_BYTE without a signal read and its returned byte dropped (R162,
D19), then the two length bytes. -/
def txHeader (n : Nat) (s : State) : State :=
  txEmit (lenLsb n) (txEmit (lenMsb n) (exchange s.cfg.startByte (ckClr .tx s)))

/-- Steps 1 to 5 of TX_FRAME (R161). -/
def txFramePart (apiId frameId : Byte) (payload : List Byte) (s : State) : State :=
  let s := (apiId :: frameId :: payload).foldl txCovered (txHeader payload.length s)
  txEmit (ckCompute .tx s) s

/-- TX_FRAME within its precondition (R161). -/
def txFrame (apiId frameId : Byte) (payload : List Byte) (s : State) : State :=
  txDrain (txFramePart apiId frameId payload s)

def execTxEmit (b : Byte) (s : State) : Host.Outcome State Fault Refusal := .next (txEmit b s)

def execTxDrain (s : State) : Host.Outcome State Fault Refusal := .next (txDrain s)

/-- TX_FRAME: no step when `n + 2 > 65535` (R160, D22; log 9). -/
def execTxFrame (apiId frameId : Byte) (payload : List Byte) (s : State) : Host.Outcome State Fault Refusal :=
  if payload.length + 2 ≤ 65535 then .next (txFrame apiId frameId payload s) else .refused .payloadTooLong

end Sys2Proof.Machine
end

