-- ==== Sys2Proof/Machine/Pseudo.lean ====
section
/-! DEFINITION. The pseudo-operations RX_FRESH_POLL and LOOPBACK (30_encoding.md R100). -/

namespace Sys2Proof.Machine

/-- RX_FRESH_POLL: RX_RESET, then RX_POLL (R100). -/
def execRxFreshPoll (s : State) : Host.Outcome State Fault Refusal := .next (rxPoll (withRx (resetRx s.rx) s))

/-- LOOPBACK: TX_FRAME against `QueuePeer([])`, then RX_POLL against `QueuePeer(O)`, `O` the bytes sent (R100); the
peer of before stands again afterwards (log 13). -/
def loopback (apiId frameId : Byte) (payload : List Byte) (s : State) : State :=
  let sent := txFrame apiId frameId payload (queuePeer [] s)
  withPeer s.env.peer (rxPoll (queuePeer (sentBytes (newEvents s sent)) sent))

def execLoopback (apiId frameId : Byte) (payload : List Byte) (s : State) : Host.Outcome State Fault Refusal :=
  if payload.length + 2 ≤ 65535 then .next (loopback apiId frameId payload s) else .refused .payloadTooLong

end Sys2Proof.Machine
end

