-- ==== Sys2Proof/Machine/Dispatch.lean ====
section
/-! DEFINITION. One arm for each operation. -/

namespace Sys2Proof.Machine

def exec (i : Instr) (s : State) : Host.Outcome State Fault Refusal :=
  match i with
  | .nop => Sys2Proof.Machine.execNop s
  | .rxReset => Sys2Proof.Machine.execRxReset s
  | .rxPoll => Sys2Proof.Machine.execRxPoll s
  | .rxTimed deadlineMillis => Sys2Proof.Machine.execRxTimed deadlineMillis s
  | .rxRead => Sys2Proof.Machine.execRxRead s
  | .txFrame apiId frameId payload => Sys2Proof.Machine.execTxFrame apiId frameId payload s
  | .bkReset => Sys2Proof.Machine.execBkReset s
  | .bkRead => Sys2Proof.Machine.execBkRead s
  | .reserved low => Sys2Proof.Machine.execReserved low s
  | .ckClr a => Sys2Proof.Machine.execCkClr a s
  | .ckAdd a b => Sys2Proof.Machine.execCkAdd a b s
  | .ckValid a => Sys2Proof.Machine.execCkValid a s
  | .ckCompute a => Sys2Proof.Machine.execCkCompute a s
  | .rxDiscard => Sys2Proof.Machine.execRxDiscard s
  | .rxByte b => Sys2Proof.Machine.execRxByte b s
  | .txEmit b => Sys2Proof.Machine.execTxEmit b s
  | .txDrain => Sys2Proof.Machine.execTxDrain s
  | .bkAppend b => Sys2Proof.Machine.execBkAppend b s
  | .rxbRestart b => Sys2Proof.Machine.execRxbRestart b s
  | .rxbOverrun b => Sys2Proof.Machine.execRxbOverrun b s
  | .rxbSkip b => Sys2Proof.Machine.execRxbSkip b s
  | .rxbStart b => Sys2Proof.Machine.execRxbStart b s
  | .rxbLenMsb b => Sys2Proof.Machine.execRxbLenMsb b s
  | .rxbLenLsb b => Sys2Proof.Machine.execRxbLenLsb b s
  | .rxbApiId b => Sys2Proof.Machine.execRxbApiId b s
  | .rxbTermOk b => Sys2Proof.Machine.execRxbTermOk b s
  | .rxbTermBad b => Sys2Proof.Machine.execRxbTermBad b s
  | .rxbData b => Sys2Proof.Machine.execRxbData b s
  | .frame apiId frameId payload => Sys2Proof.Machine.execFrame apiId frameId payload s
  | .rxFreshPoll => Sys2Proof.Machine.execRxFreshPoll s
  | .loopback apiId frameId payload => Sys2Proof.Machine.execLoopback apiId frameId payload s

end Sys2Proof.Machine
end

