-- ==== Sys2Proof/Machine/Step.lean ====
section
/-! DEFINITION. One step of the block. An operation in progress goes on; an idle block takes the host's next command
and runs it, and without one does nothing (00_scope.md R10, R12; 10_state.md R34; 60 R196; log 1, 15). -/

namespace Sys2Proof.Machine

def step (s : State) : Host.Outcome State Fault Refusal :=
  match s.ctl with
  | .idle =>
    match fetchCommand s with
    | none => .next s
    | some (i, s') => exec i s'
  | .poll _ => .next (resume s)
  | .clockTest _ _ => .next (resume s)

/-- `s` with the command of a table word as the host's next command and no operation in progress (log 15). -/
def State.withFetchWord (s : State) (_nbits w : Nat) : State :=
  withCtl .idle (withHost (commandOfTableWord w :: s.env.host) s)

end Sys2Proof.Machine
end

