-- ==== Sys2Proof/WellFormed.lean ====
section
/-! DEFINITION. Which operations are well formed as syntax: the length of a frame to send or on the wire fits its
16-bit field (43_transmitter.md R160, 30_encoding.md R84), a byte-class row carries a byte its class admits (R90),
and a frame on the wire holds no START_BYTE after its first byte (R91). -/

namespace Sys2Proof

/-- `n + 2 <= 65535` (R160): LEN fits two bytes. -/
abbrev LengthFits (payload : List Byte) : Prop := payload.length + 2 ≤ 65535

/-- No byte of the frame after offset 0 equals START_BYTE (R91). -/
abbrev NoStartInside (start apiId frameId : Byte) (payload : List Byte) : Prop :=
  start ∉ (frameBytes start apiId frameId payload).tail

/-- Well-formedness of an operation, for a block whose START_BYTE is `start`. -/
def Instr.wellFormed (start : Byte) : Instr → Bool
  | .nop => true
  | .rxReset => true
  | .rxPoll => true
  | .rxTimed _ => true
  | .rxRead => true
  | .txFrame _ _ payload => decide (LengthFits payload)
  | .bkReset => true
  | .bkRead => true
  | .reserved _ => true
  | .ckClr _ => true
  | .ckAdd _ _ => true
  | .ckValid _ => true
  | .ckCompute _ => true
  | .rxDiscard => true
  | .rxByte _ => true
  | .txEmit _ => true
  | .txDrain => true
  | .bkAppend _ => true
  | .rxbRestart b => b == start
  | .rxbOverrun b => b != start
  | .rxbSkip b => b != start
  | .rxbStart b => b == start
  | .rxbLenMsb b => b != start
  | .rxbLenLsb b => b != start
  | .rxbApiId b => b != start
  | .rxbTermOk b => b != start
  | .rxbTermBad b => b != start
  | .rxbData b => b != start
  | .frame apiId frameId payload => decide (LengthFits payload ∧ NoStartInside start apiId frameId payload)
  | .rxFreshPoll => true
  | .loopback _ _ payload => decide (LengthFits payload)

end Sys2Proof
end

