-- ==== Sys2Proof/Safety.lean ====
section
/-! DEFINITION. What a reachable state satisfies (10_state.md R35) and what a host within its contract issues
(43_transmitter.md R160; 70 R230). -/

namespace Sys2Proof.Machine

/-- The invariants I1 to I7 of R35, the canonical form of the two memories, and what an operation in progress means. -/
structure BlockInv (s : State) : Prop where
  /-- R6, R7, R8. -/
  cfg_valid : s.cfg.Valid
  /-- I1. -/
  position_le : s.rx.position ≤ s.cfg.cap + 1
  /-- I2. -/
  sum_clear : s.rx.position ≤ 3 → s.rx.sum = 0
  /-- From position 4 on the sum is that of the api-id and the bytes stored so far (R27, R125). -/
  sum_running : 4 ≤ s.rx.position → s.rx.sum = byteSum (s.rx.apiId :: payCells s.rx (s.rx.position - 4))
  /-- I3. -/
  count_le : s.bk.count ≤ s.cfg.mfs
  /-- R20's range of `rx.recLen`. -/
  recLen_le : s.rx.recLen + 4 ≤ s.cfg.cap
  /-- I4. -/
  available_closed : s.rx.outcome = .available →
    s.rx.position = 0 ∧ s.rx.sum = 0 ∧ declaredLength s.rx = s.rx.recLen + 1
  /-- R199: CHECKSUM_FAILURE clears the position; the two edge rules hold it. -/
  failure_closed : s.rx.outcome = .error .checksumFailure → s.rx.position = 0
  overrun_held : s.rx.outcome = .error .packetExceedsCapacity → s.rx.position = s.cfg.cap + 1
  restart_held : s.rx.outcome = .error .unexpectedStartByte → 0 < s.rx.position
  /-- I5. -/
  stream_written : ∀ i, i + 4 < s.rx.position → (Mem.read s.rx.payload i).isSome
  record_written : ∀ i, i < s.rx.recLen → (Mem.read s.rx.payload i).isSome
  /-- I6. -/
  capture_written : ∀ i, i < s.bk.count → (Mem.read s.bk.data i).isSome
  /-- I7, and R59: the highest PAY index ever written is CAP - 4. -/
  pay_bound : ∀ i, (Mem.read s.rx.payload i).isSome → i + 4 ≤ s.cfg.cap
  bkp_bound : ∀ i, (Mem.read s.bk.data i).isSome → i < s.cfg.mfs
  pay_wf : Mem.wf s.rx.payload = true
  bkp_wf : Mem.wf s.bk.data = true
  /-- A poll in progress has met no terminal outcome (R132). -/
  poll_pending : ∀ c, s.ctl = .poll c → s.rx.outcome = .pending
  /-- RX_TIMED in progress has a positive deadline, and its `t0` is a time the clock has reached (R151, R152). -/
  timed_poll : ∀ t0 d, s.ctl = .poll (.timed t0 d) → 0 < d ∧ t0 ≤ s.env.clock
  timed_test : ∀ t0 d, s.ctl = .clockTest t0 d → 0 < d ∧ t0 ≤ s.env.clock

/-- The host issues only codes that name a command, and TX_FRAME only within its precondition. -/
def HostWithinContract (s : State) : Prop :=
  ∀ c ∈ s.env.host, ∃ i, decode c = .valid i ∧ i.wellFormed s.cfg.startByte = true

/-- Two states the host cannot tell apart by what it has seen or will see (10_state.md R36): they may differ in `tx.sum`,
in the PAY cells outside the recorded frame and the frame in progress, and in the BKP cells at or above the cursor. -/
structure AlikeToTheHost (s t : State) : Prop where
  cfg : s.cfg = t.cfg
  registers : { s.rx with payload := t.rx.payload } = t.rx
  recorded : ∀ i, i < s.rx.recLen → payRead s.rx i = payRead t.rx i
  inProgress : ∀ i, i + 4 < s.rx.position → payRead s.rx i = payRead t.rx i
  count : s.bk.count = t.bk.count
  captured : ∀ i, i < s.bk.count → bkpRead s.bk i = bkpRead t.bk i
  ctl : s.ctl = t.ctl
  results : s.results = t.results
  micro : s.micro = t.micro
  trace : s.trace = t.trace
  env : s.env = t.env

end Sys2Proof.Machine
end

