-- ==== Sys2Proof/Certificates/Slice0/Obligations.lean ====
section
/-! DEFINITION. The statements for the provers. Each docstring names the rule of spec/ that the statement formalises; one
that rests on a choice of this model names the log entry. -/

open Sys2Proof Sys2Proof.Machine

namespace Sys2Proof.Claims

/-- The table row of a byte class (30_encoding.md R90). -/
def rowOf (k : ByteClass) (b : Byte) : Instr :=
  match k with
  | .restart => .rxbRestart b
  | .overrun => .rxbOverrun b
  | .skip => .rxbSkip b
  | .start => .rxbStart b
  | .lenMsb => .rxbLenMsb b
  | .lenLsb => .rxbLenLsb b
  | .apiId => .rxbApiId b
  | .termOk => .rxbTermOk b
  | .termBad => .rxbTermBad b
  | .data => .rxbData b

/-- What the row `i` of a byte class does to `s`, RX_BYTE of the byte does: both answer `t`. -/
def RowAndByte (i : Instr) (b : Byte) (s t : State) : Prop := exec i s = .next t ∧ exec (.rxByte b) s = .next t

/-- The events of bytes pulled one after another with FILLER_BYTE, the line asserted before each (R132, R166). -/
def pulls (filler : Byte) (bytes : List Byte) : List Event :=
  bytes.flatMap fun b => [.sig true, .xchg filler b]

/-- The events of emissions: for each byte out, the sample of the line and the byte returned (R163). -/
def emissions (outs : List Byte) (answers : List (Bool × Byte)) : List Event :=
  (outs.zip answers).flatMap fun e => [.sig e.2.1, .xchg e.1 e.2.2]

/-- The returned bytes whose sample of the line was asserted (R163). -/
def captured (answers : List (Bool × Byte)) : List Byte := (answers.filter (·.1)).map (·.2)

/-- RX_BYTE on each of the bytes in order, on the receiver's record. -/
def receive (cfg : Cfg) (bytes : List Byte) (r : Rx) : Rx := bytes.foldl (fun r b => stepByte cfg b r) r

/-- What a host's poll that stands at `s` with the receiver's record `r` has done when it comes to `t`, having pulled
`bs` (R132): the bytes are the environment's answers, the line asserted before each, and each met a PENDING outcome; the
poll is in progress after the iterations of one step (log 1), or a terminal outcome ended it without another signal
read, or a deasserted line did. Nothing else changes. -/
structure Polled (s : State) (r : Rx) (bs : List Byte) (t : State) : Prop where
  answers : pairAnswers bs.length s.env = bs.map (true, ·)
  script : ∀ vs rs, s.env.peer = .script vs rs →
    bs.take rs.length = rs.take bs.length ∧ ∀ v ∈ vs.take bs.length, v = true
  received : t.rx = receive s.cfg bs r
  pending : ∀ pre x post, bs = pre ++ x :: post → (receive s.cfg pre r).outcome = .pending
  ending :
    (t.ctl = .poll .host ∧ t.rx.outcome = .pending ∧ bs.length = heldAnswers s.env + 1 ∧
      t.trace = s.trace ++ pulls s.cfg.fillerByte bs ∧ t.env = afterPairs bs.length s.env) ∨
    (t.ctl = .idle ∧ t.rx.outcome ≠ .pending ∧
      t.trace = s.trace ++ pulls s.cfg.fillerByte bs ∧ t.env = afterPairs bs.length s.env) ∨
    (t.ctl = .idle ∧ t.rx.outcome = .pending ∧ signalAnswer (afterPairs bs.length s.env) = false ∧
      t.trace = s.trace ++ pulls s.cfg.fillerByte bs ++ [.sig false] ∧
      t.env = afterSignal (afterPairs bs.length s.env))
  frame : t = { s with rx := t.rx, ctl := t.ctl, trace := t.trace, env := t.env }
  host_clock : t.env.host = s.env.host ∧ t.env.clock = s.env.clock ∧ t.env.ticks = s.env.ticks

/-- BK_APPEND of each of the bytes in order. -/
def appendAll (cfg : Cfg) (bytes : List Byte) (k : Bk) : Bk := bytes.foldl (fun k b => appendBk cfg b k) k

/-- A receiver at the start of a frame: position 0 and sum 0. -/
def AtFrameStart (r : Rx) : Prop := r.position = 0 ∧ r.sum = 0

/-- The frames this block's receiver can accept (41_receiver.md R137, 90_conflicts.md C2). -/
def Receivable (cfg : Cfg) (apiId frameId : Byte) (payload : List Byte) : Prop :=
  LengthFits payload ∧ NoStartInside cfg.startByte apiId frameId payload ∧ payload.length + 5 ≤ cfg.cap

/-- A frame received (R137): the registers and the first `n + 1` cells of PAY. -/
def Received (r : Rx) (apiId frameId : Byte) (payload : List Byte) : Prop :=
  r.outcome = .available ∧ r.apiId = apiId ∧ r.recLen = payload.length + 1 ∧
  payCells r (payload.length + 1) = frameId :: payload ∧
  r.lengthMsb = lenMsb payload.length ∧ r.lengthLsb = lenLsb payload.length ∧ AtFrameStart r

/-- The operations that write the receiver's record (10_state.md R20). -/
def writesRx : Instr → Bool
  | .rxReset | .rxPoll | .rxTimed _ | .rxDiscard | .rxByte _ | .ckClr .rx | .ckAdd .rx _ => true
  | .rxbRestart _ | .rxbOverrun _ | .rxbStart _ | .rxbLenMsb _ | .rxbLenLsb _ | .rxbApiId _ => true
  | .rxbTermOk _ | .rxbTermBad _ | .rxbData _ | .frame _ _ _ | .rxFreshPoll | .loopback _ _ _ => true
  | _ => false

/-- The operations that write `tx.sum` (R20). -/
def writesTx : Instr → Bool
  | .txFrame _ _ _ | .ckClr .tx | .ckAdd .tx _ | .loopback _ _ _ => true
  | _ => false

/-- The operations that write the backup buffer (R20). -/
def writesBk : Instr → Bool
  | .txFrame _ _ _ | .txEmit _ | .txDrain | .bkAppend _ | .bkReset | .loopback _ _ _ => true
  | _ => false

/-- The operations whose rules make environment calls. -/
def callsEnvironment : Instr → Bool
  | .rxPoll | .rxTimed _ | .txFrame _ _ _ | .txEmit _ | .txDrain | .rxFreshPoll | .loopback _ _ _ => true
  | _ => false

/-- The operations whose return value, executed on their own, stands in the field `micro` (R112, R113; log 10). -/
def writesMicro : Instr → Bool
  | .ckValid _ | .ckCompute _ => true
  | _ => false

/-- The operations that present a result to the host (R36, R96). -/
def presents : Instr → Bool
  | .rxTimed _ | .rxRead | .bkRead => true
  | _ => false

end Sys2Proof.Claims

open Sys2Proof.Claims

/-! ### Reset, the command port, the encodings -/

/-- What reset leaves (R34, R220). All values but the position's are the spec's own choice (D15), the state after a
hardware reset is idle and stays so without a command (log 15), and the cells are unspecified: none is written (log
6). -/
def Obligations.ResetLeavesTheStatedValues : Prop :=
  (State.reset.rx.position = 0 ∧ State.reset.rx.sum = 0 ∧ State.reset.rx.outcome = .pending ∧
    State.reset.rx.lengthMsb = 0 ∧ State.reset.rx.lengthLsb = 0 ∧ State.reset.rx.apiId = 0 ∧
    State.reset.rx.recLen = 0 ∧ State.reset.bk.count = 0 ∧ State.reset.tx.sum = 0 ∧
    (∀ i, Mem.read State.reset.rx.payload i = none) ∧ (∀ i, Mem.read State.reset.bk.data i = none)) ∧
  (State.reset.ctl = .idle ∧ State.reset.trace = [] ∧ step State.reset = .next State.reset) ∧
  ∀ s, ∃ t u, exec .rxReset s = .next t ∧ exec .bkReset t = .next u ∧
    u.rx = { State.reset.rx with payload := s.rx.payload } ∧ u.bk = { State.reset.bk with data := s.bk.data }

/-- R96: the code assignment of the command port, which is the spec's own choice (D1); that the codes from 0x8 on are
invalid is R97 with its choice D28, and that the decoder answers invalid with the RESERVED row is log 8. -/
def Obligations.CommandCodesNameTheirCommands : Prop :=
  ∀ c : Command,
    (c.op = 0x0 → decode c = .valid .nop) ∧ (c.op = 0x1 → decode c = .valid .rxReset) ∧
    (c.op = 0x2 → decode c = .valid .rxPoll) ∧ (c.op = 0x3 → decode c = .valid (.rxTimed c.deadlineMillis)) ∧
    (c.op = 0x4 → decode c = .valid .rxRead) ∧
    (c.op = 0x5 → decode c = .valid (.txFrame c.apiId c.frameId c.payload)) ∧
    (c.op = 0x6 → decode c = .valid .bkReset) ∧ (c.op = 0x7 → decode c = .valid .bkRead) ∧
    (8 ≤ c.op.toNat → decode c = .invalid (.reserved (BitVec.ofNat 3 c.op.toNat)))

/-- R97: NOP does nothing; a reserved code is invalid and has no step (the spec's own choice, D28; the form of the
refusal is log 8); no command reaches an operation without a code. -/
def Obligations.NopDoesNothingAndReservedCodesAreRefused : Prop :=
  (∀ s, exec .nop s = .next s) ∧
  (∀ low s, exec (.reserved low) s = .refused (.reservedCode low)) ∧
  (∀ (c : Command) cs s, 8 ≤ c.op.toNat → s.ctl = .idle → s.env.host = c :: cs →
    (∃ i, decode c = .invalid i) ∧ ∃ low, step s = .refused (.reservedCode low)) ∧
  (∀ c : Command, encode (decode c).instr ≠ none) ∧
  (∀ a b, encode (.ckClr a) = none ∧ encode (.ckAdd a b) = none ∧ encode (.ckValid a) = none ∧
    encode (.ckCompute a) = none ∧ encode .rxDiscard = none ∧ encode (.rxByte b) = none ∧
    encode (.txEmit b) = none ∧ encode .txDrain = none ∧ encode (.bkAppend b) = none)

/-- Decode and encode agree on every operation that has a code (R96, R97, with the choices D1 and D28; the RESERVED row
is log 8 and the zero operand lines are log 14), with every operand value. -/
def Obligations.DecodeOfEncodeIsTheInstruction : Prop :=
  ∀ i c, encode i = some c → (decode c).instr = i

/-- Decode and encode agree on wire frames (R80, R84 to R89, R98): a well-formed frame, followed by anything, decodes
to itself and leaves what follows. -/
def Obligations.FrameDecodeOfEncodeIsTheFrame : Prop :=
  ∀ (start apiId frameId : Byte) (payload rest : List Byte),
    (Instr.frame apiId frameId payload).wellFormed start = true →
    decodeFrame start (frameBytes start apiId frameId payload ++ rest) = .ok (.frame apiId frameId payload, rest)

/-- The frame decoder accepts nothing but well-formed frames, and reads each in one way (R80, R89, R91, R98). -/
def Obligations.FrameDecoderAcceptsOnlyEncodedFrames : Prop :=
  ∀ (start : Byte) (bytes rest : List Byte) (i : Instr), decodeFrame start bytes = .ok (i, rest) →
    ∃ apiId frameId payload, i = .frame apiId frameId payload ∧ i.wellFormed start = true ∧
      bytes = frameBytes start apiId frameId payload ++ rest

/-- The codes and the frame of the spec's tables and of its worked example, written out (R80, R96, D1; 95_test_vectors.md
W1, 2.8). That the operand lines of a table word are zero (`rxTimed 0`, `txFrame 0 0 []`) is log 14, that code 0xD decodes
to its RESERVED row is log 8. -/
def Obligations.WrittenOutWordsDecode : Prop :=
  decodeTableWord 8 0b0000 = some .nop ∧ decodeTableWord 8 0b0001 = some .rxReset ∧
  decodeTableWord 8 0b0010 = some .rxPoll ∧ decodeTableWord 8 0b0011 = some (.rxTimed 0) ∧
  decodeTableWord 8 0b0101 = some (.txFrame 0 0 []) ∧ decodeTableWord 8 0b0111 = some .bkRead ∧
  decodeTableWord 8 0b1101 = some (.reserved 0b101) ∧
  decodeFrame 0x7E [0x7E, 0x00, 0x04, 0x08, 0x01, 0x4E, 0x49, 0x5F] = .ok (.frame 0x08 0x01 [0x4E, 0x49], [])

/-- A step of an idle block takes the host's next command and runs the operation it decodes to; without a command it
changes nothing; an operation in progress goes on, by as many iterations as the answers held as data can feed and one
more (R10, R12, R34, R196; the granularity is log 1, the host's list of commands log 15). -/
def Obligations.StepRunsTheDecodedCommand : Prop :=
  (∀ s c cs, s.ctl = .idle → s.env.host = c :: cs → step s = exec (decode c).instr (withHost cs s)) ∧
  (∀ s, s.ctl = .idle → s.env.host = [] → step s = .next s) ∧
  (∀ s, s.ctl ≠ .idle → step s = .next (advanceBy (heldAnswers s.env + 1) s))

/-- R12, R231 (the spec's own choice, D2; the granularity of a step is log 1): while an operation is in progress no
command is taken; it touches neither the backup buffer nor `tx.sum`, and presents nothing before it ends. A step of an
RX_TIMED in progress that ends it presents one boolean, true only with the outcome AVAILABLE (R150, D24). Then what one
iteration does: a poll's (R132, D16, D17), the return of a poll to RX_TIMED (R150), and the test of its clock (R150,
R153, D24, with the discard D11). -/
def Obligations.NoCommandIsTakenWhileOneIsInProgress : Prop :=
  (∀ s, s.ctl ≠ .idle → ∃ t, step s = .next t ∧ t.env.host = s.env.host ∧ t.bk = s.bk ∧ t.tx = s.tx ∧
    (t.ctl ≠ .idle → t.results = s.results) ∧ (s.ctl = .poll .host → t.results = s.results)) ∧
  (∀ s (t0 : Nat) (d : Int), s.ctl = .poll (.timed t0 d) ∨ s.ctl = .clockTest t0 d → ∃ t, step s = .next t ∧
    (((t.ctl = .poll (.timed t0 d) ∨ t.ctl = .clockTest t0 d) ∧ t.results = s.results) ∨
     (t.ctl = .idle ∧ ∃ ok, t.results = s.results ++ [.timed ok] ∧
      (ok = true → t.rx.outcome = .available) ∧ (ok = false → t.rx.outcome = .available → t.rx = s.rx)))) ∧
  (∀ s c, s.ctl = .poll c →
    (signalAnswer s.env = true →
      (advance s).rx = stepByte s.cfg (exchangeAnswer (afterSignal s.env)) s.rx ∧
      (advance s).trace = s.trace ++ pulls s.cfg.fillerByte [exchangeAnswer (afterSignal s.env)] ∧
      (advance s).env = afterExchange (afterSignal s.env) ∧
      ((advance s).rx.outcome = .pending → (advance s).ctl = s.ctl ∧ (advance s).results = s.results)) ∧
    (signalAnswer s.env = false →
      (advance s).rx = s.rx ∧ (advance s).trace = s.trace ++ [.sig false] ∧ (advance s).env = afterSignal s.env) ∧
    (signalAnswer s.env = false ∨ (advance s).rx.outcome ≠ .pending →
      (c = .host → (advance s).ctl = .idle ∧ (advance s).results = s.results) ∧
      ∀ t0 d, c = .timed t0 d →
        ((advance s).rx.outcome = .pending → (advance s).ctl = .clockTest t0 d ∧ (advance s).results = s.results) ∧
        ((advance s).rx.outcome ≠ .pending → (advance s).ctl = .idle ∧
          (advance s).results = s.results ++ [.timed (decide ((advance s).rx.outcome = .available))]))) ∧
  (∀ s (t0 : Nat) (d : Int), s.ctl = .clockTest t0 d →
    (advance s).trace = s.trace ++ [.now (clockAnswer s.env)] ∧ (advance s).env = afterClock s.env ∧
    ((clockAnswer s.env : Int) - t0 ≤ d → (advance s).ctl = .poll (.timed t0 d) ∧
      (advance s).rx = { s.rx with outcome := .pending } ∧ (advance s).results = s.results) ∧
    (d < (clockAnswer s.env : Int) - t0 → (advance s).ctl = .idle ∧
      (advance s).rx = s.rx ∧ (advance s).results = s.results ++ [.timed false]))

/-! ### The checksum accumulator -/

/-- R110. -/
def Obligations.ClearSetsTheAccumulatorToZero : Prop :=
  ∀ s, exec (.ckClr .rx) s = .next { s with rx := { s.rx with sum := 0 } } ∧
    exec (.ckClr .tx) s = .next { s with tx := { s.tx with sum := 0 } }

/-- R111: one byte is added modulo 256 and nothing else changes; and, which the spec derives from R110 and R111, after
any bytes added to a cleared accumulator it holds their sum modulo 256. -/
def Obligations.AddAccumulatesModulo256 : Prop :=
  (∀ b s, ∃ v : Byte, v.toNat = (s.rx.sum.toNat + b.toNat) % 256 ∧
    exec (.ckAdd .rx b) s = .next { s with rx := { s.rx with sum := v } }) ∧
  (∀ b s, ∃ v : Byte, v.toNat = (s.tx.sum.toNat + b.toNat) % 256 ∧
    exec (.ckAdd .tx b) s = .next { s with tx := { s.tx with sum := v } }) ∧
  (∀ (a : Acc) (bs : List Byte) s,
    (accValue a (bs.foldl (fun s b => ckAdd a b s) (ckClr a s))).toNat = (bs.map BitVec.toNat).sum % 256)

/-- R112: CK_VALID answers whether the accumulator is 0xFF and changes nothing; exactly one value is valid. Where the
answer of a micro-operation executed on its own stands, the field `micro`, is the model's choice (log 10). -/
def Obligations.ValidIsEqualityWithFF : Prop :=
  (∀ a s, ∃ v : Bool, (v = true ↔ accValue a s = 0xFF) ∧ exec (.ckValid a) s = .next { s with micro := .flag v }) ∧
  (∀ v : Byte, sumValid v = true ↔ v.toNat = 255)

/-- R113: the check byte is `0xFF - A`, without borrow, the bitwise complement; the accumulator keeps its value. The
answer stands in the field `micro`, the model's choice (log 10). -/
def Obligations.ComputeIsFFMinusTheAccumulator : Prop :=
  ∀ a s, ∃ c : Byte, c.toNat = 255 - (accValue a s).toNat ∧ c = ~~~(accValue a s) ∧
    exec (.ckCompute a) s = .next { s with micro := .byte c }

/-- R115, the arithmetic the spec derives from R111 to R113: the check byte and no other makes the sum 0xFF; a change
of exactly one added byte changes the sum; exchanging two added bytes does not. -/
def Obligations.CheckByteIsUniqueAndSingleChangesShow : Prop :=
  (∀ (bs : List Byte) (c : Byte),
    sumValid ((bs ++ [c]).foldl sumAdd sumClear) = true ↔ c = sumCompute (bs.foldl sumAdd sumClear)) ∧
  (∀ (pre post : List Byte) (x y : Byte), x ≠ y →
    (pre ++ x :: post).foldl sumAdd sumClear ≠ (pre ++ y :: post).foldl sumAdd sumClear) ∧
  (∀ (pre mid post : List Byte) (x y : Byte),
    (pre ++ x :: mid ++ y :: post).foldl sumAdd sumClear = (pre ++ y :: mid ++ x :: post).foldl sumAdd sumClear)

/-! ### The receiver -/

/-- R120: RX_RESET clears the record but for the payload cells, and twice is the same as once. That it clears the
header registers and the recorded length is the spec's own choice (D14). -/
def Obligations.RxResetClearsTheReceiver : Prop :=
  ∀ s, ∃ t, t = { s with rx := { s.rx with
      position := 0, sum := 0, outcome := .pending, lengthMsb := 0, lengthLsb := 0, apiId := 0, recLen := 0 } } ∧
    exec .rxReset s = .next t ∧ exec .rxReset t = .next t

/-- R121: RX_DISCARD makes the outcome PENDING and changes nothing else (the spec's own choice, D11). -/
def Obligations.RxDiscardOnlyDropsTheOutcome : Prop :=
  ∀ s, exec .rxDiscard s = .next { s with rx := { s.rx with outcome := .pending } }

/-- R122 with R90: RX_BYTE does exactly what the row of the byte's class says, "and add[s] nothing to it"; at any
other class a row has no step (log 11). -/
def Obligations.RxByteRunsTheRowOfItsClass : Prop :=
  ∀ b s, (∃ t, exec (.rxByte b) s = .next t ∧ exec (rowOf (classify s.cfg s.rx b) b) s = .next t) ∧
    ∀ k, k ≠ classify s.cfg s.rx b → exec (rowOf k b) s = .refused .byteNotOfClass

/-- R123, R124, R199: an edge rule records its kind and changes nothing else: the position and the sum hold, nothing
is stored (the spec's own choices, D8, D9, D10). -/
def Obligations.EdgeRulesRecordTheErrorAndHold : Prop :=
  ∀ b s,
    (0 < s.rx.position → b = s.cfg.startByte →
      RowAndByte (.rxbRestart b) b s { s with rx := { s.rx with outcome := .error .unexpectedStartByte } }) ∧
    (b ≠ s.cfg.startByte → s.cfg.cap < s.rx.position →
      RowAndByte (.rxbOverrun b) b s { s with rx := { s.rx with outcome := .error .packetExceedsCapacity } })

/-- R126: at position 0 START_BYTE moves the position to 1 and any other byte changes nothing. -/
def Obligations.AwaitStartTakesOnlyStartByte : Prop :=
  ∀ b s, s.rx.position = 0 →
    (b = s.cfg.startByte → RowAndByte (.rxbStart b) b s { s with rx := { s.rx with position := 1 } }) ∧
    (b ≠ s.cfg.startByte → RowAndByte (.rxbSkip b) b s s)

/-- R127, R128, R129: the two length bytes and the api-id are stored in their registers and the position advances;
only the api-id is summed. The premise on CAP is that of R7, weakened to what R124 names. -/
def Obligations.HeaderBytesGoToTheirRegisters : Prop :=
  ∀ b s, b ≠ s.cfg.startByte → 3 ≤ s.cfg.cap →
    (s.rx.position = 1 → RowAndByte (.rxbLenMsb b) b s { s with rx := { s.rx with lengthMsb := b, position := 2 } }) ∧
    (s.rx.position = 2 → RowAndByte (.rxbLenLsb b) b s { s with rx := { s.rx with lengthLsb := b, position := 3 } }) ∧
    (s.rx.position = 3 → RowAndByte (.rxbApiId b) b s
      { s with rx := { s.rx with sum := s.rx.sum + b, apiId := b, position := 4 } })

/-- R130: a data byte is summed, stored in cell `position - 4` and advances the position; every other register and
every other cell is as before. -/
def Obligations.DataByteIsStoredAndSummed : Prop :=
  ∀ b s, b ≠ s.cfg.startByte → 4 ≤ s.rx.position → s.rx.position ≤ s.cfg.cap →
    s.rx.position ≠ declaredLength s.rx + 3 →
    ∃ t, RowAndByte (.rxbData b) b s t ∧
      t = { s with rx := { s.rx with
        sum := s.rx.sum + b, position := s.rx.position + 1, payload := t.rx.payload } } ∧
      Mem.read t.rx.payload (s.rx.position - 4) = some b ∧
      ∀ i, i ≠ s.rx.position - 4 → Mem.read t.rx.payload i = Mem.read s.rx.payload i

/-- R131: the terminator's verdict; either way position and sum become 0; the recorded length is written only when the
checksum is valid (the spec's own choice, D13), and equals `declaredLength - 1`; nothing is stored. -/
def Obligations.TerminatorGivesTheVerdict : Prop :=
  ∀ b s, b ≠ s.cfg.startByte → 4 ≤ s.rx.position → s.rx.position ≤ s.cfg.cap →
    s.rx.position = declaredLength s.rx + 3 →
    (s.rx.sum + b = 0xFF → RowAndByte (.rxbTermOk b) b s { s with rx := { s.rx with
      outcome := .available, recLen := s.rx.position - 4, position := 0, sum := 0 } } ∧
      s.rx.position - 4 = declaredLength s.rx - 1) ∧
    (s.rx.sum + b ≠ 0xFF → RowAndByte (.rxbTermBad b) b s { s with rx := { s.rx with
      outcome := .error .checksumFailure, position := 0, sum := 0 } })

/-- R198: which error a byte raises. -/
def Obligations.OneErrorByPrecedence : Prop :=
  ∀ b s, s.rx.outcome = .pending → ∃ t, exec (.rxByte b) s = .next t ∧
    (t.rx.outcome = .error .unexpectedStartByte ↔ 0 < s.rx.position ∧ b = s.cfg.startByte) ∧
    (t.rx.outcome = .error .packetExceedsCapacity ↔ b ≠ s.cfg.startByte ∧ s.cfg.cap < s.rx.position) ∧
    (t.rx.outcome = .error .checksumFailure ↔ b ≠ s.cfg.startByte ∧ 4 ≤ s.rx.position ∧
      s.rx.position ≤ s.cfg.cap ∧ s.rx.position = declaredLength s.rx + 3 ∧ s.rx.sum + b ≠ 0xFF) ∧
    (t.rx.outcome = .available ↔ b ≠ s.cfg.startByte ∧ 4 ≤ s.rx.position ∧
      s.rx.position ≤ s.cfg.cap ∧ s.rx.position = declaredLength s.rx + 3 ∧ s.rx.sum + b = 0xFF)

/-- R133, which the spec derives from R124 and R130: the receiver's operations change no PAY cell above CAP - 4;
RX_BYTE none but `position - 4`. -/
def Obligations.ReceiverNeverWritesOutOfBounds : Prop :=
  (∀ b s t, exec (.rxByte b) s = .next t → ∀ i, Mem.read t.rx.payload i ≠ Mem.read s.rx.payload i →
    4 ≤ s.rx.position ∧ s.rx.position ≤ s.cfg.cap ∧ i = s.rx.position - 4) ∧
  (∀ i s t, exec i s = .next t → ∀ j, Mem.read t.rx.payload j ≠ Mem.read s.rx.payload j → j + 4 ≤ s.cfg.cap)

/-- R135, which the spec derives from R120 to R131: every change of the position (the edge rules hold it by the spec's own
choices D8 and D9). -/
def Obligations.PositionTransfers : Prop :=
  ∀ b s,
    (∃ t, exec (.rxByte b) s = .next t ∧ t.rx.position =
      if s.rx.position = 0 then (if b = s.cfg.startByte then 1 else 0)
      else if b = s.cfg.startByte ∨ s.cfg.cap < s.rx.position then s.rx.position
      else if 4 ≤ s.rx.position ∧ s.rx.position = declaredLength s.rx + 3 then 0
      else s.rx.position + 1) ∧
    (∃ t, exec .rxReset s = .next t ∧ t.rx.position = 0)

/-- R134: RX_READ presents the record and changes nothing else (the spec's own choice, D12); each payload byte is the
one last written to its cell. -/
def Obligations.RxReadPresentsTheRecord : Prop :=
  ∀ s, s.rx.recLen ≤ s.cfg.cap → ∃ p : List Byte,
    exec .rxRead s = .next { s with results := s.results ++ [.rxRead
      { outcome := s.rx.outcome, apiId := s.rx.apiId, lengthMsb := s.rx.lengthMsb, lengthLsb := s.rx.lengthLsb,
        declaredLength := 256 * s.rx.lengthMsb.toNat + s.rx.lengthLsb.toNat, recLen := s.rx.recLen,
        payload := p }] } ∧
    p.length = s.rx.recLen ∧
    ∀ i b, i < s.rx.recLen → Mem.read s.rx.payload i = some b → p[i]? = some b

/-- R137, which the spec derives from R122 to R131: acceptance, byte by byte; and with R165 the round trip of a
receivable frame. -/
def Obligations.ReceiverAcceptsExactlyValidFrames : Prop :=
  (∀ (cfg : Cfg) (r : Rx) (g d : List Byte) (m l a c : Byte),
    AtFrameStart r → r.outcome = .pending → cfg.startByte ∉ g ++ [m, l, a] ++ d ++ [c] →
    1 ≤ 256 * m.toNat + l.toNat → d.length + 1 = 256 * m.toNat + l.toNat → 256 * m.toNat + l.toNat + 3 ≤ cfg.cap →
    (∀ pre, pre <+: g ++ [cfg.startByte, m, l, a] ++ d → (receive cfg pre r).outcome = .pending) ∧
    (∀ t, t = receive cfg (g ++ [cfg.startByte, m, l, a] ++ d ++ [c]) r → AtFrameStart t ∧
      (byteSum ([a] ++ d ++ [c]) = 0xFF → t.outcome = .available ∧ t.apiId = a ∧ t.recLen = d.length ∧
        payCells t d.length = d ∧ t.lengthMsb = m ∧ t.lengthLsb = l) ∧
      (byteSum ([a] ++ d ++ [c]) ≠ 0xFF → t.outcome = .error .checksumFailure))) ∧
  (∀ (cfg : Cfg) (r : Rx) (apiId frameId : Byte) (payload : List Byte), AtFrameStart r → r.outcome = .pending →
    Receivable cfg apiId frameId payload →
    Received (receive cfg (frameBytes cfg.startByte apiId frameId payload) r) apiId frameId payload)

/-- The FRAME row (R80, R137; log 12): a receivable frame that meets a receiver at a frame start is received;
everything but the receiver's record is as before, and so is every PAY cell past the frame. -/
def Obligations.FrameRowDeliversAFrame : Prop :=
  ∀ apiId frameId payload s, AtFrameStart s.rx → s.rx.outcome = .pending → Receivable s.cfg apiId frameId payload →
    ∃ t, exec (.frame apiId frameId payload) s = .next t ∧ Received t.rx apiId frameId payload ∧
      t = { s with rx := t.rx } ∧
      ∀ i, payload.length + 1 ≤ i → Mem.read t.rx.payload i = Mem.read s.rx.payload i

/-- The FRAME row in every state (R122; log 12): its bytes go to RX_BYTE in order for as long as the outcome is
PENDING. -/
def Obligations.FrameRowFeedsUntilTerminal : Prop :=
  ∀ apiId frameId payload s, LengthFits payload → ∃ bs rest,
    frameBytes s.cfg.startByte apiId frameId payload = bs ++ rest ∧
    exec (.frame apiId frameId payload) s = .next { s with rx := receive s.cfg bs s.rx } ∧
    (∀ pre x post, bs = pre ++ x :: post → (receive s.cfg pre s.rx).outcome = .pending) ∧
    (rest ≠ [] → (receive s.cfg bs s.rx).outcome ≠ .pending)

/-- R115 at the receiver, 90_conflicts.md C3: a receivable frame with exactly one of its bytes from the api-id on
changed is never accepted; the outcome is CHECKSUM_FAILURE unless the changed byte became START_BYTE. -/
def Obligations.OneCorruptedByteIsNeverAccepted : Prop :=
  ∀ apiId frameId payload s t (k : Nat) (y : Byte), AtFrameStart s.rx → s.rx.outcome = .pending →
    Receivable s.cfg apiId frameId payload → 3 ≤ k → k < payload.length + 6 →
    (frameBytes s.cfg.startByte apiId frameId payload)[k]? ≠ some y →
    t = feed ((frameBytes s.cfg.startByte apiId frameId payload).set k y) s →
    (y ≠ s.cfg.startByte → t.rx.outcome = .error .checksumFailure) ∧
    (y = s.cfg.startByte → t.rx.outcome = .error .unexpectedStartByte)

/-- R92, R93, which the spec derives from R90: a declared length of 0, or one whose terminator lies past CAP, ends in
PACKET_EXCEEDS_CAPACITY at the byte after position CAP, whatever the bytes are, as long as none is START_BYTE; up to
there the outcome stays PENDING. The position held there is the spec's own choice (D9). -/
def Obligations.OverlongAndZeroLengthFramesOverrun : Prop :=
  ∀ (cfg : Cfg) (r : Rx) (bs : List Byte), r.outcome = .pending → 3 ≤ r.position → r.position ≤ cfg.cap →
    (declaredLength r = 0 ∨ cfg.cap < declaredLength r + 3) → cfg.startByte ∉ bs →
    bs.length = cfg.cap + 1 - r.position →
    (∀ pre, pre <+: bs → (receive cfg pre r).outcome = .pending) ∧ (receive cfg bs r).position = cfg.cap + 1 ∧
    ∀ b, b ≠ cfg.startByte → (receive cfg (bs ++ [b]) r).outcome = .error .packetExceedsCapacity ∧
      (receive cfg (bs ++ [b]) r).position = cfg.cap + 1

/-- R136, which the spec derives from R122 and R132: past position 0 at most CAP + 1 further bytes bring a terminal
outcome; at position 0 bytes other than START_BYTE can go on for ever: a poll whose peer keeps the line asserted and
sends none is still in progress after any number of iterations (log 1), one signal read and one exchange of FILLER_BYTE
each (the choices D16, D17; the discard at its start is D11). -/
def Obligations.PollIsBoundedOnlyInsideAFrame : Prop :=
  (∀ (s : State) (bs : List Byte), s.rx.outcome = .pending → 1 ≤ s.rx.position → s.rx.position ≤ s.cfg.cap + 1 →
    bs.length = s.cfg.cap + 1 → (feed bs s).rx.outcome ≠ .pending) ∧
  (∀ (s : State) (bs : List Byte), s.rx.position = 0 → s.cfg.startByte ∉ bs →
    s.env.peer = .script (List.replicate bs.length true) bs →
    ∃ t, advanceBy bs.length (startPoll .host s) = t ∧ t.ctl = .poll .host ∧
      t.rx = { s.rx with outcome := .pending } ∧ t.trace = s.trace ++ pulls s.cfg.fillerByte bs)

/-! ### RX_POLL and RX_TIMED -/

/-- R132 (with its choices D16, D17, and D11 for the discard) against `QueuePeer(q)`, for every state and queue: the poll
ends in the one step (log 1), having given RX_BYTE the longest run of queued bytes up to the first terminal outcome. -/
def Obligations.PollAgainstAQueueCompletes : Prop :=
  ∀ s q, s.env.peer = .queue q → ∃ bs rest, q = bs ++ rest ∧
    (∀ pre x post, bs = pre ++ x :: post → (receive s.cfg pre { s.rx with outcome := .pending }).outcome = .pending) ∧
    ∃ r, r = receive s.cfg bs { s.rx with outcome := .pending } ∧ (r.outcome = .pending → rest = []) ∧
      exec .rxPoll s = .next { s with
        rx := r, ctl := .idle, env := { s.env with peer := .queue rest },
        trace := s.trace ++ pulls s.cfg.fillerByte bs ++ if r.outcome = .pending then [.sig false] else [] }

/-- R132 (with its choices D16, D17, and D11 for the discard) whatever the environment answers: one signal read, then one
exchange of FILLER_BYTE, then RX_BYTE of the byte answered, and no signal read after a terminal outcome; a poll that is
still in progress has met none, and a step goes on with it in the same way (log 1). -/
def Obligations.PollWhateverThePeerAnswers : Prop :=
  (∀ s, ∃ t bs, exec .rxPoll s = .next t ∧ Polled s { s.rx with outcome := .pending } bs t) ∧
  (∀ s, s.ctl = .poll .host → s.rx.outcome = .pending → ∃ t bs, step s = .next t ∧ Polled s s.rx bs t)

/-- R132 (with its choice D17, and D11 for the discard), corner case: the line deasserted at the first read gives one
`sig(0)`, no exchange, and only RX_DISCARD's effect, whoever the peer is. -/
def Obligations.PollOfAnIdleLineOnlyDiscards : Prop :=
  ∀ s, signalAnswer s.env = false → exec .rxPoll s = .next { s with
    rx := { s.rx with outcome := .pending }, ctl := .idle, trace := s.trace ++ [.sig false], env := afterSignal s.env }

/-- R201 (it rests on the spec's own choices D9 and D11): at position CAP + 1 every poll of a queue that is not empty
pulls one byte, with one signal read and one exchange of FILLER_BYTE (D16, D17), reports an error again and ends, in the
one step (log 1); the receiver stays where it is until RX_RESET. -/
def Obligations.OverrunRepeatsUntilReset : Prop :=
  ∀ s b q, s.rx.position = s.cfg.cap + 1 → s.env.peer = .queue (b :: q) →
    exec .rxPoll s = .next { s with
      rx := { s.rx with outcome :=
        if b = s.cfg.startByte then .error .unexpectedStartByte else .error .packetExceedsCapacity },
      ctl := .idle, env := { s.env with peer := .queue q },
      trace := s.trace ++ [.sig true, .xchg s.cfg.fillerByte b] }

/-- R100: RX_FRESH_POLL is RX_RESET, then RX_POLL; and R120's property: whatever the state was, a receivable frame at
the head of the peer's queue is then received. The events are those of the choices D16 and D17, and the poll's end in the
one step is log 1. -/
def Obligations.FreshPollParsesAFreshFrame : Prop :=
  (∀ s, ∃ u t, exec .rxReset s = .next u ∧ exec .rxPoll u = .next t ∧ exec .rxFreshPoll s = .next t) ∧
  ∀ apiId frameId payload rest s, Receivable s.cfg apiId frameId payload →
    s.env.peer = .queue (frameBytes s.cfg.startByte apiId frameId payload ++ rest) →
    ∃ t, exec .rxFreshPoll s = .next t ∧ Received t.rx apiId frameId payload ∧
      t = { s with rx := t.rx, ctl := .idle, env := { s.env with peer := .queue rest },
                   trace := s.trace ++ pulls s.cfg.fillerByte (frameBytes s.cfg.startByte apiId frameId payload) }

/-- R152: a deadline that is not positive gives false and does nothing else. -/
def Obligations.NonPositiveDeadlineIsRejectedAtOnce : Prop :=
  ∀ s (d : Int), d ≤ 0 → exec (.rxTimed d) s = .next { s with results := s.results ++ [.timed false] }

/-- R150 (with its choice D24): where the clock's second answer is within the deadline and the poll it starts ends
with a terminal outcome, in the one step (log 1), RX_TIMED is that poll, and its result says whether the outcome is
AVAILABLE. -/
def Obligations.TimedReceiveReturnsThePollsVerdict : Prop :=
  ∀ s t (d : Int) (x y : Nat) ts, 0 < d → s.env.ticks = x :: y :: ts → (y : Int) ≤ d →
    exec .rxPoll { s with
      trace := s.trace ++ [.now (s.env.clock + x), .now (s.env.clock + x + y)],
      env := { s.env with clock := s.env.clock + x + y, ticks := ts } } = .next t →
    t.ctl = .idle → t.rx.outcome ≠ .pending →
    exec (.rxTimed d) s =
      .next { t with results := s.results ++ [.timed (decide (t.rx.outcome = .available))] }

/-- R153 (a) (with the choice D24): where the second answer of the clock is past the deadline no poll is made: false,
the receiver as it was. -/
def Obligations.TimeoutBeforeAnyPollTouchesNothing : Prop :=
  ∀ s (d : Int) (x y : Nat) ts, 0 < d → s.env.ticks = x :: y :: ts → d < (y : Int) →
    exec (.rxTimed d) s = .next { s with
      ctl := .idle, results := s.results ++ [.timed false],
      trace := s.trace ++ [.now (s.env.clock + x), .now (s.env.clock + x + y)],
      env := { s.env with clock := s.env.clock + x + y, ticks := ts } }

/-- R153 (c), R154 (with the choice D24, and D11 and D17 for each poll): with the line deasserted RX_TIMED spins, one
clock read and one poll at a time, until the elapsed time exceeds the deadline; the result is then false and only the
outcome has been discarded. That the spin ends in the one step is log 1. -/
def Obligations.TimedReceiveSpinsUntilTheDeadline : Prop :=
  ∀ s (d : Int) (x last : Nat) (us ts : List Nat), 0 < d → s.env.peer = .queue [] →
    s.env.ticks = x :: (us ++ last :: ts) → (us.sum : Int) ≤ d → d < ((us.sum + last : Nat) : Int) → us ≠ [] →
    ∃ t, exec (.rxTimed d) s = .next t ∧
      t.ctl = .idle ∧ t.results = s.results ++ [.timed false] ∧ t.rx = { s.rx with outcome := .pending } ∧
      t.bk = s.bk ∧ t.tx = s.tx ∧ t.env = { s.env with clock := s.env.clock + x + us.sum + last, ticks := ts } ∧
      t.trace = s.trace ++ [.now (s.env.clock + x)] ++
        ((List.range us.length).flatMap fun k =>
          [.now (s.env.clock + x + (us.take (k + 1)).sum), .sig false]) ++
        [.now (s.env.clock + x + us.sum + last)]

/-- R150 (with its choice D24) whatever the environment answers: RX_TIMED presents one boolean when it ends and none
before; true only with the outcome AVAILABLE, and false with AVAILABLE only if no poll was made (R153 (a)); it leaves
the transmitter's side alone. -/
def Obligations.TimedReceiveResultMeansAvailable : Prop :=
  ∀ s (d : Int), s.ctl = .idle → ∃ t, exec (.rxTimed d) s = .next t ∧ t.bk = s.bk ∧ t.tx = s.tx ∧
    ((t.ctl ≠ .idle ∧ t.results = s.results) ∨
     (t.ctl = .idle ∧ ∃ ok, t.results = s.results ++ [.timed ok] ∧
      (ok = true → t.rx.outcome = .available) ∧ (ok = false → t.rx.outcome = .available → t.rx = s.rx)))

/-! ### The transmitter and the backup buffer -/

/-- R163 (with its choice D20): one signal read, then one exchange; the returned byte is appended to the backup buffer
exactly when the line was asserted; nothing else of the block changes. -/
def Obligations.EmitCapturesUnderContention : Prop :=
  ∀ b s, ∃ r, r = exchangeAnswer (afterSignal s.env) ∧
    exec (.txEmit b) s = .next { s with
      bk := if signalAnswer s.env = true ∧ s.bk.count < s.cfg.mfs
        then { data := Mem.write s.bk.data s.bk.count r, count := s.bk.count + 1 } else s.bk,
      trace := s.trace ++ [.sig (signalAnswer s.env), .xchg b r],
      env := afterExchange (afterSignal s.env) }

/-- R161 to R164, R166, R169 (with the choices D18, D19, D20, D21): every TX_FRAME within its precondition, whatever the
environment answers. Its events are the START_BYTE exchange without a signal read, then `n + 5` emissions, then the
drain; the bytes captured are those answered with the line asserted, in order, and then the drained ones; the drain goes
on while the line is asserted and there is room. Against `QueuePeer(q)` all of `q` past its first byte is captured in
order until the buffer is full; and so for a script whose line is deasserted after the frame. -/
def Obligations.TransmitEventsAndCaptures : Prop :=
  ∀ apiId frameId payload s, LengthFits payload →
    (∃ (t : State) (answers : List (Bool × Byte)) (drained : List Byte) (e : Env),
      exec (.txFrame apiId frameId payload) s = .next t ∧
      answers = pairAnswers (payload.length + 5) (afterExchange s.env) ∧
      e = afterPairs (payload.length + 5) (afterExchange s.env) ∧
      pairAnswers drained.length e = drained.map (true, ·) ∧
      drained.length ≤ s.cfg.mfs - (appendAll s.cfg (captured answers) s.bk).count ∧
      (signalAnswer (afterPairs drained.length e) = true → s.cfg.mfs ≤ t.bk.count) ∧
      t = { s with
        bk := appendAll s.cfg (captured answers ++ drained) s.bk,
        tx := { sum := byteSum (apiId :: frameId :: payload) },
        trace := s.trace ++ [.xchg s.cfg.startByte (exchangeAnswer s.env)] ++
          emissions (frameBytes s.cfg.startByte apiId frameId payload).tail answers ++
          pulls s.cfg.fillerByte drained ++ [.sig (signalAnswer (afterPairs drained.length e))],
        env := afterSignal (afterPairs drained.length e) } ∧
      t.env.host = s.env.host ∧ t.env.clock = s.env.clock ∧ t.env.ticks = s.env.ticks) ∧
    (∀ q, s.env.peer = .queue q → ∃ t, exec (.txFrame apiId frameId payload) s = .next t ∧
      t.bk = appendAll s.cfg q.tail s.bk ∧
      t.env = { s.env with peer := .queue (q.drop (payload.length + 6 +
        (s.cfg.mfs - (appendAll s.cfg (q.tail.take (payload.length + 5)) s.bk).count))) }) ∧
    (∀ vs r0 rs, s.env.peer = .script (vs ++ [false]) (r0 :: rs) → vs.length = payload.length + 5 →
      rs.length = payload.length + 5 → ∃ t, exec (.txFrame apiId frameId payload) s = .next t ∧
      t.bk = appendAll s.cfg (captured (vs.zip rs)) s.bk ∧ t.env = { s.env with peer := .script [] [] } ∧
      t.trace = s.trace ++ [.xchg s.cfg.startByte r0] ++
        emissions (frameBytes s.cfg.startByte apiId frameId payload).tail (vs.zip rs) ++ [.sig false])

/-- R165, which the spec derives from R161 and R164: the bytes of the frame part depend on the operands only; after
them only FILLER_BYTE is sent. -/
def Obligations.BytesSentDependOnTheOperandsOnly : Prop :=
  ∀ apiId frameId payload s, LengthFits payload → ∃ t k, exec (.txFrame apiId frameId payload) s = .next t ∧
    sentBytes (newEvents s t) =
      [s.cfg.startByte, BitVec.ofNat 8 ((payload.length + 2) / 256), BitVec.ofNat 8 ((payload.length + 2) % 256),
        apiId, frameId] ++ payload ++
      [BitVec.ofNat 8 (255 - ((apiId :: frameId :: payload).map BitVec.toNat).sum % 256)] ++
      List.replicate k s.cfg.fillerByte

/-- R166 (with its choice D21): TX_DRAIN pulls and captures what the environment answers for as long as the line is
asserted and the buffer has room, the line tested first; at most `MFS - bk.count` exchanges; nothing else changes.
Against `QueuePeer(q)` it captures the first `MFS - bk.count` bytes of `q` and leaves the rest queued. -/
def Obligations.DrainStopsOnLineOrFullBuffer : Prop :=
  (∀ s, ∃ (t : State) (drained : List Byte) (e : Env), exec .txDrain s = .next t ∧
    e = afterPairs drained.length s.env ∧ pairAnswers drained.length s.env = drained.map (true, ·) ∧
    drained.length ≤ s.cfg.mfs - s.bk.count ∧ (signalAnswer e = true → s.cfg.mfs ≤ t.bk.count) ∧
    t = { s with bk := appendAll s.cfg drained s.bk, env := afterSignal e,
                 trace := s.trace ++ pulls s.cfg.fillerByte drained ++ [.sig (signalAnswer e)] } ∧
    t.env.host = s.env.host ∧ t.env.clock = s.env.clock ∧ t.env.ticks = s.env.ticks) ∧
  (∀ s q room, s.env.peer = .queue q → room = s.cfg.mfs - s.bk.count → exec .txDrain s = .next { s with
    bk := appendAll s.cfg (q.take room) s.bk, env := { s.env with peer := .queue (q.drop room) },
    trace := s.trace ++ pulls s.cfg.fillerByte (q.take room) ++ [.sig (!(q.drop room).isEmpty)] })

/-- R180: a byte with room is stored at the cursor, which advances; once full nothing changes. -/
def Obligations.AppendStoresAtTheCursorUntilFull : Prop :=
  ∀ b s,
    (s.bk.count < s.cfg.mfs → ∃ t, exec (.bkAppend b) s = .next t ∧
      t = { s with bk := { s.bk with data := t.bk.data, count := s.bk.count + 1 } } ∧
      Mem.read t.bk.data s.bk.count = some b ∧
      ∀ i, i ≠ s.bk.count → Mem.read t.bk.data i = Mem.read s.bk.data i) ∧
    (s.cfg.mfs ≤ s.bk.count → exec (.bkAppend b) s = .next s)

/-- R181: the cursor becomes 0 and the cells keep their bytes (the spec's own choice, D27). -/
def Obligations.BkResetClearsOnlyTheCursor : Prop :=
  ∀ s, exec .bkReset s = .next { s with bk := { s.bk with count := 0 } }

/-- R182: BK_READ presents the count and the cells below it, and changes nothing else (the spec's own choice, D27). -/
def Obligations.BkReadPresentsTheCaptures : Prop :=
  ∀ s, s.bk.count ≤ s.cfg.mfs → ∃ p : List Byte,
    exec .bkRead s = .next { s with results := s.results ++ [.bkRead { count := s.bk.count, data := p }] } ∧
    p.length = s.bk.count ∧ ∀ i b, i < s.bk.count → Mem.read s.bk.data i = some b → p[i]? = some b

/-- R183: nothing but BK_RESET lowers the cursor or changes a captured cell; RX_RESET, RX_POLL and RX_TIMED do not
touch the buffer. -/
def Obligations.OnlyBkResetEmptiesTheBuffer : Prop :=
  ∀ i s t, i ≠ .bkReset → exec i s = .next t →
    (s.bk.count ≤ t.bk.count ∧ ∀ k, k < s.bk.count → Mem.read t.bk.data k = Mem.read s.bk.data k) ∧
    (i = .rxReset ∨ i = .rxPoll ∨ (∃ d, i = .rxTimed d) → t.bk = s.bk)

/-- R100 with R137: a receivable frame sent and received back, by a receiver at a frame start. The peer of before
stands again (log 13). The events are those of the choices D16, D17, D19, D20 and D21, and the poll's end in the one
step is log 1. -/
def Obligations.LoopbackReturnsTheFrame : Prop :=
  ∀ apiId frameId payload s, AtFrameStart s.rx → Receivable s.cfg apiId frameId payload →
    ∃ (t : State) (wire : List Byte), wire = frameBytes s.cfg.startByte apiId frameId payload ∧
      exec (.loopback apiId frameId payload) s = .next t ∧ Received t.rx apiId frameId payload ∧
      t = { s with rx := t.rx, tx := { sum := byteSum (apiId :: frameId :: payload) }, ctl := .idle,
                   trace := s.trace ++ [.xchg s.cfg.startByte 0] ++
                     emissions wire.tail (wire.tail.map fun _ => (false, 0)) ++ [.sig false] ++
                     pulls s.cfg.fillerByte wire }

/-- R100 in every state: LOOPBACK is TX_FRAME against `QueuePeer([])`, then RX_POLL against the bytes it sent; it
touches no captured byte (log 13). -/
def Obligations.LoopbackIsTransmitThenPoll : Prop :=
  ∀ apiId frameId payload s, LengthFits payload → ∃ u v,
    exec (.txFrame apiId frameId payload) { s with env := { s.env with peer := .queue [] } } = .next u ∧
    u.bk = s.bk ∧ u.rx = s.rx ∧
    exec .rxPoll { u with env := { u.env with
      peer := .queue (frameBytes s.cfg.startByte apiId frameId payload) } } = .next v ∧
    exec (.loopback apiId frameId payload) s = .next { v with env := { v.env with peer := s.env.peer } }

/-! ### Whole-machine rules -/

/-- Where an operation that has an effect elsewhere stops: a length that does not fit (R160, the spec's own choice
D22; log 9), and a read of a cell that does not exist (R14; log 7; no reachable state has one). -/
def Obligations.OverlongOperandsAndAbsentCellsStop : Prop :=
  (∀ apiId frameId payload s, ¬ LengthFits payload →
    exec (.txFrame apiId frameId payload) s = .refused .payloadTooLong ∧
    exec (.frame apiId frameId payload) s = .refused .payloadTooLong ∧
    exec (.loopback apiId frameId payload) s = .refused .payloadTooLong) ∧
  (∀ s, s.cfg.cap < s.rx.recLen → exec .rxRead s = .fault .payOutOfRange) ∧
  (∀ s, s.cfg.mfs < s.bk.count → exec .bkRead s = .fault .bkpOutOfRange)

/-- R20's "written by" column, R35 I8, R116, R168: an operation that is not named as a writer leaves the record alone,
registers and cells; only the operations with environment calls in their rules change the trace or the environment;
only RX_TIMED, RX_READ and BK_READ present anything; only CK_VALID and CK_COMPUTE write the model's field `micro` (log 10);
no operation writes the configuration or takes a command. -/
def Obligations.OnlyTheNamedOperationsWrite : Prop :=
  ∀ i s t, exec i s = .next t →
    (writesRx i = false → t.rx = s.rx) ∧ (writesTx i = false → t.tx = s.tx) ∧ (writesBk i = false → t.bk = s.bk) ∧
    (callsEnvironment i = false → t.trace = s.trace ∧ t.env = s.env ∧ t.ctl = s.ctl) ∧
    (presents i = false → t.results = s.results) ∧ (writesMicro i = false → t.micro = s.micro) ∧
    t.cfg = s.cfg ∧ t.env.host = s.env.host

/-- R151 (with its choice D24) and R11: the clock never goes back, and what has been recorded or presented stays (the
logs are the model's, log 16; the clock's form is log 17). -/
def Obligations.ClockAndLogsOnlyAdvance : Prop :=
  ∀ s t, step s = .next t → s.env.clock ≤ t.env.clock ∧ s.trace <+: t.trace ∧ s.results <+: t.results ∧ t.cfg = s.cfg

/-- R191: the status codes, the spec's own choice (D7). -/
def Obligations.OutcomeCodesAreDistinct : Prop :=
  outcomeCode .pending = 0 ∧ outcomeCode (.error .checksumFailure) = 1 ∧
  outcomeCode (.error .packetExceedsCapacity) = 2 ∧ outcomeCode (.error .unexpectedStartByte) = 3 ∧
  outcomeCode .available = 4 ∧ (∀ o, (outcomeCode o).toNat < 5) ∧ ∀ o o', outcomeCode o = outcomeCode o' → o = o'

/-- R35, which the spec derives, at hardware reset; the clauses on the operation in progress are the model's (log 1).
-/
def Obligations.InvariantsHoldAtReset : Prop := BlockInv State.reset

/-- R35, which the spec derives: I1 to I7, and the canonical form of the memories, are kept by every step, from every
state that has them. -/
def Obligations.EveryStepKeepsTheInvariants : Prop :=
  ∀ s t, BlockInv s → step s = .next t → BlockInv t

/-- A host within its contract never meets a fault or a refusal (70 R230, R97): from a state with the invariants every
step answers, and the host stays within its contract. -/
def Obligations.AHostWithinItsContractNeverStopsTheBlock : Prop :=
  ∀ s, BlockInv s → HostWithinContract s → ∃ t, step s = .next t ∧ HostWithinContract t

/-- R36: two states that differ only in `tx.sum`, in the PAY cells outside the recorded frame and the frame in progress,
and in the BKP cells at or above the cursor step alike: what the block presents and calls does not depend on these. The
position and `rx.sum`, which the host cannot read either, are equal in the two states, since later outcomes depend on
them. -/
def Obligations.HiddenStateNeverShows : Prop :=
  ∀ s s', AlikeToTheHost s s' →
    (∃ t t', step s = .next t ∧ step s' = .next t' ∧ AlikeToTheHost t t') ∨
    (∃ r, step s = .fault r ∧ step s' = .fault r) ∨ (∃ r, step s = .refused r ∧ step s' = .refused r)
end

