-- ==== Sys2Proof/Laws/Memory.lean ====
section
/-! SUPPORT. The laws of the two byte memories: a read after a write, and that a write keeps the canonical form. -/

namespace Sys2Proof.Machine

@[simp] theorem Mem.read_empty (i : Nat) : Mem.read [] i = none := rfl

theorem Mem.read_write (m : Mem) (i j : Nat) (b : Byte) :
    Mem.read (Mem.write m i b) j = if j = i then some b else Mem.read m j := by
  induction m with
  | nil => by_cases h : i = j <;> simp [Mem.write, Mem.read, Mem.unlisted, h, eq_comm]
  | cons c m ih =>
    unfold Mem.write
    split
    · by_cases h : i = j <;> simp [Mem.read, h, eq_comm]
    · split
      · subst i
        by_cases h : c.1 = j
        · simp [Mem.read, h]
        · simp [Mem.read, h, Ne.symm h]
      · simp only [Mem.read, ih]
        by_cases h : c.1 = j
        · have : ¬ j = i := by omega
          simp [h, this]
        · simp [h]

@[simp] theorem Mem.read_write_same (m : Mem) (i : Nat) (b : Byte) : Mem.read (Mem.write m i b) i = some b := by
  simp [Mem.read_write]

theorem Mem.read_write_other (m : Mem) {i j : Nat} (b : Byte) (h : j ≠ i) :
    Mem.read (Mem.write m i b) j = Mem.read m j := by
  simp [Mem.read_write, h]

theorem Mem.risingFrom_write {m : Mem} {low i : Nat} (b : Byte) (hl : low ≤ i) (h : Mem.risingFrom low m = true) :
    Mem.risingFrom low (Mem.write m i b) = true := by
  induction m generalizing low with
  | nil => simp [Mem.write, Mem.risingFrom, hl]
  | cons c m ih =>
    simp only [Mem.risingFrom, Bool.and_eq_true, decide_eq_true_eq] at h
    unfold Mem.write
    split
    · simp only [Mem.risingFrom, Bool.and_eq_true, decide_eq_true_eq]
      exact ⟨hl, by omega, h.2⟩
    · split
      · subst i
        simp [Mem.risingFrom, h]
      · simp only [Mem.risingFrom, Bool.and_eq_true, decide_eq_true_eq]
        exact ⟨h.1, ih (by omega) h.2⟩

/-- The only operation that changes a memory keeps its canonical form. -/
theorem Mem.wf_write {m : Mem} (i : Nat) (b : Byte) (h : Mem.wf m = true) : Mem.wf (Mem.write m i b) = true :=
  Mem.risingFrom_write b (Nat.zero_le i) h

theorem Mem.wf_empty : Mem.wf [] = true := rfl

/-- Below the first listed cell nothing is written. -/
theorem Mem.read_below {m : Mem} {low j : Nat} (h : Mem.risingFrom low m = true) (hj : j < low) : Mem.read m j = none := by
  induction m generalizing low with
  | nil => rfl
  | cons c m ih =>
    simp only [Mem.risingFrom, Bool.and_eq_true, decide_eq_true_eq] at h
    have hc : ¬ c.1 = j := by omega
    simp [Mem.read, hc, ih h.2 (by omega)]

theorem Mem.eq_of_risingFrom {m m' : Mem} {low : Nat} (h : Mem.risingFrom low m = true)
    (h' : Mem.risingFrom low m' = true) (hr : ∀ i, Mem.read m i = Mem.read m' i) : m = m' := by
  induction m generalizing low m' with
  | nil =>
    cases m' with
    | nil => rfl
    | cons c' m' => have := hr c'.1; simp [Mem.read, Mem.unlisted] at this
  | cons c m ih =>
    simp only [Mem.risingFrom, Bool.and_eq_true, decide_eq_true_eq] at h
    cases m' with
    | nil => have := hr c.1; simp [Mem.read, Mem.unlisted] at this
    | cons c' m' =>
      simp only [Mem.risingFrom, Bool.and_eq_true, decide_eq_true_eq] at h'
      have h1 := hr c.1
      have h2 := hr c'.1
      simp only [Mem.read, if_true] at h1 h2
      have hc : c.1 = c'.1 := by
        by_contra hne
        rw [if_neg (Ne.symm hne)] at h1
        rw [if_neg hne] at h2
        rcases Nat.lt_or_gt_of_ne hne with hlt | hgt
        · rw [Mem.read_below h'.2 (by omega)] at h1
          simp at h1
        · rw [Mem.read_below h.2 (by omega)] at h2
          simp at h2
      rw [if_pos hc.symm] at h1
      have hcc : c = c' := Prod.ext hc (by simpa using h1)
      subst hcc
      congr 1
      refine ih h.2 h'.2 fun j => ?_
      have hj := hr j
      simp only [Mem.read] at hj
      by_cases hjc : c.1 = j
      · rw [Mem.read_below h.2 (by omega), Mem.read_below h'.2 (by omega)]
      · simpa [hjc] using hj

/-- Two memories in canonical form that read alike are the same data. -/
theorem Mem.eq_of_read {m m' : Mem} (h : Mem.wf m = true) (h' : Mem.wf m' = true)
    (hr : ∀ i, Mem.read m i = Mem.read m' i) : m = m' :=
  Mem.eq_of_risingFrom h h' hr

/-- The cells below an index that a write does not reach read as before. -/
theorem payCells_write_above {r : Rx} {n i : Nat} (b : Byte) (h : n ≤ i) :
    payCells { r with payload := Mem.write r.payload i b } n = payCells r n := by
  refine List.map_congr_left fun j hj => ?_
  have : j ≠ i := by have := List.mem_range.mp hj; omega
  simp [payRead, Mem.read_write_other _ _ this]

/-- One more cell of PAY. -/
theorem payCells_succ (r : Rx) (n : Nat) : payCells r (n + 1) = payCells r n ++ [payRead r n] := by
  simp [payCells, List.range_succ]

theorem bkpCells_succ (k : Bk) (n : Nat) : bkpCells k (n + 1) = bkpCells k n ++ [bkpRead k n] := by
  simp [bkpCells, List.range_succ]

@[simp] theorem payCells_length (r : Rx) (n : Nat) : (payCells r n).length = n := by simp [payCells]

@[simp] theorem bkpCells_length (k : Bk) (n : Nat) : (bkpCells k n).length = n := by simp [bkpCells]

end Sys2Proof.Machine
end

