-- ==== Sys2Proof/Laws/State.lean ====
section
/-! SUPPORT. One lemma for each field under each named update of Machine/Ops.lean. -/

namespace Sys2Proof.Machine

@[simp] theorem withRx_cfg (r : Rx) (s : State) : (withRx r s).cfg = s.cfg := rfl
@[simp] theorem withRx_rx (r : Rx) (s : State) : (withRx r s).rx = r := rfl
@[simp] theorem withRx_bk (r : Rx) (s : State) : (withRx r s).bk = s.bk := rfl
@[simp] theorem withRx_tx (r : Rx) (s : State) : (withRx r s).tx = s.tx := rfl
@[simp] theorem withRx_ctl (r : Rx) (s : State) : (withRx r s).ctl = s.ctl := rfl
@[simp] theorem withRx_results (r : Rx) (s : State) : (withRx r s).results = s.results := rfl
@[simp] theorem withRx_micro (r : Rx) (s : State) : (withRx r s).micro = s.micro := rfl
@[simp] theorem withRx_trace (r : Rx) (s : State) : (withRx r s).trace = s.trace := rfl
@[simp] theorem withRx_env (r : Rx) (s : State) : (withRx r s).env = s.env := rfl

@[simp] theorem withBk_cfg (k : Bk) (s : State) : (withBk k s).cfg = s.cfg := rfl
@[simp] theorem withBk_rx (k : Bk) (s : State) : (withBk k s).rx = s.rx := rfl
@[simp] theorem withBk_bk (k : Bk) (s : State) : (withBk k s).bk = k := rfl
@[simp] theorem withBk_tx (k : Bk) (s : State) : (withBk k s).tx = s.tx := rfl
@[simp] theorem withBk_ctl (k : Bk) (s : State) : (withBk k s).ctl = s.ctl := rfl
@[simp] theorem withBk_results (k : Bk) (s : State) : (withBk k s).results = s.results := rfl
@[simp] theorem withBk_micro (k : Bk) (s : State) : (withBk k s).micro = s.micro := rfl
@[simp] theorem withBk_trace (k : Bk) (s : State) : (withBk k s).trace = s.trace := rfl
@[simp] theorem withBk_env (k : Bk) (s : State) : (withBk k s).env = s.env := rfl

@[simp] theorem withCtl_cfg (c : Control) (s : State) : (withCtl c s).cfg = s.cfg := rfl
@[simp] theorem withCtl_rx (c : Control) (s : State) : (withCtl c s).rx = s.rx := rfl
@[simp] theorem withCtl_bk (c : Control) (s : State) : (withCtl c s).bk = s.bk := rfl
@[simp] theorem withCtl_tx (c : Control) (s : State) : (withCtl c s).tx = s.tx := rfl
@[simp] theorem withCtl_ctl (c : Control) (s : State) : (withCtl c s).ctl = c := rfl
@[simp] theorem withCtl_results (c : Control) (s : State) : (withCtl c s).results = s.results := rfl
@[simp] theorem withCtl_micro (c : Control) (s : State) : (withCtl c s).micro = s.micro := rfl
@[simp] theorem withCtl_trace (c : Control) (s : State) : (withCtl c s).trace = s.trace := rfl
@[simp] theorem withCtl_env (c : Control) (s : State) : (withCtl c s).env = s.env := rfl

@[simp] theorem withPeer_cfg (p : Peer) (s : State) : (withPeer p s).cfg = s.cfg := rfl
@[simp] theorem withPeer_rx (p : Peer) (s : State) : (withPeer p s).rx = s.rx := rfl
@[simp] theorem withPeer_bk (p : Peer) (s : State) : (withPeer p s).bk = s.bk := rfl
@[simp] theorem withPeer_tx (p : Peer) (s : State) : (withPeer p s).tx = s.tx := rfl
@[simp] theorem withPeer_ctl (p : Peer) (s : State) : (withPeer p s).ctl = s.ctl := rfl
@[simp] theorem withPeer_results (p : Peer) (s : State) : (withPeer p s).results = s.results := rfl
@[simp] theorem withPeer_micro (p : Peer) (s : State) : (withPeer p s).micro = s.micro := rfl
@[simp] theorem withPeer_trace (p : Peer) (s : State) : (withPeer p s).trace = s.trace := rfl
@[simp] theorem withPeer_env (p : Peer) (s : State) : (withPeer p s).env = { s.env with peer := p } := rfl

@[simp] theorem withHost_cfg (cs : List Command) (s : State) : (withHost cs s).cfg = s.cfg := rfl
@[simp] theorem withHost_rx (cs : List Command) (s : State) : (withHost cs s).rx = s.rx := rfl
@[simp] theorem withHost_bk (cs : List Command) (s : State) : (withHost cs s).bk = s.bk := rfl
@[simp] theorem withHost_tx (cs : List Command) (s : State) : (withHost cs s).tx = s.tx := rfl
@[simp] theorem withHost_ctl (cs : List Command) (s : State) : (withHost cs s).ctl = s.ctl := rfl
@[simp] theorem withHost_results (cs : List Command) (s : State) : (withHost cs s).results = s.results := rfl
@[simp] theorem withHost_micro (cs : List Command) (s : State) : (withHost cs s).micro = s.micro := rfl
@[simp] theorem withHost_trace (cs : List Command) (s : State) : (withHost cs s).trace = s.trace := rfl
@[simp] theorem withHost_env (cs : List Command) (s : State) : (withHost cs s).env = { s.env with host := cs } := rfl

@[simp] theorem present_cfg (r : Result) (s : State) : (present r s).cfg = s.cfg := rfl
@[simp] theorem present_rx (r : Result) (s : State) : (present r s).rx = s.rx := rfl
@[simp] theorem present_bk (r : Result) (s : State) : (present r s).bk = s.bk := rfl
@[simp] theorem present_tx (r : Result) (s : State) : (present r s).tx = s.tx := rfl
@[simp] theorem present_ctl (r : Result) (s : State) : (present r s).ctl = s.ctl := rfl
@[simp] theorem present_results (r : Result) (s : State) : (present r s).results = s.results ++ [r] := rfl
@[simp] theorem present_micro (r : Result) (s : State) : (present r s).micro = s.micro := rfl
@[simp] theorem present_trace (r : Result) (s : State) : (present r s).trace = s.trace := rfl
@[simp] theorem present_env (r : Result) (s : State) : (present r s).env = s.env := rfl

@[simp] theorem withMicro_cfg (v : MicroValue) (s : State) : (withMicro v s).cfg = s.cfg := rfl
@[simp] theorem withMicro_rx (v : MicroValue) (s : State) : (withMicro v s).rx = s.rx := rfl
@[simp] theorem withMicro_bk (v : MicroValue) (s : State) : (withMicro v s).bk = s.bk := rfl
@[simp] theorem withMicro_tx (v : MicroValue) (s : State) : (withMicro v s).tx = s.tx := rfl
@[simp] theorem withMicro_ctl (v : MicroValue) (s : State) : (withMicro v s).ctl = s.ctl := rfl
@[simp] theorem withMicro_results (v : MicroValue) (s : State) : (withMicro v s).results = s.results := rfl
@[simp] theorem withMicro_micro (v : MicroValue) (s : State) : (withMicro v s).micro = v := rfl
@[simp] theorem withMicro_trace (v : MicroValue) (s : State) : (withMicro v s).trace = s.trace := rfl
@[simp] theorem withMicro_env (v : MicroValue) (s : State) : (withMicro v s).env = s.env := rfl

@[simp] theorem readSignal_cfg (s : State) : (readSignal s).cfg = s.cfg := rfl
@[simp] theorem readSignal_rx (s : State) : (readSignal s).rx = s.rx := rfl
@[simp] theorem readSignal_bk (s : State) : (readSignal s).bk = s.bk := rfl
@[simp] theorem readSignal_tx (s : State) : (readSignal s).tx = s.tx := rfl
@[simp] theorem readSignal_ctl (s : State) : (readSignal s).ctl = s.ctl := rfl
@[simp] theorem readSignal_results (s : State) : (readSignal s).results = s.results := rfl
@[simp] theorem readSignal_micro (s : State) : (readSignal s).micro = s.micro := rfl
@[simp] theorem readSignal_trace (s : State) : (readSignal s).trace = s.trace ++ [.sig (signalAnswer s.env)] := rfl
@[simp] theorem readSignal_env (s : State) : (readSignal s).env = afterSignal s.env := rfl

@[simp] theorem exchange_cfg (out : Byte) (s : State) : (exchange out s).cfg = s.cfg := rfl
@[simp] theorem exchange_rx (out : Byte) (s : State) : (exchange out s).rx = s.rx := rfl
@[simp] theorem exchange_bk (out : Byte) (s : State) : (exchange out s).bk = s.bk := rfl
@[simp] theorem exchange_tx (out : Byte) (s : State) : (exchange out s).tx = s.tx := rfl
@[simp] theorem exchange_ctl (out : Byte) (s : State) : (exchange out s).ctl = s.ctl := rfl
@[simp] theorem exchange_results (out : Byte) (s : State) : (exchange out s).results = s.results := rfl
@[simp] theorem exchange_micro (out : Byte) (s : State) : (exchange out s).micro = s.micro := rfl
@[simp] theorem exchange_trace (out : Byte) (s : State) : (exchange out s).trace = s.trace ++ [.xchg out (exchangeAnswer s.env)] := rfl
@[simp] theorem exchange_env (out : Byte) (s : State) : (exchange out s).env = afterExchange s.env := rfl

@[simp] theorem readClock_cfg (s : State) : (readClock s).cfg = s.cfg := rfl
@[simp] theorem readClock_rx (s : State) : (readClock s).rx = s.rx := rfl
@[simp] theorem readClock_bk (s : State) : (readClock s).bk = s.bk := rfl
@[simp] theorem readClock_tx (s : State) : (readClock s).tx = s.tx := rfl
@[simp] theorem readClock_ctl (s : State) : (readClock s).ctl = s.ctl := rfl
@[simp] theorem readClock_results (s : State) : (readClock s).results = s.results := rfl
@[simp] theorem readClock_micro (s : State) : (readClock s).micro = s.micro := rfl
@[simp] theorem readClock_trace (s : State) : (readClock s).trace = s.trace ++ [.now (clockAnswer s.env)] := rfl
@[simp] theorem readClock_env (s : State) : (readClock s).env = afterClock s.env := rfl

@[simp] theorem setAcc_cfg (a : Acc) (v : Byte) (s : State) : (setAcc a v s).cfg = s.cfg := by cases a <;> rfl
@[simp] theorem setAcc_bk (a : Acc) (v : Byte) (s : State) : (setAcc a v s).bk = s.bk := by cases a <;> rfl
@[simp] theorem setAcc_ctl (a : Acc) (v : Byte) (s : State) : (setAcc a v s).ctl = s.ctl := by cases a <;> rfl
@[simp] theorem setAcc_results (a : Acc) (v : Byte) (s : State) : (setAcc a v s).results = s.results := by cases a <;> rfl
@[simp] theorem setAcc_micro (a : Acc) (v : Byte) (s : State) : (setAcc a v s).micro = s.micro := by cases a <;> rfl
@[simp] theorem setAcc_trace (a : Acc) (v : Byte) (s : State) : (setAcc a v s).trace = s.trace := by cases a <;> rfl
@[simp] theorem setAcc_env (a : Acc) (v : Byte) (s : State) : (setAcc a v s).env = s.env := by cases a <;> rfl
@[simp] theorem setAcc_rx_rx (v : Byte) (s : State) : (setAcc .rx v s).rx = { s.rx with sum := v } := rfl
@[simp] theorem setAcc_tx_rx (v : Byte) (s : State) : (setAcc .tx v s).rx = s.rx := rfl
@[simp] theorem setAcc_rx_tx (v : Byte) (s : State) : (setAcc .rx v s).tx = s.tx := rfl
@[simp] theorem setAcc_tx_tx (v : Byte) (s : State) : (setAcc .tx v s).tx = { s.tx with sum := v } := rfl
@[simp] theorem accValue_setAcc (a : Acc) (v : Byte) (s : State) : accValue a (setAcc a v s) = v := by cases a <;> rfl

end Sys2Proof.Machine
end

