-- ==== Sys2Proof/Laws/Receiver.lean ====
section
/-! SUPPORT. RX_BYTE: what it leaves alone, one lemma for each of its cases, and everything it can do. -/

namespace Sys2Proof.Machine

@[simp] theorem rxByte_rx (b : Byte) (s : State) : (rxByte b s).rx = stepByte s.cfg b s.rx := rfl
@[simp] theorem rxByte_cfg (b : Byte) (s : State) : (rxByte b s).cfg = s.cfg := rfl
@[simp] theorem rxByte_bk (b : Byte) (s : State) : (rxByte b s).bk = s.bk := rfl
@[simp] theorem rxByte_tx (b : Byte) (s : State) : (rxByte b s).tx = s.tx := rfl
@[simp] theorem rxByte_ctl (b : Byte) (s : State) : (rxByte b s).ctl = s.ctl := rfl
@[simp] theorem rxByte_results (b : Byte) (s : State) : (rxByte b s).results = s.results := rfl
@[simp] theorem rxByte_micro (b : Byte) (s : State) : (rxByte b s).micro = s.micro := rfl
@[simp] theorem rxByte_trace (b : Byte) (s : State) : (rxByte b s).trace = s.trace := rfl
@[simp] theorem rxByte_env (b : Byte) (s : State) : (rxByte b s).env = s.env := rfl

@[simp] theorem discardOutcome_outcome (r : Rx) : (discardOutcome r).outcome = .pending := by
  unfold discardOutcome; split <;> simp_all
@[simp] theorem discardOutcome_position (r : Rx) : (discardOutcome r).position = r.position := by
  unfold discardOutcome; split <;> rfl
@[simp] theorem discardOutcome_lengthMsb (r : Rx) : (discardOutcome r).lengthMsb = r.lengthMsb := by
  unfold discardOutcome; split <;> rfl
@[simp] theorem discardOutcome_lengthLsb (r : Rx) : (discardOutcome r).lengthLsb = r.lengthLsb := by
  unfold discardOutcome; split <;> rfl
@[simp] theorem discardOutcome_apiId (r : Rx) : (discardOutcome r).apiId = r.apiId := by
  unfold discardOutcome; split <;> rfl
@[simp] theorem discardOutcome_recLen (r : Rx) : (discardOutcome r).recLen = r.recLen := by
  unfold discardOutcome; split <;> rfl
@[simp] theorem discardOutcome_payload (r : Rx) : (discardOutcome r).payload = r.payload := by
  unfold discardOutcome; split <;> rfl
@[simp] theorem discardOutcome_sum (r : Rx) : (discardOutcome r).sum = r.sum := by
  unfold discardOutcome; split <;> rfl

theorem discardOutcome_eq (r : Rx) : discardOutcome r = { r with outcome := .pending } := by
  unfold discardOutcome
  split
  · rfl
  · rename_i h
    rw [ne_eq, not_not] at h
    cases r
    simp_all

theorem discardOutcome_of_pending {r : Rx} (h : r.outcome = .pending) : discardOutcome r = r := by
  simp [discardOutcome, h]

section cases
variable {cfg : Cfg} {b : Byte} {r : Rx}

/-- Edge rule 1 (R123). -/
theorem stepByte_restart (hp : 0 < r.position) (hb : b = cfg.startByte) :
    stepByte cfg b r = raiseError .unexpectedStartByte r := by
  simp [stepByte, hp, hb]

/-- Edge rule 2 (R124). -/
theorem stepByte_overrun (hb : b ≠ cfg.startByte) (hp : cfg.cap < r.position) :
    stepByte cfg b r = raiseError .packetExceedsCapacity r := by
  simp [stepByte, hb, hp]

/-- AWAIT_START, any other byte (R126). -/
theorem stepByte_skip (hp : r.position = 0) (hb : b ≠ cfg.startByte) : stepByte cfg b r = r := by
  simp [stepByte, dispatchByte, feedSum, hp, hb]

/-- AWAIT_START, the delimiter (R126). -/
theorem stepByte_start (hp : r.position = 0) (hb : b = cfg.startByte) :
    stepByte cfg b r = { r with position := 1 } := by
  simp [stepByte, dispatchByte, feedSum, hp, hb]

/-- LENGTH_MSB (R127). -/
theorem stepByte_lenMsb (hb : b ≠ cfg.startByte) (hc : r.position ≤ cfg.cap) (hp : r.position = 1) :
    stepByte cfg b r = { r with lengthMsb := b, position := 2 } := by
  have : ¬ cfg.cap < r.position := by omega
  simp_all [stepByte, dispatchByte, feedSum]

/-- LENGTH_LSB (R128). -/
theorem stepByte_lenLsb (hb : b ≠ cfg.startByte) (hc : r.position ≤ cfg.cap) (hp : r.position = 2) :
    stepByte cfg b r = { r with lengthLsb := b, position := 3 } := by
  have : ¬ cfg.cap < r.position := by omega
  simp_all [stepByte, dispatchByte, feedSum]

/-- API_ID (R129). -/
theorem stepByte_apiId (hb : b ≠ cfg.startByte) (hc : r.position ≤ cfg.cap) (hp : r.position = 3) :
    stepByte cfg b r = { r with sum := sumAdd r.sum b, apiId := b, position := 4 } := by
  have : ¬ cfg.cap < r.position := by omega
  simp_all [stepByte, dispatchByte, feedSum]

/-- PAYLOAD, the terminator (R131). -/
theorem stepByte_terminator (hb : b ≠ cfg.startByte) (hc : r.position ≤ cfg.cap) (h4 : 4 ≤ r.position)
    (hp : r.position = terminatorPosition r) :
    stepByte cfg b r = closeFrame { r with sum := sumAdd r.sum b } := by
  have h1 : ¬ cfg.cap < r.position := by omega
  have h2 : 3 ≤ r.position := by omega
  have h3 : r.position ≠ 0 ∧ r.position ≠ 1 ∧ r.position ≠ 2 ∧ r.position ≠ 3 := by omega
  have h5 : terminatorPosition { r with sum := sumAdd r.sum b } = terminatorPosition r := rfl
  simp only [stepByte, dispatchByte, feedSum, hb, and_false, if_false, h1, h2, if_true, h3.1, h3.2.1, h3.2.2.1,
    h3.2.2.2, h5]
  rw [if_pos hp]

/-- PAYLOAD, a data byte (R130). -/
theorem stepByte_data (hb : b ≠ cfg.startByte) (hc : r.position ≤ cfg.cap) (h4 : 4 ≤ r.position)
    (hp : r.position ≠ terminatorPosition r) :
    stepByte cfg b r = storePayload b { r with sum := sumAdd r.sum b } := by
  have h1 : ¬ cfg.cap < r.position := by omega
  have h2 : 3 ≤ r.position := by omega
  have h3 : r.position ≠ 0 ∧ r.position ≠ 1 ∧ r.position ≠ 2 ∧ r.position ≠ 3 := by omega
  have h5 : terminatorPosition { r with sum := sumAdd r.sum b } = terminatorPosition r := rfl
  simp only [stepByte, dispatchByte, feedSum, hb, and_false, if_false, h1, h2, if_true, h3.1, h3.2.1, h3.2.2.1,
    h3.2.2.2, h5]
  rw [if_neg hp]

theorem closeFrame_valid (h : r.sum = 0xFF) :
    closeFrame r = { r with outcome := .available, recLen := r.position - 4, position := 0, sum := 0 } := by
  simp [closeFrame, sumValid, h, sumClear]

theorem closeFrame_invalid (h : r.sum ≠ 0xFF) :
    closeFrame r = { r with outcome := .error .checksumFailure, position := 0, sum := 0 } := by
  have hv : sumValid r.sum = false := by simpa [sumValid] using h
  simp [closeFrame, hv, sumClear, raiseError]

/-- Everything RX_BYTE can do (R122), guards included. -/
theorem stepByte_cases (cfg : Cfg) (b : Byte) (r : Rx) :
    (0 < r.position ∧ b = cfg.startByte ∧ stepByte cfg b r = raiseError .unexpectedStartByte r) ∨
    (b ≠ cfg.startByte ∧ cfg.cap < r.position ∧ stepByte cfg b r = raiseError .packetExceedsCapacity r) ∨
    (r.position = 0 ∧ b ≠ cfg.startByte ∧ stepByte cfg b r = r) ∨
    (r.position = 0 ∧ b = cfg.startByte ∧ stepByte cfg b r = { r with position := 1 }) ∨
    (b ≠ cfg.startByte ∧ r.position ≤ cfg.cap ∧ r.position = 1 ∧
      stepByte cfg b r = { r with lengthMsb := b, position := 2 }) ∨
    (b ≠ cfg.startByte ∧ r.position ≤ cfg.cap ∧ r.position = 2 ∧
      stepByte cfg b r = { r with lengthLsb := b, position := 3 }) ∨
    (b ≠ cfg.startByte ∧ r.position ≤ cfg.cap ∧ r.position = 3 ∧
      stepByte cfg b r = { r with sum := sumAdd r.sum b, apiId := b, position := 4 }) ∨
    (b ≠ cfg.startByte ∧ r.position ≤ cfg.cap ∧ 4 ≤ r.position ∧ r.position = terminatorPosition r ∧
      sumAdd r.sum b = 0xFF ∧
      stepByte cfg b r = { r with outcome := .available, recLen := r.position - 4, position := 0, sum := 0 }) ∨
    (b ≠ cfg.startByte ∧ r.position ≤ cfg.cap ∧ 4 ≤ r.position ∧ r.position = terminatorPosition r ∧
      sumAdd r.sum b ≠ 0xFF ∧
      stepByte cfg b r = { r with outcome := .error .checksumFailure, position := 0, sum := 0 }) ∨
    (b ≠ cfg.startByte ∧ r.position ≤ cfg.cap ∧ 4 ≤ r.position ∧ r.position ≠ terminatorPosition r ∧
      stepByte cfg b r = { r with sum := sumAdd r.sum b, payload := Mem.write r.payload (r.position - 4) b,
                                  position := r.position + 1 }) := by
  by_cases hb : b = cfg.startByte
  · by_cases hp : r.position = 0
    · exact .inr (.inr (.inr (.inl ⟨hp, hb, stepByte_start hp hb⟩)))
    · exact .inl ⟨by omega, hb, stepByte_restart (by omega) hb⟩
  · by_cases hc : cfg.cap < r.position
    · exact .inr (.inl ⟨hb, hc, stepByte_overrun hb hc⟩)
    · have hc : r.position ≤ cfg.cap := by omega
      rcases (by omega : r.position = 0 ∨ r.position = 1 ∨ r.position = 2 ∨ r.position = 3 ∨ 4 ≤ r.position) with
        h | h | h | h | h
      · exact .inr (.inr (.inl ⟨h, hb, stepByte_skip h hb⟩))
      · exact .inr (.inr (.inr (.inr (.inl ⟨hb, hc, h, stepByte_lenMsb hb hc h⟩))))
      · exact .inr (.inr (.inr (.inr (.inr (.inl ⟨hb, hc, h, stepByte_lenLsb hb hc h⟩)))))
      · exact .inr (.inr (.inr (.inr (.inr (.inr (.inl ⟨hb, hc, h, stepByte_apiId hb hc h⟩))))))
      · by_cases ht : r.position = terminatorPosition r
        · by_cases hv : sumAdd r.sum b = 0xFF
          · refine .inr (.inr (.inr (.inr (.inr (.inr (.inr (.inl ⟨hb, hc, h, ht, hv, ?_⟩)))))))
            rw [stepByte_terminator hb hc h ht, closeFrame_valid hv]
          · refine .inr (.inr (.inr (.inr (.inr (.inr (.inr (.inr (.inl ⟨hb, hc, h, ht, hv, ?_⟩))))))))
            rw [stepByte_terminator hb hc h ht, closeFrame_invalid hv]
        · refine .inr (.inr (.inr (.inr (.inr (.inr (.inr (.inr (.inr ⟨hb, hc, h, ht, ?_⟩))))))))
          rw [stepByte_data hb hc h ht]
          rfl

end cases

/-- Once the outcome is terminal no byte makes it PENDING again; only RX_DISCARD and RX_RESET do (R28). -/
theorem stepByte_terminal {cfg : Cfg} {b : Byte} {r : Rx} (h : r.outcome ≠ .pending) :
    (stepByte cfg b r).outcome ≠ .pending := by
  rcases stepByte_cases cfg b r with ⟨_, _, e⟩ | ⟨_, _, e⟩ | ⟨_, _, e⟩ | ⟨_, _, e⟩ | ⟨_, _, _, e⟩ | ⟨_, _, _, e⟩ |
    ⟨_, _, _, e⟩ | ⟨_, _, _, _, _, e⟩ | ⟨_, _, _, _, _, e⟩ | ⟨_, _, _, _, e⟩ <;> rw [e] <;> simp [raiseError, h]

end Sys2Proof.Machine
end

