-- ==== Sys2Proof/Laws/ByteClass.lean ====
section
/-! SUPPORT. The classification of a byte: its value for each row of the table of 30_encoding.md R90. -/

namespace Sys2Proof.Machine

section
variable {cfg : Cfg} {b : Byte} {r : Rx}

theorem classify_restart (hp : 0 < r.position) (hb : b = cfg.startByte) : classify cfg r b = .restart := by
  simp [classify, hp, hb]

theorem classify_overrun (hb : b ≠ cfg.startByte) (hp : cfg.cap < r.position) : classify cfg r b = .overrun := by
  simp [classify, hb, hp]

theorem classify_skip (hp : r.position = 0) (hb : b ≠ cfg.startByte) : classify cfg r b = .skip := by
  simp [classify, hp, hb]

theorem classify_start (hp : r.position = 0) (hb : b = cfg.startByte) : classify cfg r b = .start := by
  simp [classify, hp, hb]

theorem classify_lenMsb (hb : b ≠ cfg.startByte) (hc : r.position ≤ cfg.cap) (hp : r.position = 1) :
    classify cfg r b = .lenMsb := by
  have h1 : ¬ cfg.cap < r.position := by omega
  rw [hp] at h1
  simp [classify, hb, h1, hp]

theorem classify_lenLsb (hb : b ≠ cfg.startByte) (hc : r.position ≤ cfg.cap) (hp : r.position = 2) :
    classify cfg r b = .lenLsb := by
  have h1 : ¬ cfg.cap < r.position := by omega
  rw [hp] at h1
  simp [classify, hb, h1, hp]

theorem classify_apiId (hb : b ≠ cfg.startByte) (hc : r.position ≤ cfg.cap) (hp : r.position = 3) :
    classify cfg r b = .apiId := by
  have h1 : ¬ cfg.cap < r.position := by omega
  rw [hp] at h1
  simp [classify, hb, h1, hp]

theorem classify_from_four (hb : b ≠ cfg.startByte) (hc : r.position ≤ cfg.cap) (h4 : 4 ≤ r.position) :
    classify cfg r b = if r.position = terminatorPosition r then
      (if sumValid (sumAdd r.sum b) then .termOk else .termBad) else .data := by
  have h1 : ¬ cfg.cap < r.position := by omega
  have h3 : r.position ≠ 0 ∧ r.position ≠ 1 ∧ r.position ≠ 2 ∧ r.position ≠ 3 := by omega
  simp only [classify, hb, and_false, if_false, h1, false_and, h3.1, h3.2.1, h3.2.2.1, h3.2.2.2]

theorem classify_termOk (hb : b ≠ cfg.startByte) (hc : r.position ≤ cfg.cap) (h4 : 4 ≤ r.position)
    (hp : r.position = terminatorPosition r) (hv : sumAdd r.sum b = 0xFF) : classify cfg r b = .termOk := by
  rw [classify_from_four hb hc h4, if_pos hp, hv]
  rfl

theorem classify_termBad (hb : b ≠ cfg.startByte) (hc : r.position ≤ cfg.cap) (h4 : 4 ≤ r.position)
    (hp : r.position = terminatorPosition r) (hv : sumAdd r.sum b ≠ 0xFF) : classify cfg r b = .termBad := by
  have : sumValid (sumAdd r.sum b) = false := by simpa [sumValid] using hv
  rw [classify_from_four hb hc h4, if_pos hp, this]
  rfl

theorem classify_data (hb : b ≠ cfg.startByte) (hc : r.position ≤ cfg.cap) (h4 : 4 ≤ r.position)
    (hp : r.position ≠ terminatorPosition r) : classify cfg r b = .data := by
  rw [classify_from_four hb hc h4, if_neg hp]

end

/-- A byte-class row either runs its effect, at its class, or has no step (log 11). -/
theorem asClass_cases (k : ByteClass) (b : Byte) (s : State) (after : Rx) :
    (classify s.cfg s.rx b = k ∧ asClass k b s after = .next (withRx after s)) ∨
    (classify s.cfg s.rx b ≠ k ∧ asClass k b s after = .refused .byteNotOfClass) := by
  unfold asClass
  split
  · exact .inl ⟨‹_›, rfl⟩
  · exact .inr ⟨‹_›, rfl⟩

theorem asClass_of_class {k : ByteClass} {b : Byte} {s : State} (after : Rx) (h : classify s.cfg s.rx b = k) :
    asClass k b s after = .next (withRx after s) := by
  simp [asClass, h]

end Sys2Proof.Machine
end

