-- ==== Sys2Proof/Laws/Encoding.lean ====
section
/-! SUPPORT. The arithmetic of the wire frame: sums of byte lists, the check byte, and the two halves of the length. -/

namespace Sys2Proof

@[simp] theorem byteSum_nil : byteSum [] = 0 := rfl

theorem foldl_add_eq_byteSum (bs : List Byte) (x : Byte) : bs.foldl (· + ·) x = x + byteSum bs := by
  induction bs generalizing x with
  | nil => simp
  | cons b bs ih =>
    simp only [byteSum, List.foldl_cons]
    rw [ih, ih (0 + b)]
    simp only [zero_add, add_assoc]

theorem byteSum_cons (b : Byte) (bs : List Byte) : byteSum (b :: bs) = b + byteSum bs := by
  rw [byteSum, List.foldl_cons, foldl_add_eq_byteSum, zero_add]

theorem byteSum_append (bs cs : List Byte) : byteSum (bs ++ cs) = byteSum bs + byteSum cs := by
  rw [byteSum, List.foldl_append, foldl_add_eq_byteSum]
  rfl

/-- The sum modulo 256 is that of the bytes as numbers. -/
theorem byteSum_toNat (bs : List Byte) : (byteSum bs).toNat = (bs.map BitVec.toNat).sum % 256 := by
  induction bs with
  | nil => rfl
  | cons b bs ih =>
    rw [byteSum_cons, BitVec.toNat_add, ih]
    simp [Nat.add_mod]

/-- What a byte must be for a sum to come out as 0xFF. -/
theorem add_eq_FF_iff (s c : Byte) : s + c = 0xFF ↔ c = 0xFF - s := by
  constructor <;> intro h <;> bv_omega

/-- The covered bytes and the check byte of R89 sum to 0xFF. -/
theorem byteSum_checkByte (apiId frameId : Byte) (payload : List Byte) :
    byteSum (apiId :: frameId :: payload ++ [checkByte apiId frameId payload]) = 0xFF := by
  rw [byteSum_append, byteSum_cons (checkByte _ _ _), byteSum_nil, add_zero, add_eq_FF_iff]
  rfl

/-- The two halves of LEN assemble to LEN (R85, R86). -/
theorem assembleLength_split {n : Nat} (h : n + 2 ≤ 65535) : assembleLength (lenMsb n) (lenLsb n) = n + 2 := by
  simp only [assembleLength, lenMsb, lenLsb, BitVec.toNat_ofNat]
  omega

theorem frameBytes_eq (start apiId frameId : Byte) (payload : List Byte) :
    frameBytes start apiId frameId payload = start :: lenMsb payload.length :: lenLsb payload.length ::
      (apiId :: frameId :: payload ++ [checkByte apiId frameId payload]) := rfl

/-- R82. -/
@[simp] theorem frameBytes_length (start apiId frameId : Byte) (payload : List Byte) :
    (frameBytes start apiId frameId payload).length = payload.length + 6 := by
  simp [frameBytes]

end Sys2Proof
end

