-- ==== Sys2Proof/Laws/Environment.lean ====
section
/-! SUPPORT. What each environment call can change: the peer's and the clock's data and the count of free values, never
the host's commands; and what the two test environments answer. -/

namespace Sys2Proof.Machine

@[simp] theorem afterSignal_host (e : Env) : (afterSignal e).host = e.host := by unfold afterSignal; split <;> rfl
@[simp] theorem afterSignal_clock (e : Env) : (afterSignal e).clock = e.clock := by unfold afterSignal; split <;> rfl
@[simp] theorem afterSignal_ticks (e : Env) : (afterSignal e).ticks = e.ticks := by unfold afterSignal; split <;> rfl

@[simp] theorem afterExchange_host (e : Env) : (afterExchange e).host = e.host := by unfold afterExchange; split <;> rfl
@[simp] theorem afterExchange_clock (e : Env) : (afterExchange e).clock = e.clock := by unfold afterExchange; split <;> rfl
@[simp] theorem afterExchange_ticks (e : Env) : (afterExchange e).ticks = e.ticks := by unfold afterExchange; split <;> rfl

@[simp] theorem afterClock_host (e : Env) : (afterClock e).host = e.host := by unfold afterClock; split <;> rfl
@[simp] theorem afterClock_clock (e : Env) : (afterClock e).clock = clockAnswer e := by unfold afterClock; split <;> rfl
@[simp] theorem afterClock_peer (e : Env) : (afterClock e).peer = e.peer := by unfold afterClock; split <;> rfl

/-- The clock never runs backwards (R151). -/
theorem clock_le_clockAnswer (e : Env) : e.clock ≤ clockAnswer e := by
  unfold clockAnswer; split <;> omega

/-- A queued peer: the line is asserted exactly while bytes are queued, and reading it changes nothing (R15). -/
theorem signalAnswer_queue {e : Env} {q : List Byte} (h : e.peer = .queue q) : signalAnswer e = !q.isEmpty := by
  simp [signalAnswer, h]

theorem afterSignal_queue {e : Env} {q : List Byte} (h : e.peer = .queue q) : afterSignal e = e := by
  simp [afterSignal, h]

/-- A queued peer hands out its head (R15). -/
theorem exchangeAnswer_queue_cons {e : Env} {b : Byte} {q : List Byte} (h : e.peer = .queue (b :: q)) :
    exchangeAnswer e = b := by simp [exchangeAnswer, h]

theorem afterExchange_queue_cons {e : Env} {b : Byte} {q : List Byte} (h : e.peer = .queue (b :: q)) :
    afterExchange e = { e with peer := .queue q } := by simp [afterExchange, h]

theorem exchangeAnswer_queue_nil {e : Env} (h : e.peer = .queue []) : exchangeAnswer e = 0 := by
  simp [exchangeAnswer, h]

theorem afterExchange_queue_nil {e : Env} (h : e.peer = .queue []) : afterExchange e = e := by
  simp [afterExchange, h]

/-! ### Pairs of calls -/

@[simp] theorem pairAnswers_zero (e : Env) : pairAnswers 0 e = [] := rfl
@[simp] theorem afterPairs_zero (e : Env) : afterPairs 0 e = e := rfl

theorem pairAnswers_succ (n : Nat) (e : Env) : pairAnswers (n + 1) e =
    (signalAnswer e, exchangeAnswer (afterSignal e)) :: pairAnswers n (afterExchange (afterSignal e)) := rfl

theorem afterPairs_succ (n : Nat) (e : Env) : afterPairs (n + 1) e = afterPairs n (afterExchange (afterSignal e)) := rfl

@[simp] theorem pairAnswers_length (n : Nat) (e : Env) : (pairAnswers n e).length = n := by
  induction n generalizing e with
  | zero => rfl
  | succ n ih => simp [pairAnswers_succ, ih]

theorem pairAnswers_add (m n : Nat) (e : Env) :
    pairAnswers (m + n) e = pairAnswers m e ++ pairAnswers n (afterPairs m e) := by
  induction m generalizing e with
  | zero => simp
  | succ m ih => rw [Nat.succ_add, pairAnswers_succ, pairAnswers_succ, ih, afterPairs_succ, List.cons_append]

theorem afterPairs_add (m n : Nat) (e : Env) : afterPairs (m + n) e = afterPairs n (afterPairs m e) := by
  induction m generalizing e with
  | zero => simp
  | succ m ih => rw [Nat.succ_add, afterPairs_succ, afterPairs_succ, ih]

@[simp] theorem afterPairs_host (n : Nat) (e : Env) : (afterPairs n e).host = e.host := by
  induction n generalizing e with
  | zero => rfl
  | succ n ih => simp [afterPairs_succ, ih]

@[simp] theorem afterPairs_clock (n : Nat) (e : Env) : (afterPairs n e).clock = e.clock := by
  induction n generalizing e with
  | zero => rfl
  | succ n ih => simp [afterPairs_succ, ih]

@[simp] theorem afterPairs_ticks (n : Nat) (e : Env) : (afterPairs n e).ticks = e.ticks := by
  induction n generalizing e with
  | zero => rfl
  | succ n ih => simp [afterPairs_succ, ih]

/-- A queued peer answers with the line asserted and its bytes in order, then with a deasserted line and 0x00 (R15). -/
theorem pairAnswers_queue {e : Env} {q : List Byte} (h : e.peer = .queue q) (n : Nat) :
    pairAnswers n e = (q.take n).map (true, ·) ++ List.replicate (n - q.length) (false, 0) := by
  induction n generalizing e q with
  | zero => simp
  | succ n ih =>
    rw [pairAnswers_succ, signalAnswer_queue h, afterSignal_queue h]
    cases q with
    | nil => simp [exchangeAnswer_queue_nil h, afterExchange_queue_nil h, ih h, List.replicate_succ]
    | cons b q =>
      rw [exchangeAnswer_queue_cons h, afterExchange_queue_cons h, ih rfl]
      simp

theorem afterPairs_queue {e : Env} {q : List Byte} (h : e.peer = .queue q) (n : Nat) :
    afterPairs n e = { e with peer := .queue (q.drop n) } := by
  induction n generalizing e q with
  | zero => simp [← h]
  | succ n ih =>
    rw [afterPairs_succ, afterSignal_queue h]
    cases q with
    | nil => rw [afterExchange_queue_nil h, ih h, List.drop_nil, List.drop_nil]
    | cons b q => rw [afterExchange_queue_cons h, ih rfl]; simp

/-- A script answers with its two lists in order (R15). -/
theorem pairAnswers_script {e : Env} {vs : List Bool} {rs : List Byte} (h : e.peer = .script vs rs) {n : Nat}
    (hv : n ≤ vs.length) (hr : n ≤ rs.length) : pairAnswers n e = (vs.take n).zip (rs.take n) := by
  induction n generalizing e vs rs with
  | zero => simp
  | succ n ih =>
    cases vs with
    | nil => simp at hv
    | cons v vs =>
      cases rs with
      | nil => simp at hr
      | cons r rs =>
        have hs : afterSignal e = { e with peer := .script vs (r :: rs) } := by simp [afterSignal, h]
        have hx : afterExchange (afterSignal e) = { e with peer := .script vs rs } := by simp [hs, afterExchange]
        rw [pairAnswers_succ, hx, ih rfl (by simpa using hv) (by simpa using hr)]
        simp [signalAnswer, exchangeAnswer, h, hs]

theorem afterPairs_script {e : Env} {vs : List Bool} {rs : List Byte} (h : e.peer = .script vs rs) {n : Nat}
    (hv : n ≤ vs.length) (hr : n ≤ rs.length) :
    afterPairs n e = { e with peer := .script (vs.drop n) (rs.drop n) } := by
  induction n generalizing e vs rs with
  | zero => simp [← h]
  | succ n ih =>
    cases vs with
    | nil => simp at hv
    | cons v vs =>
      cases rs with
      | nil => simp at hr
      | cons r rs =>
        have hx : afterExchange (afterSignal e) = { e with peer := .script vs rs } := by
          simp [afterSignal, h, afterExchange]
        rw [afterPairs_succ, hx, ih rfl (by simpa using hv) (by simpa using hr)]
        simp

@[simp] theorem sentBytes_append (es es' : List Event) : sentBytes (es ++ es') = sentBytes es ++ sentBytes es' := by
  induction es with
  | nil => rfl
  | cons e es ih => cases e <;> simp [sentBytes, ih]

/-- The events added after `s`. -/
theorem newEvents_of_trace {s t : State} {es : List Event} (h : t.trace = s.trace ++ es) : newEvents s t = es := by
  simp [newEvents, h]

end Sys2Proof.Machine
end

