-- ==== Sys2Proof/Laws/Frame.lean ====
section
/-! SUPPORT. Bytes given to the receiver one after another: everything that can come of it. -/

namespace Sys2Proof.Machine

@[simp] theorem feed_nil (s : State) : feed [] s = s := rfl

theorem feed_pending {b : Byte} {bs : List Byte} {s : State} (h : s.rx.outcome = .pending) :
    feed (b :: bs) s = feed bs (rxByte b s) := if_pos h

theorem feed_terminal {bs : List Byte} {s : State} (h : s.rx.outcome ≠ .pending) : feed bs s = s := by
  cases bs with
  | nil => rfl
  | cons b bs => exact if_neg h

/-- Feeding bytes changes the receiver's record only, and by RX_BYTE only. -/
theorem feed_induct {P : Rx → Prop} (cfg : Cfg) (hs : ∀ b r, r.outcome = .pending → P r → P (stepByte cfg b r))
    (bs : List Byte) (s : State) (hc : s.cfg = cfg) (h : P s.rx) :
    P (feed bs s).rx ∧ feed bs s = { s with rx := (feed bs s).rx } := by
  induction bs generalizing s with
  | nil => exact ⟨h, rfl⟩
  | cons b bs ih =>
    by_cases ho : s.rx.outcome = .pending
    · rw [feed_pending ho]
      exact ih (rxByte b s) hc (by simpa [hc] using hs b s.rx ho h)
    · rw [feed_terminal ho]
      exact ⟨h, rfl⟩

end Sys2Proof.Machine
end

