-- ==== Sys2Proof/Laws/Polling.lean ====
section
/-! SUPPORT. RX_POLL and RX_TIMED: everything one iteration can do, and how properties pass through any number of them. -/

namespace Sys2Proof.Machine

@[simp] theorem pullByte_cfg (s : State) : (pullByte s).cfg = s.cfg := rfl
@[simp] theorem pullByte_rx (s : State) : (pullByte s).rx = stepByte s.cfg (exchangeAnswer s.env) s.rx := rfl
@[simp] theorem pullByte_bk (s : State) : (pullByte s).bk = s.bk := rfl
@[simp] theorem pullByte_tx (s : State) : (pullByte s).tx = s.tx := rfl
@[simp] theorem pullByte_ctl (s : State) : (pullByte s).ctl = s.ctl := rfl
@[simp] theorem pullByte_results (s : State) : (pullByte s).results = s.results := rfl
@[simp] theorem pullByte_micro (s : State) : (pullByte s).micro = s.micro := rfl
@[simp] theorem pullByte_env (s : State) : (pullByte s).env = afterExchange s.env := rfl
@[simp] theorem pullByte_trace (s : State) :
    (pullByte s).trace = s.trace ++ [.xchg s.cfg.fillerByte (exchangeAnswer s.env)] := rfl

@[simp] theorem startPoll_cfg (c : Caller) (s : State) : (startPoll c s).cfg = s.cfg := rfl
@[simp] theorem startPoll_rx (c : Caller) (s : State) : (startPoll c s).rx = discardOutcome s.rx := rfl
@[simp] theorem startPoll_bk (c : Caller) (s : State) : (startPoll c s).bk = s.bk := rfl
@[simp] theorem startPoll_tx (c : Caller) (s : State) : (startPoll c s).tx = s.tx := rfl
@[simp] theorem startPoll_ctl (c : Caller) (s : State) : (startPoll c s).ctl = .poll c := rfl
@[simp] theorem startPoll_results (c : Caller) (s : State) : (startPoll c s).results = s.results := rfl
@[simp] theorem startPoll_micro (c : Caller) (s : State) : (startPoll c s).micro = s.micro := rfl
@[simp] theorem startPoll_trace (c : Caller) (s : State) : (startPoll c s).trace = s.trace := rfl
@[simp] theorem startPoll_env (c : Caller) (s : State) : (startPoll c s).env = s.env := rfl

/-- How a poll returns: to the host without a result; to RX_TIMED with its verdict, or to its clock test. -/
theorem endPoll_cases (c : Caller) (s : State) :
    (c = .host ∧ endPoll c s = withCtl .idle s) ∨
    (∃ t0 d, c = .timed t0 d ∧ s.rx.outcome = .available ∧ endPoll c s = endTimed true s) ∨
    (∃ t0 d k, c = .timed t0 d ∧ s.rx.outcome = .error k ∧ endPoll c s = endTimed false s) ∨
    (∃ t0 d, c = .timed t0 d ∧ s.rx.outcome = .pending ∧ endPoll c s = withCtl (.clockTest t0 d) s) := by
  cases c with
  | host => exact .inl ⟨rfl, rfl⟩
  | timed t0 d =>
    cases h : s.rx.outcome with
    | available => exact .inr (.inl ⟨t0, d, rfl, rfl, by simp [endPoll, h]⟩)
    | error k => exact .inr (.inr (.inl ⟨t0, d, k, rfl, rfl, by simp [endPoll, h]⟩))
    | pending => exact .inr (.inr (.inr ⟨t0, d, rfl, rfl, by simp [endPoll, h]⟩))

/-- Everything one iteration of a poll can do (R132). -/
theorem pollIteration_cases (c : Caller) (s : State) :
    (signalAnswer s.env = false ∧ pollIteration c s = endPoll c (readSignal s)) ∨
    (signalAnswer s.env = true ∧ (pullByte (readSignal s)).rx.outcome = .pending ∧
      pollIteration c s = pullByte (readSignal s)) ∨
    (signalAnswer s.env = true ∧ (pullByte (readSignal s)).rx.outcome ≠ .pending ∧
      pollIteration c s = endPoll c (pullByte (readSignal s))) := by
  cases h : signalAnswer s.env with
  | false => exact .inl ⟨rfl, by simp [pollIteration, h]⟩
  | true =>
    by_cases hp : (pullByte (readSignal s)).rx.outcome = .pending
    · exact .inr (.inl ⟨rfl, hp, by simp only [pollIteration, h, if_true, hp]⟩)
    · exact .inr (.inr ⟨rfl, hp, by simp only [pollIteration, h, if_true, hp, if_false]⟩)

/-- Everything the loop test of RX_TIMED can do (R150). -/
theorem clockIteration_cases (t0 : Nat) (d : Int) (s : State) :
    ((clockAnswer s.env : Int) - t0 ≤ d ∧ clockIteration t0 d s = startPoll (.timed t0 d) (readClock s)) ∨
    (d < (clockAnswer s.env : Int) - t0 ∧ clockIteration t0 d s = endTimed false (readClock s)) := by
  unfold clockIteration
  split
  · exact .inl ⟨‹_›, rfl⟩
  · exact .inr ⟨by omega, rfl⟩

theorem clockIteration_within {t0 : Nat} {d : Int} {s : State} (h : (clockAnswer s.env : Int) - t0 ≤ d) :
    clockIteration t0 d s = startPoll (.timed t0 d) (readClock s) := if_pos h

theorem clockIteration_past {t0 : Nat} {d : Int} {s : State} (h : d < (clockAnswer s.env : Int) - t0) :
    clockIteration t0 d s = endTimed false (readClock s) := if_neg (by omega)

theorem advance_idle {s : State} (h : s.ctl = .idle) : advance s = s := by simp [advance, h]

theorem advance_poll {s : State} {c : Caller} (h : s.ctl = .poll c) : advance s = pollIteration c s := by
  simp [advance, h]

theorem advance_clockTest {s : State} {t0 : Nat} {d : Int} (h : s.ctl = .clockTest t0 d) :
    advance s = clockIteration t0 d s := by simp [advance, h]

/-- An operation that has ended stays ended. -/
theorem advanceBy_idle {s : State} (h : s.ctl = .idle) (k : Nat) : advanceBy k s = s := by
  induction k with
  | zero => rfl
  | succ k ih => rw [advanceBy, advance_idle h, ih]

theorem advanceBy_add (j k : Nat) (s : State) : advanceBy (j + k) s = advanceBy k (advanceBy j s) := by
  induction j generalizing s with
  | zero => simp [advanceBy]
  | succ j ih => rw [Nat.succ_add, advanceBy, advanceBy, ih]

theorem advanceBy_succ (k : Nat) (s : State) : advanceBy (k + 1) s = advance (advanceBy k s) := by
  rw [advanceBy_add]; rfl

/-- More iterations than an ended operation needed change nothing. -/
theorem advanceBy_of_le {j k : Nat} {s : State} (h : (advanceBy j s).ctl = .idle) (hjk : j ≤ k) :
    advanceBy k s = advanceBy j s := by
  obtain ⟨n, rfl⟩ := Nat.exists_eq_add_of_le hjk
  rw [advanceBy_add, advanceBy_idle h]

/-- What a property has to survive to pass through any number of iterations. -/
theorem advanceBy_induct {P : State → Prop} (hs : ∀ s, P s → P (advance s)) (k : Nat) (s : State) (h : P s) :
    P (advanceBy k s) := by
  induction k generalizing s with
  | zero => exact h
  | succ k ih => exact ih _ (hs s h)

theorem resume_induct {P : State → Prop} (hs : ∀ s, P s → P (advance s)) (s : State) (h : P s) : P (resume s) :=
  advanceBy_induct hs _ s h

/-- What one iteration leaves alone. -/
theorem advance_frame (s : State) :
    (advance s).cfg = s.cfg ∧ (advance s).bk = s.bk ∧ (advance s).tx = s.tx ∧ (advance s).micro = s.micro ∧
      (advance s).env.host = s.env.host := by
  have he : ∀ c s, (endPoll c s).cfg = s.cfg ∧ (endPoll c s).bk = s.bk ∧ (endPoll c s).tx = s.tx ∧
      (endPoll c s).micro = s.micro ∧ (endPoll c s).env.host = s.env.host := by
    intro c s
    rcases endPoll_cases c s with ⟨-, h⟩ | ⟨t0, d, -, -, h⟩ | ⟨t0, d, k, -, -, h⟩ | ⟨t0, d, -, -, h⟩ <;>
      simp [h, endTimed]
  cases h : s.ctl with
  | idle => simp [advance_idle h]
  | poll c =>
    rw [advance_poll h]
    rcases pollIteration_cases c s with ⟨-, hp⟩ | ⟨-, -, hp⟩ | ⟨-, -, hp⟩ <;> simp [hp, he]
  | clockTest t0 d =>
    rw [advance_clockTest h]
    rcases clockIteration_cases t0 d s with ⟨-, hp⟩ | ⟨-, hp⟩ <;> simp [hp, endTimed]

/-- What any number of iterations leaves alone. -/
theorem advanceBy_frame (k : Nat) (s : State) :
    (advanceBy k s).cfg = s.cfg ∧ (advanceBy k s).bk = s.bk ∧ (advanceBy k s).tx = s.tx ∧
      (advanceBy k s).micro = s.micro ∧ (advanceBy k s).env.host = s.env.host := by
  induction k generalizing s with
  | zero => simp [advanceBy]
  | succ k ih =>
    have h1 := ih (advance s)
    have h2 := advance_frame s
    rw [advanceBy]
    simp_all

theorem resume_frame (s : State) :
    (resume s).cfg = s.cfg ∧ (resume s).bk = s.bk ∧ (resume s).tx = s.tx ∧ (resume s).micro = s.micro ∧
      (resume s).env.host = s.env.host :=
  advanceBy_frame _ s

/-- A poll that the host issued stays a poll of the host until it ends, and presents nothing. -/
theorem advanceBy_host_poll (k : Nat) (s : State) (h : s.ctl = .poll .host) :
    ((advanceBy k s).ctl = .poll .host ∨ (advanceBy k s).ctl = .idle) ∧ (advanceBy k s).results = s.results := by
  refine advanceBy_induct (P := fun t => (t.ctl = .poll .host ∨ t.ctl = .idle) ∧ t.results = s.results) ?_ k s
    ⟨.inl h, rfl⟩
  rintro u ⟨hc | hc, hr⟩
  · rw [advance_poll hc]
    rcases pollIteration_cases .host u with ⟨-, e⟩ | ⟨-, -, e⟩ | ⟨-, -, e⟩ <;> rw [e]
    · exact ⟨.inr rfl, hr⟩
    · exact ⟨.inl hc, hr⟩
    · exact ⟨.inr rfl, hr⟩
  · rw [advance_idle hc]
    exact ⟨.inr hc, hr⟩

/-- What RX_POLL leaves alone. -/
theorem rxPoll_frame (s : State) :
    (rxPoll s).cfg = s.cfg ∧ (rxPoll s).bk = s.bk ∧ (rxPoll s).tx = s.tx ∧ (rxPoll s).micro = s.micro ∧
      (rxPoll s).env.host = s.env.host ∧ (rxPoll s).results = s.results := by
  have hf := resume_frame (startPoll .host s)
  exact ⟨hf.1, hf.2.1, hf.2.2.1, hf.2.2.2.1, hf.2.2.2.2, (advanceBy_host_poll _ (startPoll .host s) rfl).2⟩

end Sys2Proof.Machine
end

