-- ==== Sys2Proof/Laws/Transmitter.lean ====
section
/-! SUPPORT. The backup buffer and the transmitter: what they leave alone and everything one emission and one drain can
do. -/

namespace Sys2Proof.Machine

/-- BK_APPEND with room (R180). -/
theorem appendBk_room {cfg : Cfg} {b : Byte} {k : Bk} (h : k.count < cfg.mfs) :
    appendBk cfg b k = { data := Mem.write k.data k.count b, count := k.count + 1 } := by simp [appendBk, h]

/-- BK_APPEND on a full buffer (R180). -/
theorem appendBk_full {cfg : Cfg} {b : Byte} {k : Bk} (h : cfg.mfs ≤ k.count) : appendBk cfg b k = k := by
  simp [appendBk, Nat.not_lt.mpr h]

theorem appendBk_count_le (cfg : Cfg) (b : Byte) (k : Bk) : k.count ≤ (appendBk cfg b k).count := by
  unfold appendBk; split <;> simp

/-- An append leaves the captured cells alone. -/
theorem appendBk_read_below (cfg : Cfg) (b : Byte) (k : Bk) {i : Nat} (h : i < k.count) :
    Mem.read (appendBk cfg b k).data i = Mem.read k.data i := by
  unfold appendBk
  split
  · exact Mem.read_write_other _ _ (by omega)
  · rfl

@[simp] theorem bkAppend_bk (b : Byte) (s : State) : (bkAppend b s).bk = appendBk s.cfg b s.bk := rfl
@[simp] theorem bkAppend_cfg (b : Byte) (s : State) : (bkAppend b s).cfg = s.cfg := rfl
@[simp] theorem bkAppend_rx (b : Byte) (s : State) : (bkAppend b s).rx = s.rx := rfl
@[simp] theorem bkAppend_tx (b : Byte) (s : State) : (bkAppend b s).tx = s.tx := rfl
@[simp] theorem bkAppend_ctl (b : Byte) (s : State) : (bkAppend b s).ctl = s.ctl := rfl
@[simp] theorem bkAppend_results (b : Byte) (s : State) : (bkAppend b s).results = s.results := rfl
@[simp] theorem bkAppend_micro (b : Byte) (s : State) : (bkAppend b s).micro = s.micro := rfl
@[simp] theorem bkAppend_trace (b : Byte) (s : State) : (bkAppend b s).trace = s.trace := rfl
@[simp] theorem bkAppend_env (b : Byte) (s : State) : (bkAppend b s).env = s.env := rfl

@[simp] theorem txEmit_cfg (b : Byte) (s : State) : (txEmit b s).cfg = s.cfg := by unfold txEmit; split <;> rfl
@[simp] theorem txEmit_rx (b : Byte) (s : State) : (txEmit b s).rx = s.rx := by unfold txEmit; split <;> rfl
@[simp] theorem txEmit_tx (b : Byte) (s : State) : (txEmit b s).tx = s.tx := by unfold txEmit; split <;> rfl
@[simp] theorem txEmit_ctl (b : Byte) (s : State) : (txEmit b s).ctl = s.ctl := by unfold txEmit; split <;> rfl
@[simp] theorem txEmit_results (b : Byte) (s : State) : (txEmit b s).results = s.results := by unfold txEmit; split <;> rfl
@[simp] theorem txEmit_micro (b : Byte) (s : State) : (txEmit b s).micro = s.micro := by unfold txEmit; split <;> rfl

/-- The two events of an emission (R163): the line, then the exchange, whatever becomes of the returned byte. -/
theorem txEmit_trace (b : Byte) (s : State) :
    (txEmit b s).trace =
      s.trace ++ [.sig (signalAnswer s.env), .xchg b (exchangeAnswer (afterSignal s.env))] := by
  unfold txEmit; split <;> simp [exchangeCaptured]

theorem txEmit_env (b : Byte) (s : State) : (txEmit b s).env = afterExchange (afterSignal s.env) := by
  unfold txEmit; split <;> rfl

/-- The sample of the line decides the capture (R163). -/
theorem txEmit_bk (b : Byte) (s : State) :
    (txEmit b s).bk =
      if signalAnswer s.env then appendBk s.cfg (exchangeAnswer (afterSignal s.env)) s.bk else s.bk := by
  unfold txEmit; split <;> rfl

@[simp] theorem txCovered_cfg (b : Byte) (s : State) : (txCovered s b).cfg = s.cfg := by simp [txCovered, ckAdd]
@[simp] theorem txCovered_rx (b : Byte) (s : State) : (txCovered s b).rx = s.rx := by simp [txCovered, ckAdd]
@[simp] theorem txCovered_tx (b : Byte) (s : State) : (txCovered s b).tx = { sum := sumAdd s.tx.sum b } := by
  simp [txCovered, ckAdd, accValue]
@[simp] theorem txCovered_ctl (b : Byte) (s : State) : (txCovered s b).ctl = s.ctl := by simp [txCovered, ckAdd]
@[simp] theorem txCovered_results (b : Byte) (s : State) : (txCovered s b).results = s.results := by
  simp [txCovered, ckAdd]
@[simp] theorem txCovered_micro (b : Byte) (s : State) : (txCovered s b).micro = s.micro := by simp [txCovered, ckAdd]

section drain
variable (k : Nat) (s : State)

@[simp] theorem exchangeCaptured_cfg (b : Byte) : (exchangeCaptured b s).cfg = s.cfg := rfl
@[simp] theorem exchangeCaptured_rx (b : Byte) : (exchangeCaptured b s).rx = s.rx := rfl
@[simp] theorem exchangeCaptured_tx (b : Byte) : (exchangeCaptured b s).tx = s.tx := rfl
@[simp] theorem exchangeCaptured_ctl (b : Byte) : (exchangeCaptured b s).ctl = s.ctl := rfl
@[simp] theorem exchangeCaptured_results (b : Byte) : (exchangeCaptured b s).results = s.results := rfl
@[simp] theorem exchangeCaptured_micro (b : Byte) : (exchangeCaptured b s).micro = s.micro := rfl
@[simp] theorem exchangeCaptured_bk (b : Byte) :
    (exchangeCaptured b s).bk = appendBk s.cfg (exchangeAnswer s.env) s.bk := rfl
@[simp] theorem exchangeCaptured_env (b : Byte) : (exchangeCaptured b s).env = afterExchange s.env := rfl
@[simp] theorem exchangeCaptured_trace (b : Byte) :
    (exchangeCaptured b s).trace = s.trace ++ [.xchg b (exchangeAnswer s.env)] := rfl

end drain

/-- What a property has to survive to hold after a drain: one signal read, and one captured exchange. -/
theorem drainLoop_induct {P : State → Prop} (hr : ∀ s, P s → P (readSignal s))
    (hx : ∀ s, P s → P (exchangeCaptured s.cfg.fillerByte s)) :
    ∀ k s, P s → P (drainLoop k s) := by
  intro k
  induction k with
  | zero => exact fun s h => h
  | succ k ih =>
    intro s h
    unfold drainLoop
    split
    · split
      · exact hr s h
      · exact ih _ (by have := hx _ (hr s h); simpa using this)
    · exact hr s h

theorem txDrain_induct {P : State → Prop} (hr : ∀ s, P s → P (readSignal s))
    (hx : ∀ s, P s → P (exchangeCaptured s.cfg.fillerByte s)) (s : State) (h : P s) : P (txDrain s) :=
  drainLoop_induct hr hx _ s h

/-- What a property has to survive to hold after a whole transmit. -/
theorem txFrame_induct {P : State → Prop} (hr : ∀ s, P s → P (readSignal s)) (he : ∀ b s, P s → P (exchange b s))
    (hb : ∀ b s, P s → P (bkAppend b s)) (ha : ∀ v s, P s → P (setAcc .tx v s))
    (apiId frameId : Byte) (payload : List Byte) (s : State) (h : P s) : P (txFrame apiId frameId payload s) := by
  have hemit : ∀ b s, P s → P (txEmit b s) := by
    intro b s h
    unfold txEmit
    split
    · exact hb _ _ (he _ _ (hr _ h))
    · exact he _ _ (hr _ h)
  have hcov : ∀ (bs : List Byte) s, P s → P (bs.foldl txCovered s) := by
    intro bs
    induction bs with
    | nil => exact fun s h => h
    | cons b bs ih => exact fun s h => ih _ (hemit _ _ (ha _ _ h))
  refine txDrain_induct hr (fun s h => hb _ _ (he _ _ h)) _ ?_
  exact hemit _ _ (hcov _ _ (hemit _ _ (hemit _ _ (he _ _ (ha _ _ h)))))

/-- What TX_FRAME leaves alone (R161, R168). -/
theorem txFrame_frame (apiId frameId : Byte) (payload : List Byte) (s : State) :
    (txFrame apiId frameId payload s).cfg = s.cfg ∧ (txFrame apiId frameId payload s).rx = s.rx ∧
      (txFrame apiId frameId payload s).ctl = s.ctl ∧ (txFrame apiId frameId payload s).results = s.results ∧
      (txFrame apiId frameId payload s).micro = s.micro ∧
      (txFrame apiId frameId payload s).env.host = s.env.host ∧
      (txFrame apiId frameId payload s).env.clock = s.env.clock := by
  refine txFrame_induct (P := fun t => t.cfg = s.cfg ∧ t.rx = s.rx ∧ t.ctl = s.ctl ∧ t.results = s.results ∧
    t.micro = s.micro ∧ t.env.host = s.env.host ∧ t.env.clock = s.env.clock) ?_ ?_ ?_ ?_ apiId frameId payload s
    (by simp) <;> intros <;> simp_all

end Sys2Proof.Machine
end

