-- ==== Sys2Proof/Machine/Text.lean ====
section
/-! DEFINITION. The written forms of 30_encoding.md R99: a host command as one line, a wire frame, a trace. No operation of
the block reads or writes text. -/

namespace Sys2Proof.Machine

def hexDigit (n : Nat) : Char := ['0', '1', '2', '3', '4', '5', '6', '7', '8', '9', 'A', 'B', 'C', 'D', 'E', 'F'].getD n '0'

/-- A byte as two hexadecimal digits. -/
def byteText (b : Byte) : String := String.ofList [hexDigit (b.toNat / 16), hexDigit (b.toNat % 16)]

/-- Bytes separated by spaces: a payload list, or a frame on the wire. -/
def bytesText (bs : List Byte) : String := " ".intercalate (bs.map byteText)

/-- The line of a host command; the operations that no host can issue have none. -/
def commandText (i : Instr) : Option String :=
  match i with
  | .nop => some "NOP"
  | .rxReset => some "RX_RESET"
  | .rxPoll => some "RX_POLL"
  | .rxTimed deadlineMillis => some ("RX_TIMED " ++ toString deadlineMillis)
  | .rxRead => some "RX_READ"
  | .txFrame apiId frameId payload =>
    some ("TX_FRAME api=" ++ byteText apiId ++ " fid=" ++ byteText frameId ++ " pay=[" ++ bytesText payload ++ "]")
  | .bkReset => some "BK_RESET"
  | .bkRead => some "BK_READ"
  | _ => none

/-- An event of the trace. -/
def eventText (e : Event) : String :=
  match e with
  | .sig v => if v then "sig(1)" else "sig(0)"
  | .xchg out ret => "xchg(" ++ byteText out ++ ", " ++ byteText ret ++ ")"
  | .now t => "now(" ++ toString t ++ ")"

end Sys2Proof.Machine
end

