-- ==== Sys2Proof/Tests/Slice0.lean ====
section
/-! SUPPORT. Tests. Expected values are those of spec/95_test_vectors.md (named in each comment) or are written out by hand
from the rule named; then, for each statement with hypotheses, a witness that meets them. -/

open Sys2Proof Sys2Proof.Machine Sys2Proof.Claims

namespace Sys2Proof.Tests

/-- CFG_S (00_scope.md section 4). -/
def cfgS : Cfg := { startByte := 0x7E, fillerByte := 0xFF, cap := 8, mfs := 12 }

/-- CFG_T. -/
def cfgT : Cfg := { startByte := 0x7E, fillerByte := 0xFF, cap := 110, mfs := 128 }

/-- "From reset", with a named configuration. -/
def start (c : Cfg) : State := { State.reset with cfg := c }

/-- The state after an operation that answers next; otherwise the state before. -/
def after (i : Instr) (s : State) : State :=
  match exec i s with
  | .next t => t
  | .fault _ => s
  | .refused _ => s

/-- The next state of an outcome, if it is one. -/
def nextOf (o : Host.Outcome State Fault Refusal) : Option State :=
  match o with
  | .next t => some t
  | .fault _ => none
  | .refused _ => none

/-- The refusal of an outcome, if it is one. -/
def refusalOf (o : Host.Outcome State Fault Refusal) : Option Refusal :=
  match o with
  | .next _ => none
  | .fault _ => none
  | .refused r => some r

/-- CFG_S at a position, with a sum and a declared length below 256. -/
def rxAt (position : Nat) (sum : Byte) (length : Byte) : State :=
  { start cfgS with rx := { Rx.reset with position := position, sum := sum, lengthLsb := length } }

/-- Position, sum and outcome, as the vectors write a state. -/
def seen (s : State) : Nat × Byte × RxOutcome := (s.rx.position, s.rx.sum, s.rx.outcome)

/-- The wire bytes of vector W1. -/
def w1 : List Byte := [0x7E, 0x00, 0x04, 0x08, 0x01, 0x4E, 0x49, 0x5F]

/-- CFG_S with the backup buffer holding so many zero bytes. -/
def bkAt (count : Nat) : State :=
  { start cfgS with bk := { data := (List.range count).map fun i => (i, 0), count := count } }

/-! ### Encodings -/

-- 95_test_vectors.md 2.8, and the table's rows written out bit by bit
theorem test_word_nop : decodeTableWord 8 0b00000000 = some .nop := by decide
theorem test_word_rxReset : decodeTableWord 8 0b00000001 = some .rxReset := by decide
theorem test_word_rxPoll : decodeTableWord 8 0b00000010 = some .rxPoll := by decide
theorem test_word_rxTimed : decodeTableWord 8 0b00000011 = some (.rxTimed 0) := by decide
theorem test_word_rxRead : decodeTableWord 8 0b00000100 = some .rxRead := by decide
theorem test_word_txFrame : decodeTableWord 8 0b00000101 = some (.txFrame 0 0 []) := by decide
theorem test_word_bkReset : decodeTableWord 8 0b00000110 = some .bkReset := by decide
theorem test_word_bkRead : decodeTableWord 8 0b00000111 = some .bkRead := by decide
theorem test_word_reserved :
    decodeTableWord 8 0b00001000 = some (.reserved 0) ∧ decodeTableWord 8 0b00001101 = some (.reserved 5) ∧
      decodeTableWord 8 0b00001111 = some (.reserved 7) := by decide

/-- The operand lines of a command reach the operation that carries them, and no other (R96; log 14). -/
theorem test_operand_lines :
    decode { op := 0x3, deadlineMillis := -5, apiId := 1, frameId := 2, payload := [3] } = .valid (.rxTimed (-5)) ∧
      decode { op := 0x5, deadlineMillis := -5, apiId := 1, frameId := 2, payload := [3] } =
        .valid (.txFrame 1 2 [3]) ∧
      decode { op := 0x1, deadlineMillis := -5, apiId := 1, frameId := 2, payload := [3] } = .valid .rxReset := by
  decide

/-- W1, byte by byte from the field table of R81. -/
theorem test_wire_w1 :
    decodeFrame 0x7E w1 = .ok (.frame 0x08 0x01 [0x4E, 0x49], []) ∧
      frameBytes 0x7E 0x08 0x01 [0x4E, 0x49] = w1 := by decide

/-- X2, the length bytes of X9 and X10, X11. -/
theorem test_wire_x2_x9_x10_x11 :
    frameBytes 0x7E 0x08 0x01 [] = [0x7E, 0x00, 0x02, 0x08, 0x01, 0xF6] ∧
      (lenMsb 254, lenLsb 254) = (0x01, 0x00) ∧ (lenMsb 65533, lenLsb 65533) = (0xFF, 0xFF) ∧
      frameBytes 0x7E 0x80 0x01 [] = [0x7E, 0x00, 0x02, 0x80, 0x01, 0x7E] := by decide

/-- Each rejection of the frame decoder: R94, R91 (S4), R92, W1 cut short, S3. -/
theorem test_wire_rejects :
    decodeFrame 0x7E [0xFF] = .error .noStartByte ∧
      decodeFrame 0x7E [0x7E, 0x00, 0x03, 0x08, 0x01, 0x7E, 0x77] = .error .startByteInside ∧
      decodeFrame 0x7E [0x7E, 0x00, 0x01, 0x08, 0xF7] = .error .lengthBelowTwo ∧
      decodeFrame 0x7E [0x7E, 0x00, 0x04, 0x08, 0x01, 0x4E, 0x49] = .error .truncated ∧
      decodeFrame 0x7E [0x7E, 0x00, 0x04, 0x08, 0x01, 0x4F, 0x49, 0x5F] = .error .badChecksum := by decide

/-- The lines of R99 and 95_test_vectors.md P1 and P4. -/
theorem test_text :
    commandText (.txFrame 0x08 0x01 [0x4E, 0x49]) = some "TX_FRAME api=08 fid=01 pay=[4E 49]" ∧
      commandText (.rxTimed (-5)) = some "RX_TIMED -5" ∧ bytesText w1 = "7E 00 04 08 01 4E 49 5F" ∧
      eventText (.xchg 0xFF 0x7E) = "xchg(FF, 7E)" := by decide

/-! ### Well-formedness: an ill-formed term for each check -/

-- R160 and R84: n = 65534 is one too many (X10)
theorem test_illFormed_txFrame : (Instr.txFrame 0 0 (List.replicate 65534 0)).wellFormed 0x7E = false := by
  simp only [Instr.wellFormed, LengthFits, List.length_replicate]
  decide
theorem test_illFormed_loopback : (Instr.loopback 0 0 (List.replicate 65534 0)).wellFormed 0x7E = false := by
  simp only [Instr.wellFormed, LengthFits, List.length_replicate]
  decide
theorem test_illFormed_frame_long : (Instr.frame 0 0 (List.replicate 65534 0)).wellFormed 0x7E = false := by
  simp only [Instr.wellFormed, LengthFits, List.length_replicate]
  exact decide_eq_false fun h => absurd h.1 (by decide)
-- R91: an api-id, a frame-id, a payload byte and a check byte (X11) of 0x7E
theorem test_illFormed_frame_start :
    (Instr.frame 0x7E 0x01 []).wellFormed 0x7E = false ∧ (Instr.frame 0x08 0x7E []).wellFormed 0x7E = false ∧
      (Instr.frame 0x08 0x01 [0x7E]).wellFormed 0x7E = false ∧
      (Instr.frame 0x80 0x01 []).wellFormed 0x7E = false := by decide
-- R91: n = 124 makes LEN_LSB 0x7E (X8)
theorem test_illFormed_frame_length :
    (Instr.frame 0x08 0x01 (List.replicate 124 0)).wellFormed 0x7E = false := by
  simp only [Instr.wellFormed, NoStartInside, frameBytes_eq, List.length_replicate]
  exact decide_eq_false fun h => h.2 (List.mem_cons_of_mem _ (List.mem_cons_self ..))
-- R90: bytes their class does not admit
theorem test_illFormed_classes :
    (Instr.rxbRestart 0x7F).wellFormed 0x7E = false ∧ (Instr.rxbOverrun 0x7E).wellFormed 0x7E = false ∧
      (Instr.rxbSkip 0x7E).wellFormed 0x7E = false ∧ (Instr.rxbStart 0x7D).wellFormed 0x7E = false ∧
      (Instr.rxbLenMsb 0x7E).wellFormed 0x7E = false ∧ (Instr.rxbLenLsb 0x7E).wellFormed 0x7E = false ∧
      (Instr.rxbApiId 0x7E).wellFormed 0x7E = false ∧ (Instr.rxbTermOk 0x7E).wellFormed 0x7E = false ∧
      (Instr.rxbTermBad 0x7E).wellFormed 0x7E = false ∧ (Instr.rxbData 0x7E).wellFormed 0x7E = false := by decide
theorem test_wellFormed_w1 : (Instr.frame 0x08 0x01 [0x4E, 0x49]).wellFormed 0x7E = true := by decide

/-! ### The command port -/

-- R97
theorem test_nop : nextOf (exec .nop (rxAt 5 0x09 4)) = some (rxAt 5 0x09 4) := by decide
theorem test_reserved : refusalOf (exec (.reserved 5) (start cfgS)) = some (.reservedCode 5) := by decide

-- R12: the host's next command runs first after reset
theorem test_step_takes_the_command :
    nextOf (step ((start cfgS).withFetchWord 8 0x6)) = some (start cfgS) := by decide

/-! ### The checksum accumulator -/

-- K1, K3, K5
theorem test_ckClr : (after (.ckClr .rx) (rxAt 5 0x5A 4)).rx.sum = 0x00 := by decide
theorem test_ckAdd_wraps :
    (after (.ckAdd .rx 0x01) (rxAt 5 0xFF 4)).rx.sum = 0x00 ∧
      (after (.ckAdd .rx 0xFF) (rxAt 5 0xFF 4)).rx.sum = 0xFE := by decide
-- R116: the other accumulator keeps its value
theorem test_ckAdd_tx : (after (.ckAdd .tx 0x49) (rxAt 5 0x57 4)).rx.sum = 0x57 ∧
    (after (.ckAdd .tx 0x49) (rxAt 5 0x57 4)).tx.sum = 0x49 := by decide
-- K7, K8, K9
theorem test_ckValid :
    (after (.ckValid .rx) (rxAt 5 0xFF 4)).micro = .flag true ∧
      (after (.ckValid .rx) (rxAt 5 0xFE 4)).micro = .flag false ∧
      (after (.ckValid .rx) (rxAt 5 0x00 4)).micro = .flag false := by decide
-- K11, K12 and K16
theorem test_ckCompute :
    (after (.ckCompute .rx) (rxAt 5 0xFF 4)).micro = .byte 0x00 ∧
      (after (.ckCompute .rx) (rxAt 5 0xA0 4)).micro = .byte 0x5F := by decide

/-! ### RX_BYTE and its classes (vectors Y, CFG_S) -/

-- Y1, Y3
theorem test_rxbSkip : nextOf (exec (.rxbSkip 0x00) (rxAt 0 0 9)) = some (rxAt 0 0 9) := by decide
theorem test_rxbStart : seen (after (.rxbStart 0x7E) (rxAt 0 0 9)) = (1, 0x00, .pending) := by decide
-- Y4, Y6, Y8
theorem test_rxbLenMsb : (after (.rxbLenMsb 0x12) (rxAt 1 0 9)).rx.lengthMsb = 0x12 ∧
    seen (after (.rxbLenMsb 0x12) (rxAt 1 0 9)) = (2, 0x00, .pending) := by decide
theorem test_rxbLenLsb : (after (.rxbLenLsb 0x34) (rxAt 2 0 9)).rx.lengthLsb = 0x34 ∧
    seen (after (.rxbLenLsb 0x34) (rxAt 2 0 9)) = (3, 0x00, .pending) := by decide
theorem test_rxbApiId : (after (.rxbApiId 0x08) (rxAt 3 0 0)).rx.apiId = 0x08 ∧
    seen (after (.rxbApiId 0x08) (rxAt 3 0 0)) = (4, 0x08, .pending) := by decide
-- Y11, Y16
theorem test_rxbTermBad : seen (after (.rxbTermBad 0xF6) (rxAt 4 0x08 1)) =
    (0, 0x00, .error .checksumFailure) := by decide
theorem test_rxbTermOk : seen (after (.rxbTermOk 0x96) (rxAt 8 0x69 5)) = (0, 0x00, .available) ∧
    (after (.rxbTermOk 0x96) (rxAt 8 0x69 5)).rx.recLen = 4 := by decide
-- Y17, Y15
theorem test_rxbData_last_cell : seen (after (.rxbData 0x06) (rxAt 8 0x0F 9)) = (9, 0x15, .pending) ∧
    (after (.rxbData 0x06) (rxAt 8 0x0F 9)).rx.payload = [(4, 0x06)] := by decide
theorem test_rxbData_length_zero : seen (after (.rxbData 0x03) (rxAt 6 0x0B 0)) = (7, 0x0E, .pending) ∧
    (after (.rxbData 0x03) (rxAt 6 0x0B 0)).rx.payload = [(2, 0x03)] := by decide
-- Y19, Y20
theorem test_rxbOverrun : seen (after (.rxbOverrun 0x56) (rxAt 9 0xA9 6)) =
    (9, 0xA9, .error .packetExceedsCapacity) := by decide
theorem test_rxbRestart : seen (after (.rxbRestart 0x7E) (rxAt 9 0x15 9)) =
    (9, 0x15, .error .unexpectedStartByte) := by decide
-- a row at another class (log 11)
theorem test_rxbData_elsewhere : 
    refusalOf (exec (.rxbData 0x06) (rxAt 9 0x15 9)) = some .byteNotOfClass := by decide
-- Y14, Y21: RX_BYTE itself
theorem test_rxByte_start_at_terminator : seen (after (.rxByte 0x7E) (rxAt 5 0x09 2)) =
    (5, 0x09, .error .unexpectedStartByte) := by decide
theorem test_rxByte_terminator : seen (after (.rxByte 0x00) (rxAt 4 0xFF 1)) = (0, 0x00, .available) := by decide

-- the example of R120, the example of R121
theorem test_rxReset : seen (after .rxReset (after (.rxByte 0x7E) (rxAt 4 0x01 2))) = (0, 0x00, .pending) := by decide
theorem test_rxDiscard_keeps_position : seen (after .rxDiscard (after (.rxByte 0x7E) (rxAt 4 0x01 2))) =
    (4, 0x01, .pending) := by decide

/-! ### FRAME, RX_POLL, RX_READ -/

-- W1
theorem test_frame_w1 : seen (after (.frame 0x08 0x01 [0x4E, 0x49]) (start cfgT)) = (0, 0x00, .available) ∧
    (after (.frame 0x08 0x01 [0x4E, 0x49]) (start cfgT)).rx.payload = [(0, 0x01), (1, 0x4E), (2, 0x49)] := by decide
-- S8: one byte too long for CFG_S (n = 4, terminator at position 9)
theorem test_frame_too_long : seen (after (.frame 0x08 0x01 [0x10, 0x20, 0x30, 0x40]) (start cfgS)) =
    (9, 0xA9, .error .packetExceedsCapacity) := by decide
-- W3: the poll stops at the error, 33 stays with the peer
theorem test_rxPoll_w3 :
    let t := after .rxPoll (queuePeer [0x7E, 0x00, 0x02, 0x01, 0x7E, 0x33] (start cfgT))
    seen t = (4, 0x01, .error .unexpectedStartByte) ∧ t.env.peer = .queue [0x33] ∧ t.trace.length = 10 := by decide
-- Q9
theorem test_rxPoll_q9 :
    (after .rxPoll (scriptEnv [true, true, true, false] [0xFF, 0x00, 0x55] [] (start cfgT))).trace =
      [.sig true, .xchg 0xFF 0xFF, .sig true, .xchg 0xFF 0x00, .sig true, .xchg 0xFF 0x55, .sig false] := by decide
-- W1's RX_READ, and the whole of it as one presented result
theorem test_rxRead_w1 :
    (after .rxRead (after (.frame 0x08 0x01 [0x4E, 0x49]) (start cfgT))).results =
      [.rxRead { outcome := .available, apiId := 0x08, lengthMsb := 0x00, lengthLsb := 0x04, declaredLength := 4,
                 recLen := 3, payload := [0x01, 0x4E, 0x49] }] := by decide
-- W7 after W4's overrun
theorem test_rxFreshPoll :
    let t := after .rxFreshPoll (queuePeer [0x7E, 0x00, 0x02, 0x08, 0x01, 0xF6] (after (.rxByte 0x07) (rxAt 9 0x15 9)))
    seen t = (0, 0x00, .available) ∧ t.rx.recLen = 1 ∧ t.rx.apiId = 0x08 := by decide

/-! ### RX_TIMED -/

-- T3: the worked example of R154
theorem test_rxTimed_t3 :
    let t := after (.rxTimed 10) (scriptEnv [false, false] [] [100, 100, 105, 111] (start cfgT))
    t.results = [.timed false] ∧
      t.trace = [.now 100, .now 100, .sig false, .now 105, .sig false, .now 111] := by decide
-- T4
theorem test_rxTimed_t4 :
    let t := after (.rxTimed 50) (queuePeer w1 (scriptEnv [] [] [0, 0] (start cfgT)))
    t.results = [.timed true] ∧ t.rx.recLen = 3 ∧ t.trace.length = 18 := by decide

/-! ### The transmitter and the backup buffer -/

-- X3: scattered contention
theorem test_txFrame_x3 :
    let t := after (.txFrame 0x08 0x01 [0x4E, 0x49]) (scriptEnv [false, true, true, false, true, false, false, false]
      [0x11, 0x22, 0x33, 0x44, 0x55, 0x66, 0x77, 0x88] [] (start cfgT))
    bkpCells t.bk t.bk.count = [0x33, 0x44, 0x66] ∧ sentBytes t.trace = w1 ∧ t.tx.sum = 0xA0 := by decide
-- X5: the drain stops on a full buffer
theorem test_txFrame_x5 :
    let t := after (.txFrame 0x08 0x01 [0x4E, 0x49])
      (queuePeer ((List.range 24).map fun k => BitVec.ofNat 8 (0xA0 + k)) (start cfgS))
    bkpCells t.bk t.bk.count = (List.range 12).map (fun k => BitVec.ofNat 8 (0xA1 + k)) ∧
      t.env.peer = .queue ((List.range 11).map fun k => BitVec.ofNat 8 (0xAD + k)) ∧
      t.trace.getLast? = some (.sig true) := by decide
-- the example of R163, both ways
theorem test_txEmit :
    (after (.txEmit 0x01) (scriptEnv [true] [0x42] [] (start cfgS))).bk = { data := [(0, 0x42)], count := 1 } ∧
      (after (.txEmit 0x01) (scriptEnv [false] [0x42] [] (start cfgS))).bk = { data := [], count := 0 } := by decide
-- the example of R166
theorem test_txDrain :
    (after .txDrain (scriptEnv [true, true, true] [0xA1, 0xA2, 0xA3] [] (bkAt 10))).bk.count = 12 ∧
      (after .txDrain (scriptEnv [true, true, true] [0xA1, 0xA2, 0xA3] [] (bkAt 10))).trace =
        [.sig true, .xchg 0xFF 0xA1, .sig true, .xchg 0xFF 0xA2, .sig true] := by decide
-- B1, B2
theorem test_bkAppend_last : Mem.read (after (.bkAppend 0x33) (bkAt 11)).bk.data 11 = some 0x33 ∧
    (after (.bkAppend 0x33) (bkAt 11)).bk.count = 12 := by decide
theorem test_bkAppend_full : nextOf (exec (.bkAppend 0x44) (bkAt 12)) = some (bkAt 12) := by decide
-- B3: the cells keep their bytes
theorem test_bkReset : (after .bkReset (bkAt 12)).bk.count = 0 ∧
    (after .bkReset (bkAt 12)).bk.data = (bkAt 12).bk.data := by decide
-- the example of R182, B5
theorem test_bkRead :
    (after .bkRead (after (.bkAppend 0x42) (bkAt 0))).results = [.bkRead { count := 1, data := [0x42] }] ∧
      (after .bkRead (bkAt 0)).results = [.bkRead { count := 0, data := [] }] := by decide
-- P1
theorem test_loopback_p1 :
    let t := after (.loopback 0x08 0x01 [0x4E, 0x49]) (start cfgT)
    seen t = (0, 0x00, .available) ∧ t.tx.sum = 0xA0 ∧ t.rx.payload = [(0, 0x01), (1, 0x4E), (2, 0x49)] := by decide

/-! ### Witnesses: for each statement with hypotheses, states and operands that meet them -/

theorem witness_CommandCodesNameTheirCommands :
    (Command.plain 0x0).op = 0x0 ∧ (Command.plain 0x1).op = 0x1 ∧ (Command.plain 0x2).op = 0x2 ∧
      (Command.plain 0x3).op = 0x3 ∧ (Command.plain 0x4).op = 0x4 ∧ (Command.plain 0x5).op = 0x5 ∧
      (Command.plain 0x6).op = 0x6 ∧ (Command.plain 0x7).op = 0x7 ∧ 8 ≤ (Command.plain 0x8).op.toNat ∧
      8 ≤ (Command.plain 0xF).op.toNat := by decide

theorem witness_NopDoesNothingAndReservedCodesAreRefused :
    8 ≤ (Command.plain 0x8).op.toNat ∧ (start cfgS).ctl = .idle ∧
      ((start cfgS).withFetchWord 8 0x8).env.host = Command.plain 0x8 :: [] := by decide

theorem witness_DecodeOfEncodeIsTheInstruction :
    encode (.txFrame 0x08 0x01 [0x4E]) =
      some { op := 0x5, deadlineMillis := 0, apiId := 0x08, frameId := 0x01, payload := [0x4E] } ∧
    encode (.reserved 7) = some (Command.plain 0xF) := by decide

/-- W1's frame, the shortest one, and the longest one that X10 allows. -/
theorem witness_FrameDecodeOfEncodeIsTheFrame :
    (Instr.frame 0x08 0x01 [0x4E, 0x49]).wellFormed 0x7E = true ∧ (Instr.frame 0x08 0x01 []).wellFormed 0x7E = true ∧
      LengthFits (List.replicate 65533 0xFF) := by
  refine ⟨by decide, by decide, ?_⟩
  simp only [LengthFits, List.length_replicate]
  decide

theorem witness_FrameDecoderAcceptsOnlyEncodedFrames :
    decodeFrame 0x7E (w1 ++ [0xFF, 0x7E]) = .ok (.frame 0x08 0x01 [0x4E, 0x49], [0xFF, 0x7E]) := by decide

theorem witness_StepRunsTheDecodedCommand :
    ((start cfgS).withFetchWord 8 0x2).ctl = .idle ∧
      ((start cfgS).withFetchWord 8 0x2).env.host = Command.plain 0x2 :: [] ∧ (start cfgS).env.host = [] ∧
      (startPoll .host (start cfgS)).ctl ≠ .idle := by decide

theorem witness_NoCommandIsTakenWhileOneIsInProgress :
    (startPoll .host (start cfgS)).ctl ≠ .idle ∧ (startPoll .host (start cfgS)).ctl = .poll .host ∧
      (startPoll (.timed 0 5) (start cfgS)).ctl = .poll (.timed 0 5) ∧
      (withCtl (.clockTest 0 5) (start cfgS)).ctl = .clockTest 0 5 := by decide

/-- The clauses on one iteration: a line asserted and one not; a byte that leaves the outcome PENDING and one that does
not; a clock at the deadline and one past it. -/
theorem witness_NoCommandIsTakenWhileOneIsInProgress_iteration :
    (let s := startPoll (.timed 0 5) (queuePeer [0x55] (start cfgS))
     signalAnswer s.env = true ∧ (advance s).rx.outcome = .pending) ∧
    (let s := startPoll .host (queuePeer [0x07] (rxAt 9 0x15 9))
     signalAnswer s.env = true ∧ (advance s).rx.outcome ≠ .pending) ∧
    signalAnswer (startPoll (.timed 0 5) (queuePeer [] (start cfgS))).env = false ∧
    (let s := withCtl (.clockTest 0 5) (scriptEnv [] [] [5] (start cfgS))
     (clockAnswer s.env : Int) - (0 : Nat) ≤ 5) ∧
    (let s := withCtl (.clockTest 0 5) (scriptEnv [] [] [6] (start cfgS))
     (5 : Int) < (clockAnswer s.env : Int) - (0 : Nat)) := by decide

theorem witness_CheckByteIsUniqueAndSingleChangesShow : (0x4E : Byte) ≠ 0x4F := by decide

theorem witness_RxByteRunsTheRowOfItsClass :
    ByteClass.data ≠ classify cfgS (rxAt 9 0x15 9).rx 0x07 ∧
      classify cfgS (rxAt 9 0x15 9).rx 0x07 = .overrun := by decide

/-- Positions 1 and CAP + 1 for the restart, CAP + 1 for the overrun. -/
theorem witness_EdgeRulesRecordTheErrorAndHold :
    (0 < (rxAt 1 0 9).rx.position ∧ (0x7E : Byte) = (rxAt 1 0 9).cfg.startByte) ∧
      (0 < (rxAt 9 0x15 9).rx.position ∧ (0x7E : Byte) = (rxAt 9 0x15 9).cfg.startByte) ∧
      ((0x07 : Byte) ≠ (rxAt 9 0x15 9).cfg.startByte ∧ (rxAt 9 0x15 9).cfg.cap < (rxAt 9 0x15 9).rx.position) := by
  decide

theorem witness_AwaitStartTakesOnlyStartByte :
    (rxAt 0 0 9).rx.position = 0 ∧ (0x7E : Byte) = (rxAt 0 0 9).cfg.startByte ∧
      (0xFF : Byte) ≠ (rxAt 0 0 9).cfg.startByte := by decide

theorem witness_HeaderBytesGoToTheirRegisters :
    (0x12 : Byte) ≠ (rxAt 1 0 9).cfg.startByte ∧ 3 ≤ (rxAt 1 0 9).cfg.cap ∧ (rxAt 1 0 9).rx.position = 1 ∧
      (rxAt 2 0 9).rx.position = 2 ∧ (rxAt 3 0 0).rx.position = 3 := by decide

/-- Positions 4 and CAP. -/
theorem witness_DataByteIsStoredAndSummed :
    ((0x01 : Byte) ≠ (rxAt 4 0x08 2).cfg.startByte ∧ 4 ≤ (rxAt 4 0x08 2).rx.position ∧
      (rxAt 4 0x08 2).rx.position ≤ (rxAt 4 0x08 2).cfg.cap ∧
      (rxAt 4 0x08 2).rx.position ≠ declaredLength (rxAt 4 0x08 2).rx + 3) ∧
    ((0x06 : Byte) ≠ (rxAt 8 0x0F 9).cfg.startByte ∧ 4 ≤ (rxAt 8 0x0F 9).rx.position ∧
      (rxAt 8 0x0F 9).rx.position ≤ (rxAt 8 0x0F 9).cfg.cap ∧
      (rxAt 8 0x0F 9).rx.position ≠ declaredLength (rxAt 8 0x0F 9).rx + 3) := by decide

/-- Y10 and Y11 at position 4, Y16 at position CAP. -/
theorem witness_TerminatorGivesTheVerdict :
    ((0xF7 : Byte) ≠ (rxAt 4 0x08 1).cfg.startByte ∧ 4 ≤ (rxAt 4 0x08 1).rx.position ∧
      (rxAt 4 0x08 1).rx.position ≤ (rxAt 4 0x08 1).cfg.cap ∧
      (rxAt 4 0x08 1).rx.position = declaredLength (rxAt 4 0x08 1).rx + 3 ∧
      (rxAt 4 0x08 1).rx.sum + 0xF7 = 0xFF ∧ (rxAt 4 0x08 1).rx.sum + 0xF6 ≠ 0xFF) ∧
    ((0x96 : Byte) ≠ (rxAt 8 0x69 5).cfg.startByte ∧ (rxAt 8 0x69 5).rx.position ≤ (rxAt 8 0x69 5).cfg.cap ∧
      (rxAt 8 0x69 5).rx.position = declaredLength (rxAt 8 0x69 5).rx + 3 ∧
      (rxAt 8 0x69 5).rx.sum + 0x96 = 0xFF) := by decide

theorem witness_OneErrorByPrecedence : (rxAt 9 0x15 9).rx.outcome = .pending := by decide

/-- A byte that does change a cell (Y17). -/
theorem witness_ReceiverNeverWritesOutOfBounds :
    nextOf (exec (.rxByte 0x06) (rxAt 8 0x0F 9)) = some (after (.rxByte 0x06) (rxAt 8 0x0F 9)) ∧
      Mem.read (after (.rxByte 0x06) (rxAt 8 0x0F 9)).rx.payload 4 ≠ Mem.read (rxAt 8 0x0F 9).rx.payload 4 := by
  decide

/-- W1 received in CFG_T, and a record as long as the buffer. -/
theorem witness_RxReadPresentsTheRecord :
    (after (.frame 0x08 0x01 [0x4E, 0x49]) (start cfgT)).rx.recLen ≤ cfgT.cap ∧
      ({ start cfgS with rx := { Rx.reset with recLen := 8 } } : State).rx.recLen ≤ cfgS.cap ∧
      Mem.read (after (.frame 0x08 0x01 [0x4E, 0x49]) (start cfgT)).rx.payload 2 = some 0x49 := by decide

theorem receivable_w1 : Receivable cfgT 0x08 0x01 [0x4E, 0x49] := by
  unfold Receivable
  decide

/-- S7: the largest receivable frame of CFG_S. -/
theorem receivable_s7 : Receivable cfgS 0x08 0x01 [0x10, 0x20, 0x30] := by
  unfold Receivable
  decide

theorem atFrameStart_reset (c : Cfg) : AtFrameStart (start c).rx := ⟨rfl, rfl⟩

/-- S10 with L = 1 (S2), and S7 with L + 3 = CAP. -/
theorem witness_ReceiverAcceptsExactlyValidFrames :
    AtFrameStart (start cfgS).rx ∧ (start cfgS).rx.outcome = .pending ∧
      (cfgS.startByte ∉ [0x00, 0xFF, 0x13] ++ [0x00, 0x01, 0x08] ++ [] ++ [0xF7] ∧
        1 ≤ 256 * (0x00 : Byte).toNat + (0x01 : Byte).toNat ∧
        ([] : List Byte).length + 1 = 256 * (0x00 : Byte).toNat + (0x01 : Byte).toNat) ∧
      (cfgS.startByte ∉ [] ++ [0x00, 0x05, 0x08] ++ [0x01, 0x10, 0x20, 0x30] ++ [0x96] ∧
        ([0x01, 0x10, 0x20, 0x30] : List Byte).length + 1 = 256 * (0x00 : Byte).toNat + (0x05 : Byte).toNat ∧
        256 * (0x00 : Byte).toNat + (0x05 : Byte).toNat + 3 ≤ cfgS.cap ∧
        byteSum ([0x08] ++ [0x01, 0x10, 0x20, 0x30] ++ [0x96]) = 0xFF ∧
        byteSum ([0x08] ++ [0x01, 0x10, 0x20, 0x30] ++ [0x97]) ≠ 0xFF) ∧
      Receivable cfgS 0x08 0x01 [0x10, 0x20, 0x30] :=
  ⟨atFrameStart_reset _, by decide, by decide, by decide, receivable_s7⟩

theorem witness_FrameRowDeliversAFrame :
    AtFrameStart (start cfgS).rx ∧ (start cfgS).rx.outcome = .pending ∧
      Receivable (start cfgS).cfg 0x08 0x01 [0x10, 0x20, 0x30] :=
  ⟨atFrameStart_reset _, by decide, receivable_s7⟩

theorem witness_FrameRowFeedsUntilTerminal :
    LengthFits [0x4E, 0x49] ∧ LengthFits (List.replicate 65533 0xFF) := by
  refine ⟨by decide, ?_⟩
  simp only [LengthFits, List.length_replicate]
  decide

/-- S3's flip at offset 5, S3b's at the check byte, and S4's, which makes a START_BYTE. -/
theorem witness_OneCorruptedByteIsNeverAccepted :
    AtFrameStart (start cfgT).rx ∧ (start cfgT).rx.outcome = .pending ∧
      Receivable (start cfgT).cfg 0x08 0x01 [0x4E, 0x49] ∧
      ((frameBytes 0x7E 0x08 0x01 [0x4E, 0x49])[5]? ≠ some 0x4F ∧ (0x4F : Byte) ≠ cfgT.startByte) ∧
      ((frameBytes 0x7E 0x08 0x01 [0x4E, 0x49])[7]? ≠ some 0xDF ∧ 7 < ([0x4E, 0x49] : List Byte).length + 6) ∧
      ((frameBytes 0x7E 0x08 0x01 [0x4E, 0x49])[3]? ≠ some 0x7E ∧ (0x7E : Byte) = cfgT.startByte) :=
  ⟨atFrameStart_reset _, by decide, receivable_w1, by decide, by decide, by decide⟩

/-- S5 (declared length 0) at position 3, W4 (declared length 9) at positions 3 and CAP. -/
theorem witness_OverlongAndZeroLengthFramesOverrun :
    ((rxAt 3 0 0).rx.outcome = .pending ∧ 3 ≤ (rxAt 3 0 0).rx.position ∧ (rxAt 3 0 0).rx.position ≤ cfgS.cap ∧
      declaredLength (rxAt 3 0 0).rx = 0 ∧ cfgS.startByte ∉ [0x08, 0x01, 0x02, 0x03, 0x04, 0x05] ∧
      ([0x08, 0x01, 0x02, 0x03, 0x04, 0x05] : List Byte).length = cfgS.cap + 1 - (rxAt 3 0 0).rx.position) ∧
    (cfgS.cap < declaredLength (rxAt 3 0 9).rx + 3 ∧ (rxAt 8 0x0F 9).rx.position ≤ cfgS.cap ∧
      cfgS.cap < declaredLength (rxAt 8 0x0F 9).rx + 3 ∧
      ([0x06] : List Byte).length = cfgS.cap + 1 - (rxAt 8 0x0F 9).rx.position ∧
      (0x07 : Byte) ≠ cfgS.startByte) := by decide

/-- Positions 1 and CAP + 1; and Q9's bytes at position 0. -/
theorem witness_PollIsBoundedOnlyInsideAFrame :
    ((rxAt 1 0 9).rx.outcome = .pending ∧ 1 ≤ (rxAt 1 0 9).rx.position ∧
      (rxAt 9 0x15 9).rx.position ≤ (rxAt 9 0x15 9).cfg.cap + 1 ∧
      (List.replicate 9 (0x00 : Byte)).length = (rxAt 1 0 9).cfg.cap + 1) ∧
    ((start cfgT).rx.position = 0 ∧ cfgT.startByte ∉ [0xFF, 0x00, 0x55] ∧
      (scriptEnv (List.replicate 3 true) [0xFF, 0x00, 0x55] [] (start cfgT)).env.peer =
        .script (List.replicate 3 true) [0xFF, 0x00, 0x55]) := by decide

theorem witness_PollAgainstAQueueCompletes :
    (queuePeer w1 (start cfgT)).env.peer = .queue w1 ∧ (queuePeer [] (start cfgT)).env.peer = .queue [] := by decide

/-- A poll in progress, and a script that it meets. -/
theorem witness_PollWhateverThePeerAnswers :
    let s := startPoll .host (scriptEnv [true, true, false] [0x7E, 0x00] [] (start cfgS))
    s.ctl = .poll .host ∧ s.rx.outcome = .pending ∧ s.env.peer = .script [true, true, false] [0x7E, 0x00] := by decide

theorem witness_PollOfAnIdleLineOnlyDiscards :
    signalAnswer (scriptEnv [false] [] [] (start cfgT)).env = false ∧
      signalAnswer (queuePeer [] (start cfgT)).env = false := by decide

/-- Q6: a byte other than START_BYTE and START_BYTE. -/
theorem witness_OverrunRepeatsUntilReset :
    (queuePeer [0x08, 0x09] (rxAt 9 0x15 9)).rx.position = cfgS.cap + 1 ∧
      (queuePeer [0x08, 0x09] (rxAt 9 0x15 9)).env.peer = .queue (0x08 :: [0x09]) ∧
      (queuePeer [0x7E, 0x0A] (rxAt 9 0x15 9)).env.peer = .queue (0x7E :: [0x0A]) := by decide

theorem witness_FreshPollParsesAFreshFrame :
    Receivable (rxAt 9 0x15 9).cfg 0x08 0x01 [0x10, 0x20, 0x30] ∧
      (queuePeer (frameBytes 0x7E 0x08 0x01 [0x10, 0x20, 0x30] ++ [0x7E]) (rxAt 9 0x15 9)).env.peer =
        .queue (frameBytes (rxAt 9 0x15 9).cfg.startByte 0x08 0x01 [0x10, 0x20, 0x30] ++ [0x7E]) :=
  ⟨receivable_s7, by decide⟩

theorem witness_NonPositiveDeadlineIsRejectedAtOnce : (0 : Int) ≤ 0 ∧ (-5 : Int) ≤ 0 := by decide

/-- T4 and T5, and a second answer exactly at the deadline. -/
theorem witness_TimedReceiveReturnsThePollsVerdict :
    let s := queuePeer w1 (scriptEnv [] [] [0, 50] (start cfgT))
    let t := after .rxPoll { s with trace := [.now 0, .now 50], env := { s.env with clock := 50, ticks := [] } }
    s.env.ticks = 0 :: 50 :: [] ∧ ((50 : Nat) : Int) ≤ 50 ∧
      nextOf (exec .rxPoll { s with trace := [.now 0, .now 50], env := { s.env with clock := 50, ticks := [] } }) =
        some t ∧
      t.ctl = .idle ∧ t.rx.outcome = .available := by decide

/-- The same with an error verdict: W1's frame with a wrong check byte. -/
theorem witness_TimedReceiveReturnsThePollsVerdict_error :
    let s := queuePeer (w1.dropLast ++ [0x5E]) (scriptEnv [] [] [0, 50] (start cfgT))
    let t := after .rxPoll { s with trace := [.now 0, .now 50], env := { s.env with clock := 50, ticks := [] } }
    s.env.ticks = 0 :: 50 :: [] ∧ ((50 : Nat) : Int) ≤ 50 ∧
      nextOf (exec .rxPoll { s with trace := [.now 0, .now 50], env := { s.env with clock := 50, ticks := [] } }) =
        some t ∧
      t.ctl = .idle ∧ t.rx.outcome = .error .checksumFailure := by decide

/-- T8. -/
theorem witness_TimeoutBeforeAnyPollTouchesNothing :
    (0 : Int) < 10 ∧ (scriptEnv [] [] [0, 11] (start cfgT)).env.ticks = 0 :: 11 :: [] ∧
      (10 : Int) < ((11 : Nat) : Int) := by decide

/-- T7: elapsed times 10, 10 and 11 against a deadline of 10. -/
theorem witness_TimedReceiveSpinsUntilTheDeadline :
    (0 : Int) < 10 ∧ (queuePeer [] (scriptEnv [] [] [0, 10, 10, 11] (start cfgT))).env.peer = .queue [] ∧
      (queuePeer [] (scriptEnv [] [] [0, 10, 10, 11] (start cfgT))).env.ticks = 0 :: ([10, 0] ++ 1 :: []) ∧
      (([10, 0] : List Nat).sum : Int) ≤ 10 ∧ (10 : Int) < ((([10, 0] : List Nat).sum + 1 : Nat) : Int) ∧
      ([10, 0] : List Nat) ≠ [] := by decide

theorem witness_TimedReceiveResultMeansAvailable : (start cfgT).ctl = .idle := by decide

theorem witness_TransmitEventsAndCaptures : LengthFits [] ∧ LengthFits (List.replicate 65533 0xFF) := by
  refine ⟨by decide, ?_⟩
  simp only [LengthFits, List.length_replicate]
  decide

/-- A queue longer than the frame, and X3's script. -/
theorem witness_TransmitEventsAndCaptures_peers :
    (queuePeer ((List.range 24).map fun k => BitVec.ofNat 8 (0xA0 + k)) (start cfgS)).env.peer =
      .queue ((List.range 24).map fun k => BitVec.ofNat 8 (0xA0 + k)) ∧
    (scriptEnv ([false, true, true, false, true, false, false] ++ [false])
      (0x11 :: [0x22, 0x33, 0x44, 0x55, 0x66, 0x77, 0x88]) [] (start cfgT)).env.peer =
      .script ([false, true, true, false, true, false, false] ++ [false])
        (0x11 :: [0x22, 0x33, 0x44, 0x55, 0x66, 0x77, 0x88]) ∧
    [false, true, true, false, true, false, false].length = ([0x4E, 0x49] : List Byte).length + 5 ∧
    ([0x22, 0x33, 0x44, 0x55, 0x66, 0x77, 0x88] : List Byte).length = ([0x4E, 0x49] : List Byte).length + 5 := by
  decide

/-- R166's example, a buffer with room for two of three bytes, and a full one. -/
theorem witness_DrainStopsOnLineOrFullBuffer :
    (queuePeer [0xA1, 0xA2, 0xA3] (bkAt 10)).env.peer = .queue [0xA1, 0xA2, 0xA3] ∧
      2 = (bkAt 10).cfg.mfs - (bkAt 10).bk.count ∧
      (queuePeer [0xA1] (bkAt 12)).env.peer = .queue [0xA1] ∧ 0 = (bkAt 12).cfg.mfs - (bkAt 12).bk.count := by decide

theorem witness_BytesSentDependOnTheOperandsOnly : LengthFits [0x4E, 0x49] := by decide

theorem witness_AppendStoresAtTheCursorUntilFull :
    (bkAt 11).bk.count < (bkAt 11).cfg.mfs ∧ (bkAt 12).cfg.mfs ≤ (bkAt 12).bk.count := by decide

/-- An empty buffer and a full one. -/
theorem witness_BkReadPresentsTheCaptures :
    (bkAt 0).bk.count ≤ (bkAt 0).cfg.mfs ∧ (bkAt 12).bk.count ≤ (bkAt 12).cfg.mfs ∧
      Mem.read (bkAt 12).bk.data 11 = some 0x00 := by decide

/-- An operation other than BK_RESET on a buffer that holds bytes. -/
theorem witness_OnlyBkResetEmptiesTheBuffer :
    Instr.bkAppend 0x33 ≠ .bkReset ∧
      nextOf (exec (.bkAppend 0x33) (bkAt 11)) = some (after (.bkAppend 0x33) (bkAt 11)) ∧
      nextOf (exec .rxReset (bkAt 11)) = some (after .rxReset (bkAt 11)) ∧ 10 < (bkAt 11).bk.count := by decide

theorem witness_LoopbackReturnsTheFrame :
    AtFrameStart (start cfgS).rx ∧ Receivable (start cfgS).cfg 0x08 0x01 [0x10, 0x20, 0x30] :=
  ⟨atFrameStart_reset _, receivable_s7⟩

theorem witness_LoopbackIsTransmitThenPoll : LengthFits [0x4E, 0x49] := by decide

/-- One byte too many, one cell too many. -/
theorem witness_OverlongOperandsAndAbsentCellsStop :
    ¬ LengthFits (List.replicate 65534 0xFF) ∧
      cfgS.cap < ({ start cfgS with rx := { Rx.reset with recLen := 9 } } : State).rx.recLen ∧
      (bkAt 13).cfg.mfs < (bkAt 13).bk.count := by
  refine ⟨?_, by decide, by decide⟩
  simp only [LengthFits, List.length_replicate]
  decide

/-- An operation named by none of the first five tables, and one named by none of the six. -/
theorem witness_OnlyTheNamedOperationsWrite :
    nextOf (exec (.ckCompute .tx) (rxAt 5 0x09 4)) = some (after (.ckCompute .tx) (rxAt 5 0x09 4)) ∧
      writesRx (.ckCompute .tx) = false ∧ writesTx (.ckCompute .tx) = false ∧ writesBk (.ckCompute .tx) = false ∧
      callsEnvironment (.ckCompute .tx) = false ∧ presents (.ckCompute .tx) = false ∧
      nextOf (exec .nop (rxAt 5 0x09 4)) = some (rxAt 5 0x09 4) ∧ writesMicro .nop = false := by decide

theorem witness_ClockAndLogsOnlyAdvance :
    let s := (scriptEnv [true, false] [0x55] [] (start cfgT)).withFetchWord 8 0x2
    (nextOf (step s)).map (·.trace) = some [.sig true, .xchg 0xFF 0x55, .sig false] := by decide

/-- W1 received up to its frame-id, in CFG_S, with RX_POLL as the host's next command. -/
def midFrame : State :=
  { (start cfgS) with
    rx := { Rx.reset with
      position := 5, lengthLsb := 4, apiId := 0x08, sum := 0x09, payload := [(0, 0x01)] },
    env := { Env.initial with host := [Command.plain 0x2], peer := .queue [0x4E] } }

theorem midFrame_inv : BlockInv midFrame where
  cfg_valid := by decide
  position_le := by decide
  sum_clear := by decide
  sum_running := by decide
  count_le := by decide
  recLen_le := by decide
  available_closed := by decide
  failure_closed := by decide
  overrun_held := by decide
  restart_held := by decide
  stream_written := by
    intro i h
    obtain rfl : i = 0 := by simp only [midFrame] at h; omega
    decide
  record_written := by
    intro i h
    exact absurd h (Nat.not_lt_zero i)
  capture_written := by
    intro i h
    exact absurd h (Nat.not_lt_zero i)
  pay_bound := by
    intro i h
    by_cases hi : i = 0
    · subst hi; decide
    · simp [midFrame, Mem.read, Ne.symm hi, Mem.unlisted] at h
  bkp_bound := by
    intro i h
    cases (show (Mem.unlisted : Option Byte).isSome = true from h)
  pay_wf := by decide
  bkp_wf := by decide
  poll_pending := by
    intro c h
    exact absurd h (by simp [midFrame, start, State.reset])
  timed_poll := by
    intro t0 d h
    exact absurd h (by simp [midFrame, start, State.reset])
  timed_test := by
    intro t0 d h
    exact absurd h (by simp [midFrame, start, State.reset])

theorem witness_EveryStepKeepsTheInvariants :
    BlockInv midFrame ∧ (nextOf (step midFrame)).map (fun t => (t.rx.position, t.rx.sum)) = some (6, 0x57) :=
  ⟨midFrame_inv, by decide⟩

theorem witness_AHostWithinItsContractNeverStopsTheBlock : BlockInv midFrame ∧ HostWithinContract midFrame :=
  ⟨midFrame_inv, by
    intro c hc
    obtain rfl : c = Command.plain 0x2 := by simpa [midFrame] using hc
    exact ⟨.rxPoll, rfl, rfl⟩⟩

/-- Two states that differ in `tx.sum`, in a stale PAY cell and in a BKP cell above the cursor. -/
theorem witness_HiddenStateNeverShows :
    AlikeToTheHost midFrame
      { midFrame with
        tx := { sum := 0xA0 },
        bk := { data := [(3, 0x55)], count := 0 },
        rx := { midFrame.rx with payload := [(0, 0x01), (2, 0x99)] } } where
  cfg := rfl
  registers := rfl
  recorded := by
    intro i h
    exact absurd h (Nat.not_lt_zero i)
  inProgress := by
    intro i h
    obtain rfl : i = 0 := by simp only [midFrame] at h; omega
    rfl
  count := rfl
  captured := by
    intro i h
    exact absurd h (Nat.not_lt_zero i)
  ctl := rfl
  results := rfl
  micro := rfl
  trace := rfl
  env := rfl

end Sys2Proof.Tests
end

section
/-! SUPPORT. One step of the block, by what is in progress; and what one iteration of a poll or of RX_TIMED's clock test
does, on top of the case lemmas of Laws/Polling. -/

namespace Sys2Proof.Machine

/-! ### The three cases of a step (R10, R12, R196) -/

theorem step_command {s : State} {c : Command} {cs : List Command} (hi : s.ctl = .idle) (hc : s.env.host = c :: cs) :
    step s = exec (decode c).instr (withHost cs s) := by
  simp [step, fetchCommand, hi, hc]

theorem step_no_command {s : State} (hi : s.ctl = .idle) (hc : s.env.host = []) : step s = .next s := by
  simp [step, fetchCommand, hi, hc]

theorem step_in_progress {s : State} (h : s.ctl ≠ .idle) : step s = .next (resume s) := by
  cases hc : s.ctl with
  | idle => exact absurd hc h
  | poll c => simp only [step, hc]
  | clockTest t0 d => simp only [step, hc]

/-! ### How a poll returns (R132, R150) -/

@[simp] theorem endTimed_ctl (ok : Bool) (s : State) : (endTimed ok s).ctl = .idle := rfl
@[simp] theorem endTimed_rx (ok : Bool) (s : State) : (endTimed ok s).rx = s.rx := rfl
@[simp] theorem endTimed_trace (ok : Bool) (s : State) : (endTimed ok s).trace = s.trace := rfl
@[simp] theorem endTimed_env (ok : Bool) (s : State) : (endTimed ok s).env = s.env := rfl
@[simp] theorem endTimed_results (ok : Bool) (s : State) : (endTimed ok s).results = s.results ++ [.timed ok] := rfl

theorem endPoll_host (s : State) : endPoll .host s = withCtl .idle s := rfl

theorem endPoll_timed_pending {t0 : Nat} {d : Int} {s : State} (h : s.rx.outcome = .pending) :
    endPoll (.timed t0 d) s = withCtl (.clockTest t0 d) s := by
  simp [endPoll, h]

theorem endPoll_timed_terminal {t0 : Nat} {d : Int} {s : State} (h : s.rx.outcome ≠ .pending) :
    endPoll (.timed t0 d) s = endTimed (decide (s.rx.outcome = .available)) s := by
  cases ho : s.rx.outcome with
  | pending => exact absurd ho h
  | available => simp [endPoll, ho]
  | error k => simp [endPoll, ho]

/-- The return of a poll touches neither the receiver nor the trace nor the environment. -/
theorem endPoll_frame (c : Caller) (s : State) :
    (endPoll c s).rx = s.rx ∧ (endPoll c s).trace = s.trace ∧ (endPoll c s).env = s.env := by
  rcases endPoll_cases c s with ⟨-, h⟩ | ⟨t0, d, -, -, h⟩ | ⟨t0, d, k, -, -, h⟩ | ⟨t0, d, -, -, h⟩ <;> simp [h]

@[simp] theorem endPoll_rx (c : Caller) (s : State) : (endPoll c s).rx = s.rx := (endPoll_frame c s).1
@[simp] theorem endPoll_trace (c : Caller) (s : State) : (endPoll c s).trace = s.trace := (endPoll_frame c s).2.1
@[simp] theorem endPoll_env (c : Caller) (s : State) : (endPoll c s).env = s.env := (endPoll_frame c s).2.2

/-! ### One iteration of a poll (R132, D16, D17) -/

section poll
variable {s : State} {c : Caller} (hc : s.ctl = .poll c)
include hc

/-- With the line deasserted a poll returns after the one signal read. -/
theorem advance_poll_deasserted (hs : signalAnswer s.env = false) : advance s = endPoll c (readSignal s) := by
  simp [advance_poll hc, pollIteration, hs]

/-- With the line asserted RX_BYTE gets the byte the environment answers to one exchange. -/
theorem advance_poll_asserted (hs : signalAnswer s.env = true) :
    (advance s).rx = stepByte s.cfg (exchangeAnswer (afterSignal s.env)) s.rx ∧
    (advance s).trace =
      s.trace ++ [.sig true, .xchg s.cfg.fillerByte (exchangeAnswer (afterSignal s.env))] ∧
    (advance s).env = afterExchange (afterSignal s.env) := by
  rw [advance_poll hc]
  rcases pollIteration_cases c s with ⟨hf, -⟩ | ⟨-, -, h⟩ | ⟨-, -, h⟩
  · simp [hs] at hf
  · simp [h, hs]
  · simp [h, hs]

/-- A byte that leaves the outcome PENDING leaves the poll in progress. -/
theorem advance_poll_pending (hs : signalAnswer s.env = true) (hp : (advance s).rx.outcome = .pending) :
    (advance s).ctl = s.ctl ∧ (advance s).results = s.results := by
  rw [advance_poll hc] at hp ⊢
  rcases pollIteration_cases c s with ⟨hf, -⟩ | ⟨-, -, h⟩ | ⟨-, hn, h⟩
  · simp [hs] at hf
  · simp [h]
  · exact absurd (by simpa only [h, endPoll_rx] using hp) hn

/-- A deasserted line or a terminal outcome makes the poll return. -/
theorem advance_poll_return (h : signalAnswer s.env = false ∨ (advance s).rx.outcome ≠ .pending) :
    ∃ u, u.results = s.results ∧ advance s = endPoll c u := by
  rw [advance_poll hc] at h ⊢
  rcases pollIteration_cases c s with ⟨-, e⟩ | ⟨ht, hp, e⟩ | ⟨-, -, e⟩
  · exact ⟨readSignal s, rfl, e⟩
  · simp [-pullByte_rx, ht, e, hp] at h
  · exact ⟨pullByte (readSignal s), rfl, e⟩

/-- Each iteration of a poll leaves it in progress with nothing presented, or makes it return. -/
theorem advance_poll_continues_or_returns :
    ((advance s).ctl = s.ctl ∧ (advance s).results = s.results) ∨
      (signalAnswer s.env = false ∨ (advance s).rx.outcome ≠ .pending) := by
  cases hs : signalAnswer s.env with
  | false => exact .inr (.inl rfl)
  | true =>
    by_cases hp : (advance s).rx.outcome = .pending
    · exact .inl (advance_poll_pending hc hs hp)
    · exact .inr (.inr hp)

end poll

theorem advance_poll_return_host {s : State} (hc : s.ctl = .poll .host)
    (h : signalAnswer s.env = false ∨ (advance s).rx.outcome ≠ .pending) :
    (advance s).ctl = .idle ∧ (advance s).results = s.results := by
  obtain ⟨u, hu, e⟩ := advance_poll_return hc h
  rw [e]
  exact ⟨rfl, hu⟩

/-- A poll returns to RX_TIMED, which goes to its clock test or ends with its verdict (R150). -/
theorem advance_poll_return_timed {s : State} {t0 : Nat} {d : Int} (hc : s.ctl = .poll (.timed t0 d))
    (h : signalAnswer s.env = false ∨ (advance s).rx.outcome ≠ .pending) :
    ((advance s).rx.outcome = .pending → (advance s).ctl = .clockTest t0 d ∧ (advance s).results = s.results) ∧
    ((advance s).rx.outcome ≠ .pending → (advance s).ctl = .idle ∧
      (advance s).results = s.results ++ [.timed (decide ((advance s).rx.outcome = .available))]) := by
  obtain ⟨u, hu, e⟩ := advance_poll_return hc h
  rw [e, endPoll_rx]
  constructor
  · intro hp
    simp [endPoll_timed_pending hp, hu]
  · intro hp
    simp [endPoll_timed_terminal hp, hu]

/-! ### One iteration of RX_TIMED's clock test (R150, R153, D24) -/

section test
variable {s : State} {t0 : Nat} {d : Int} (hc : s.ctl = .clockTest t0 d)
include hc

theorem advance_clockTest_frame :
    (advance s).trace = s.trace ++ [.now (clockAnswer s.env)] ∧ (advance s).env = afterClock s.env := by
  rw [advance_clockTest hc]
  rcases clockIteration_cases t0 d s with ⟨-, h⟩ | ⟨-, h⟩ <;> simp [h]

/-- Within the deadline a poll starts, with the outcome discarded (D11). -/
theorem advance_clockTest_within (h : (clockAnswer s.env : Int) - t0 ≤ d) :
    (advance s).ctl = .poll (.timed t0 d) ∧ (advance s).rx = { s.rx with outcome := .pending } ∧
      (advance s).results = s.results := by
  simp [advance_clockTest hc, clockIteration_within h, discardOutcome_eq]

theorem advance_clockTest_past (h : d < (clockAnswer s.env : Int) - t0) :
    (advance s).ctl = .idle ∧ (advance s).rx = s.rx ∧ (advance s).results = s.results ++ [.timed false] := by
  simp [advance_clockTest hc, clockIteration_past h]

end test

/-! ### Any number of iterations -/

/-- An iteration that does not end the operation presents nothing. -/
theorem advance_results_of_in_progress {s : State} (h : (advance s).ctl ≠ .idle) : (advance s).results = s.results := by
  cases hc : s.ctl with
  | idle => rw [advance_idle hc]
  | poll c =>
    rcases advance_poll_continues_or_returns hc with ⟨-, hres⟩ | hr
    · exact hres
    · cases c with
      | host => exact (advance_poll_return_host hc hr).2
      | timed t0 d =>
        obtain ⟨hpending, hterminal⟩ := advance_poll_return_timed hc hr
        by_cases hp : (advance s).rx.outcome = .pending
        · exact (hpending hp).2
        · exact absurd (hterminal hp).1 h
  | clockTest t0 d =>
    rcases le_or_gt ((clockAnswer s.env : Int) - t0) d with hw | hw
    · exact (advance_clockTest_within hc hw).2.2
    · exact absurd (advance_clockTest_past hc hw).1 h

theorem resume_results_of_in_progress {s : State} (h : (resume s).ctl ≠ .idle) : (resume s).results = s.results := by
  refine resume_induct (P := fun t => t.ctl ≠ .idle → t.results = s.results) ?_ s (fun _ => rfl) h
  intro t ih ht
  have hprev : t.ctl ≠ .idle := fun hi => ht (by rw [advance_idle hi, hi])
  rw [advance_results_of_in_progress ht, ih hprev]

/-- How far an RX_TIMED that was in progress at `s` has come at `t`. An outcome AVAILABLE at the clock test can only be
the one of `s`, since every poll in between discards it (D11) and AVAILABLE ends RX_TIMED. -/
inductive TimedRun (t0 : Nat) (d : Int) (s t : State) : Prop where
  | polling (hc : t.ctl = .poll (.timed t0 d)) (hr : t.results = s.results)
  | testing (hc : t.ctl = .clockTest t0 d) (hr : t.results = s.results)
      (ho : t.rx.outcome = .available → t.rx = s.rx)
  | ended (ok : Bool) (hc : t.ctl = .idle) (hr : t.results = s.results ++ [.timed ok])
      (htrue : ok = true → t.rx.outcome = .available)
      (hfalse : ok = false → t.rx.outcome = .available → t.rx = s.rx)

theorem timedRun_advance {t0 : Nat} {d : Int} {s t : State} (h : TimedRun t0 d s t) :
    TimedRun t0 d s (advance t) := by
  cases h with
  | polling hc hr =>
    rcases advance_poll_continues_or_returns hc with ⟨hctl, hres⟩ | hret
    · exact .polling (hctl.trans hc) (hres.trans hr)
    · obtain ⟨hpending, hterminal⟩ := advance_poll_return_timed hc hret
      by_cases hp : (advance t).rx.outcome = .pending
      · obtain ⟨hctl, hres⟩ := hpending hp
        exact .testing hctl (hres.trans hr) (by simp [hp])
      · obtain ⟨hctl, hres⟩ := hterminal hp
        exact .ended _ hctl (hr ▸ hres) of_decide_eq_true (fun hno hav => absurd hav (of_decide_eq_false hno))
  | testing hc hr ho =>
    rcases le_or_gt ((clockAnswer t.env : Int) - t0) d with hw | hw
    · obtain ⟨hctl, -, hres⟩ := advance_clockTest_within hc hw
      exact .polling hctl (hres.trans hr)
    · obtain ⟨hctl, hrx, hres⟩ := advance_clockTest_past hc hw
      exact .ended false hctl (hr ▸ hres) (by simp) (fun _ => hrx ▸ ho)
  | ended ok hc hr htrue hfalse =>
    rw [advance_idle hc]
    exact .ended ok hc hr htrue hfalse

theorem timedRun_resume {t0 : Nat} {d : Int} {s : State}
    (h : s.ctl = .poll (.timed t0 d) ∨ s.ctl = .clockTest t0 d) : TimedRun t0 d s (resume s) := by
  refine resume_induct (P := TimedRun t0 d s) (fun _ => timedRun_advance) s ?_
  rcases h with hc | hc
  · exact .polling hc rfl
  · exact .testing hc rfl (fun _ => rfl)

end Sys2Proof.Machine
end

section
/-! The statements of 00_scope.md: a step, and an operation in progress. -/

namespace Sys2Proof.Proofs

open Sys2Proof.Machine Sys2Proof.Claims

/-- Settles O8, one clause for each of the three cases of a step. -/
theorem stepRunsTheDecodedCommand : Obligations.StepRunsTheDecodedCommand := by
  unfold Obligations.StepRunsTheDecodedCommand
  exact ⟨fun _ _ _ => step_command, fun _ => step_no_command, fun _ => step_in_progress⟩

/-- Settles O9: the frame of `resume`, the invariant `TimedRun` through the iterations of one step, and one iteration of
the poll and of the clock test. -/
theorem noCommandIsTakenWhileOneIsInProgress : Obligations.NoCommandIsTakenWhileOneIsInProgress := by
  unfold Obligations.NoCommandIsTakenWhileOneIsInProgress
  refine ⟨?step, ?timed, ?poll, ?test⟩
  case step =>
    intro s hs
    obtain ⟨-, hbk, htx, -, hhost⟩ := resume_frame s
    exact ⟨resume s, step_in_progress hs, hhost, hbk, htx, resume_results_of_in_progress,
      fun hc => (advanceBy_host_poll _ s hc).2⟩
  case timed =>
    intro s t0 d hs
    have hne : s.ctl ≠ .idle := by rcases hs with hc | hc <;> simp [hc]
    refine ⟨resume s, step_in_progress hne, ?_⟩
    cases timedRun_resume hs with
    | polling hc hr => exact .inl ⟨.inl hc, hr⟩
    | testing hc hr _ => exact .inl ⟨.inr hc, hr⟩
    | ended ok hc hr htrue hfalse => exact .inr ⟨hc, ok, hr, htrue, hfalse⟩
  case poll =>
    intro s c hc
    refine ⟨fun hs => ?_, fun hs => ?_, fun hret => ⟨?_, ?_⟩⟩
    · obtain ⟨hrx, htrace, henv⟩ := advance_poll_asserted hc hs
      exact ⟨hrx, htrace, henv, advance_poll_pending hc hs⟩
    · simp [advance_poll_deasserted hc hs, hs]
    · rintro rfl
      exact advance_poll_return_host hc hret
    · rintro t0 d rfl
      exact advance_poll_return_timed hc hret
  case test =>
    intro s t0 d hc
    obtain ⟨htrace, henv⟩ := advance_clockTest_frame hc
    exact ⟨htrace, henv, advance_clockTest_within hc, advance_clockTest_past hc⟩

end Sys2Proof.Proofs
end

section
/-! SUPPORT. The operations a host command can name (30_encoding.md R96, R97), the cases of a step by them, what an
operation that can stop answers when it does not, and one iteration on the receiver's record. -/

namespace Sys2Proof.Machine

/-- The eight commands of R96 and the refused codes of R97: what the command decoder can answer. -/
inductive HostCommand : Instr → Prop
  | nop : HostCommand .nop
  | rxReset : HostCommand .rxReset
  | rxPoll : HostCommand .rxPoll
  | rxTimed (d : Int) : HostCommand (.rxTimed d)
  | rxRead : HostCommand .rxRead
  | txFrame (apiId frameId : Byte) (payload : List Byte) : HostCommand (.txFrame apiId frameId payload)
  | bkReset : HostCommand .bkReset
  | bkRead : HostCommand .bkRead
  | reserved (low : BitVec 3) : HostCommand (.reserved low)

theorem hostCommand_decode (c : Command) : HostCommand (decode c).instr := by
  unfold decode
  split <;> constructor

/-- A property of steps holds if it holds of the idle block without a command, of every host command issued to an idle
block, and of an operation in progress. -/
theorem step_induct {P : State → Prop} (s : State) (hidle : s.ctl = .idle → s.env.host = [] → P s)
    (hcommand : ∀ i cs t, s.ctl = .idle → HostCommand i → exec i (withHost cs s) = .next t → P t)
    (hprogress : s.ctl ≠ .idle → P (resume s)) {t : State} (h : step s = .next t) : P t := by
  by_cases hc : s.ctl = .idle
  · cases hh : s.env.host with
    | nil =>
      obtain rfl : s = t := by simpa [step_no_command hc hh] using h
      exact hidle hc hh
    | cons c cs => exact hcommand _ cs t hc (hostCommand_decode c) (step_command hc hh ▸ h)
  · obtain rfl : resume s = t := by simpa [step_in_progress hc] using h
    exact hprogress hc

/-! ### The operations that answer under a guard only (R14, R160; log 7, 9) -/

/-- An operation that stops when its guard fails has answered with its effect, if it answered. -/
theorem eq_of_guarded {p : Prop} [Decidable p] {u t : State} {stop : Host.Outcome State Fault Refusal}
    (h : (if p then .next u else stop) = .next t) (hstop : ∀ v, stop ≠ .next v) : t = u := by
  split at h
  · exact (Host.Outcome.next.inj h).symm
  · exact absurd h (hstop t)

section guarded
variable {apiId frameId : Byte} {payload : List Byte} {s t : State}

theorem execTxFrame_next (h : execTxFrame apiId frameId payload s = .next t) : t = txFrame apiId frameId payload s :=
  eq_of_guarded h nofun

theorem execFrame_next (h : execFrame apiId frameId payload s = .next t) :
    t = feed (frameBytes s.cfg.startByte apiId frameId payload) s :=
  eq_of_guarded h nofun

theorem execLoopback_next (h : execLoopback apiId frameId payload s = .next t) :
    t = loopback apiId frameId payload s :=
  eq_of_guarded h nofun

theorem execRxRead_next (h : execRxRead s = .next t) : t = present (.rxRead (rxRecord s.rx)) s :=
  eq_of_guarded h nofun

theorem execBkRead_next (h : execBkRead s = .next t) : t = present (.bkRead (bkRecord s.bk)) s :=
  eq_of_guarded h nofun

end guarded

/-- RX_TIMED rejects a deadline that is not positive, and else keeps the time it started at (R150, R152). -/
theorem execRxTimed_cases (d : Int) (s : State) :
    (d ≤ 0 ∧ execRxTimed d s = .next (present (.timed false) s)) ∨
    (0 < d ∧ execRxTimed d s = .next (resume (withCtl (.clockTest (clockAnswer s.env) d) (readClock s)))) := by
  unfold execRxTimed
  split
  · exact .inl ⟨‹_›, rfl⟩
  · exact .inr ⟨by omega, rfl⟩

/-- What one iteration does to the receiver's record: nothing, one RX_BYTE of a poll, or the discard of a new poll. -/
theorem advance_rx_cases (s : State) :
    (advance s).rx = s.rx ∨ (∃ c b, s.ctl = .poll c ∧ (advance s).rx = stepByte s.cfg b s.rx) ∨
      (advance s).rx = discardOutcome s.rx := by
  cases hc : s.ctl with
  | idle => exact .inl (by rw [advance_idle hc])
  | poll c =>
    cases hs : signalAnswer s.env with
    | false => exact .inl (by simp [advance_poll_deasserted hc hs])
    | true => exact .inr (.inl ⟨c, _, rfl, (advance_poll_asserted hc hs).1⟩)
  | clockTest t0 d =>
    rcases le_or_gt ((clockAnswer s.env : Int) - t0) d with hw | hw
    · exact .inr (.inr (by rw [(advance_clockTest_within hc hw).2.1, discardOutcome_eq]))
    · exact .inl (advance_clockTest_past hc hw).2.1

end Sys2Proof.Machine
end

section
/-! SUPPORT. The invariants of 10_state.md R35 by the record they speak of: the receiver's stream, its outcome, the
backup buffer and the operation in progress; and that every operation on a record keeps them. -/

namespace Sys2Proof.Machine

/-- The invariants on the frame in progress and the frame recorded (I1, I2, I5, I7, R20, R27). -/
structure StreamInv (cfg : Cfg) (r : Rx) : Prop where
  position_le : r.position ≤ cfg.cap + 1
  sum_clear : r.position ≤ 3 → r.sum = 0
  sum_running : 4 ≤ r.position → r.sum = byteSum (r.apiId :: payCells r (r.position - 4))
  recLen_le : r.recLen + 4 ≤ cfg.cap
  stream_written : ∀ i, i + 4 < r.position → (Mem.read r.payload i).isSome
  record_written : ∀ i, i < r.recLen → (Mem.read r.payload i).isSome
  pay_bound : ∀ i, (Mem.read r.payload i).isSome → i + 4 ≤ cfg.cap
  pay_wf : Mem.wf r.payload = true

/-- The invariants on the outcome (I4, R199). -/
structure OutcomeInv (cfg : Cfg) (r : Rx) : Prop where
  available_closed : r.outcome = .available → r.position = 0 ∧ r.sum = 0 ∧ declaredLength r = r.recLen + 1
  failure_closed : r.outcome = .error .checksumFailure → r.position = 0
  overrun_held : r.outcome = .error .packetExceedsCapacity → r.position = cfg.cap + 1
  restart_held : r.outcome = .error .unexpectedStartByte → 0 < r.position

/-- The invariants on the receiver's record. -/
structure RxInv (cfg : Cfg) (r : Rx) : Prop extends StreamInv cfg r, OutcomeInv cfg r

/-- The invariants on the backup buffer (I3, I6, I7). -/
structure BkInv (cfg : Cfg) (k : Bk) : Prop where
  count_le : k.count ≤ cfg.mfs
  capture_written : ∀ i, i < k.count → (Mem.read k.data i).isSome
  bkp_bound : ∀ i, (Mem.read k.data i).isSome → i < cfg.mfs
  bkp_wf : Mem.wf k.data = true

/-- What an operation in progress means (R132, R151, R152). -/
structure CtlInv (s : State) : Prop where
  poll_pending : ∀ c, s.ctl = .poll c → s.rx.outcome = .pending
  timed_poll : ∀ t0 d, s.ctl = .poll (.timed t0 d) → 0 < d ∧ t0 ≤ s.env.clock
  timed_test : ∀ t0 d, s.ctl = .clockTest t0 d → 0 < d ∧ t0 ≤ s.env.clock

theorem blockInv_iff {s : State} :
    BlockInv s ↔ s.cfg.Valid ∧ RxInv s.cfg s.rx ∧ BkInv s.cfg s.bk ∧ CtlInv s :=
  ⟨fun h => ⟨h.cfg_valid, { h with }, { h with }, { h with }⟩,
    fun ⟨hv, hr, hk, hc⟩ => { hr, hk, hc with cfg_valid := hv }⟩

/-! ### The receiver -/

section receiver
variable {cfg : Cfg} {r r' : Rx}

theorem outcomeInv_of_pending (h : r.outcome = .pending) : OutcomeInv cfg r := by
  constructor <;> simp [h]

/-- Before the first covered byte the stream's invariants ask for the cleared sum only, and the cells keep theirs. -/
theorem StreamInv.of_header (h : StreamInv cfg r) (hp : r'.position ≤ 3) (hc : r'.position ≤ cfg.cap + 1)
    (hs : r'.sum = 0) (hpay : r'.payload = r.payload) (hl : r'.recLen + 4 ≤ cfg.cap)
    (hw : ∀ i, i < r'.recLen → (Mem.read r.payload i).isSome) : StreamInv cfg r' where
  position_le := hc
  sum_clear := fun _ => hs
  sum_running := fun h4 => by omega
  recLen_le := hl
  stream_written := fun i hi => by omega
  record_written := hpay ▸ hw
  pay_bound := hpay ▸ h.pay_bound
  pay_wf := hpay ▸ h.pay_wf

/-- One more byte of the stream stored and summed (R130). -/
theorem StreamInv.store (h : StreamInv cfg r) (b : Byte) (h4 : 4 ≤ r.position) (hc : r.position ≤ cfg.cap) :
    StreamInv cfg { r with sum := sumAdd r.sum b, payload := Mem.write r.payload (r.position - 4) b,
                           position := r.position + 1 } where
  position_le := by simpa using hc
  sum_clear := fun hp => by simp only at hp; omega
  sum_running := fun _ => by
    have hcells := payCells_succ { r with payload := Mem.write r.payload (r.position - 4) b } (r.position - 4)
    rw [payCells_write_above b le_rfl, payRead, Mem.read_write_same, Option.getD_some] at hcells
    have hn : r.position + 1 - 4 = r.position - 4 + 1 := by omega
    change r.sum + b = byteSum (r.apiId :: payCells { r with payload := _ } (r.position + 1 - 4))
    rw [hn, hcells, ← List.cons_append, byteSum_append, ← h.sum_running h4, byteSum_cons, byteSum_nil, add_zero]
  recLen_le := h.recLen_le
  stream_written := fun i hi => by
    simp only [Mem.read_write]
    split
    · rfl
    · exact h.stream_written i (by simp only at hi; omega)
  record_written := fun i hi => by
    simp only [Mem.read_write]
    split
    · rfl
    · exact h.record_written i hi
  pay_bound := fun i hi => by
    simp only [Mem.read_write] at hi
    split at hi
    · omega
    · exact h.pay_bound i hi
  pay_wf := Mem.wf_write _ _ h.pay_wf

/-- The first covered byte starts the running sum (R129). -/
theorem StreamInv.firstCovered (h : StreamInv cfg r) (b : Byte) (hp : r.position = 3) (hc : r.position ≤ cfg.cap) :
    StreamInv cfg { r with sum := sumAdd r.sum b, apiId := b, position := 4 } :=
  { h with
    position_le := by simp; omega
    sum_clear := by simp
    sum_running := fun _ => by simp [payCells, byteSum_cons, sumAdd, h.sum_clear hp.le]
    stream_written := fun i hi => absurd hi (by simp) }

/-- RX_BYTE, given while the outcome is PENDING (R122), keeps the receiver's invariants. -/
theorem RxInv.stepByte (h : RxInv cfg r) (ho : r.outcome = .pending) (b : Byte) : RxInv cfg (stepByte cfg b r) := by
  have hpos := h.position_le
  rcases stepByte_cases cfg b r with ⟨hp, -, e⟩ | ⟨-, hp, e⟩ | ⟨-, -, e⟩ | ⟨hp, -, e⟩ | ⟨-, hc, hp, e⟩ |
    ⟨-, hc, hp, e⟩ | ⟨-, hc, hp, e⟩ | ⟨-, hc, h4, ht, -, e⟩ | ⟨-, -, h4, -, -, e⟩ | ⟨-, hc, h4, -, e⟩ <;> rw [e]
  · -- RXB_RESTART
    exact { h with
      available_closed := nofun, failure_closed := nofun, overrun_held := nofun, restart_held := fun _ => hp }
  · -- RXB_OVERRUN
    have hheld : r.position = cfg.cap + 1 := by omega
    exact { h with
      available_closed := nofun, failure_closed := nofun, overrun_held := fun _ => hheld, restart_held := nofun }
  · -- RXB_SKIP
    exact h
  · -- RXB_START
    exact ⟨h.of_header (by simp) (by simp) (h.sum_clear (by omega)) rfl h.recLen_le h.record_written,
      outcomeInv_of_pending ho⟩
  · -- RXB_LEN_MSB
    exact ⟨h.of_header (by simp) (by simp; omega) (h.sum_clear (by omega)) rfl h.recLen_le h.record_written,
      outcomeInv_of_pending ho⟩
  · -- RXB_LEN_LSB
    exact ⟨h.of_header (by simp) (by simp; omega) (h.sum_clear (by omega)) rfl h.recLen_le h.record_written,
      outcomeInv_of_pending ho⟩
  · -- RXB_API_ID
    exact ⟨h.firstCovered b hp hc, outcomeInv_of_pending ho⟩
  · -- RXB_TERM_OK
    have hlen : declaredLength r = r.position - 4 + 1 := by unfold terminatorPosition at ht; omega
    have hwritten : ∀ i, i < r.position - 4 → (Mem.read r.payload i).isSome :=
      fun i hi => h.stream_written i (by omega)
    exact ⟨h.of_header (by simp) (by simp) rfl rfl (by simp; omega) hwritten,
      ⟨fun _ => ⟨rfl, rfl, hlen⟩, nofun, nofun, nofun⟩⟩
  · -- RXB_TERM_BAD
    exact ⟨h.of_header (by simp) (by simp) rfl rfl h.recLen_le h.record_written,
      ⟨nofun, fun _ => rfl, nofun, nofun⟩⟩
  · -- RXB_DATA
    exact ⟨h.store b h4 hc, outcomeInv_of_pending ho⟩

theorem RxInv.discardOutcome (h : RxInv cfg r) : RxInv cfg (discardOutcome r) := by
  rw [discardOutcome_eq]
  exact ⟨{ h with }, outcomeInv_of_pending rfl⟩

/-- RX_RESET leaves the invariants whatever the registers were; the cells alone keep what they had (R120). -/
theorem rxInv_resetRx (hcap : 5 ≤ cfg.cap) (hbound : ∀ i, (Mem.read r.payload i).isSome → i + 4 ≤ cfg.cap)
    (hwf : Mem.wf r.payload = true) : RxInv cfg (resetRx r) where
  position_le := Nat.zero_le _
  sum_clear := fun _ => rfl
  sum_running := nofun
  recLen_le := by simp [resetRx]; omega
  stream_written := nofun
  record_written := nofun
  pay_bound := hbound
  pay_wf := hwf
  toOutcomeInv := outcomeInv_of_pending rfl

end receiver

/-! ### The backup buffer -/

theorem BkInv.append {cfg : Cfg} {k : Bk} (h : BkInv cfg k) (b : Byte) : BkInv cfg (appendBk cfg b k) := by
  by_cases hroom : k.count < cfg.mfs
  · rw [appendBk_room hroom]
    refine ⟨hroom, fun i hi => ?_, fun i hi => ?_, Mem.wf_write _ _ h.bkp_wf⟩
    · rw [Mem.read_write]
      split
      · rfl
      · exact h.capture_written i (by simp only at hi; omega)
    · rw [Mem.read_write] at hi
      split at hi
      · omega
      · exact h.bkp_bound i hi
  · rwa [appendBk_full (by omega)]

theorem BkInv.clearCount {cfg : Cfg} {k : Bk} (h : BkInv cfg k) : BkInv cfg { k with count := 0 } :=
  { h with count_le := Nat.zero_le _, capture_written := nofun }

/-! ### The operation in progress -/

theorem ctlInv_idle {s : State} (h : s.ctl = .idle) : CtlInv s := by
  constructor <;> simp [h]

/-- A poll that returns leaves the block idle, or RX_TIMED at its clock test with what it kept. -/
theorem ctlInv_endPoll {c : Caller} {s : State} (h : ∀ t0 d, c = .timed t0 d → 0 < d ∧ t0 ≤ s.env.clock) :
    CtlInv (endPoll c s) := by
  rcases endPoll_cases c s with ⟨-, e⟩ | ⟨t0, d, -, -, e⟩ | ⟨t0, d, k, -, -, e⟩ | ⟨t0, d, hc, -, e⟩ <;> rw [e]
  · exact ctlInv_idle rfl
  · exact ctlInv_idle rfl
  · exact ctlInv_idle rfl
  · refine ⟨nofun, nofun, ?_⟩
    rintro _ _ ⟨⟩
    exact h t0 d hc

theorem CtlInv.pollIteration {c : Caller} {s : State} (h : CtlInv s) (hc : s.ctl = .poll c) :
    CtlInv (pollIteration c s) := by
  have htimed : ∀ t0 d, c = .timed t0 d → 0 < d ∧ t0 ≤ s.env.clock := by
    rintro t0 d rfl
    exact h.timed_poll t0 d hc
  rcases pollIteration_cases c s with ⟨-, e⟩ | ⟨-, hp, e⟩ | ⟨-, -, e⟩ <;> rw [e]
  · exact ctlInv_endPoll (by simpa using htimed)
  · exact ⟨fun _ _ => hp, by simpa using h.timed_poll, by simpa using h.timed_test⟩
  · exact ctlInv_endPoll (by simpa using htimed)

theorem CtlInv.clockIteration {t0 : Nat} {d : Int} {s : State} (h : CtlInv s) (hc : s.ctl = .clockTest t0 d) :
    CtlInv (clockIteration t0 d s) := by
  obtain ⟨hd, ht⟩ := h.timed_test t0 d hc
  rcases clockIteration_cases t0 d s with ⟨-, e⟩ | ⟨-, e⟩ <;> rw [e]
  · refine ⟨by simp, ?_, nofun⟩
    rintro _ _ ⟨⟩
    exact ⟨hd, by simpa using ht.trans (clock_le_clockAnswer s.env)⟩
  · exact ctlInv_idle rfl

theorem CtlInv.advance {s : State} (h : CtlInv s) : CtlInv (advance s) := by
  cases hc : s.ctl with
  | idle => rwa [advance_idle hc]
  | poll c => exact advance_poll hc ▸ h.pollIteration hc
  | clockTest t0 d => exact advance_clockTest hc ▸ h.clockIteration hc

/-! ### The whole block -/

/-- A change of the environment that does not turn the clock back, of `tx.sum`, of the results or of the field `micro`
touches no invariant. -/
theorem BlockInv.of_frame {s t : State} (h : BlockInv s) (hcfg : t.cfg = s.cfg) (hrx : t.rx = s.rx) (hbk : t.bk = s.bk)
    (hctl : t.ctl = s.ctl) (hclock : s.env.clock ≤ t.env.clock) : BlockInv t := by
  obtain ⟨hv, hr, hk, hc⟩ := blockInv_iff.mp h
  refine blockInv_iff.mpr ⟨hcfg ▸ hv, hcfg ▸ hrx ▸ hr, hcfg ▸ hbk ▸ hk, ?_, ?_, ?_⟩ <;> rw [hctl]
  · exact hrx ▸ hc.poll_pending
  · exact fun t0 d e => (hc.timed_poll t0 d e).imp_right hclock.trans'
  · exact fun t0 d e => (hc.timed_test t0 d e).imp_right hclock.trans'

theorem BlockInv.advance {s : State} (h : BlockInv s) : BlockInv (advance s) := by
  obtain ⟨hv, hr, hk, hc⟩ := blockInv_iff.mp h
  obtain ⟨hcfg, hbk, -⟩ := advance_frame s
  refine blockInv_iff.mpr ⟨hcfg ▸ hv, hcfg ▸ ?_, hcfg ▸ hbk ▸ hk, hc.advance⟩
  rcases advance_rx_cases s with e | ⟨c, b, hpoll, e⟩ | e <;> rw [e]
  · exact hr
  · exact hr.stepByte (hc.poll_pending c hpoll) b
  · exact hr.discardOutcome

theorem BlockInv.resume {s : State} (h : BlockInv s) : BlockInv (resume s) :=
  resume_induct (P := BlockInv) (fun _ h => h.advance) s h

theorem BlockInv.rxPoll {s : State} (h : BlockInv s) : BlockInv (rxPoll s) := by
  obtain ⟨hv, hr, hk, -⟩ := blockInv_iff.mp h
  have hstart : CtlInv (startPoll .host s) := ⟨by simp, nofun, nofun⟩
  exact BlockInv.resume (blockInv_iff.mpr ⟨hv, hr.discardOutcome, hk, hstart⟩)

theorem BlockInv.bkAppend {s : State} (h : BlockInv s) (b : Byte) : BlockInv (bkAppend b s) := by
  obtain ⟨hv, hr, hk, hc⟩ := blockInv_iff.mp h
  exact blockInv_iff.mpr ⟨hv, hr, hk.append b, { hc with }⟩

theorem BlockInv.txFrame {s : State} (h : BlockInv s) (apiId frameId : Byte) (payload : List Byte) :
    BlockInv (txFrame apiId frameId payload s) := by
  refine txFrame_induct (fun s h => ?_) (fun b s h => ?_) (fun b s h => h.bkAppend b) (fun v s h => ?_)
    apiId frameId payload s h
  · exact h.of_frame rfl rfl rfl rfl (by simp)
  · exact h.of_frame rfl rfl rfl rfl (by simp)
  · exact h.of_frame rfl rfl rfl rfl le_rfl

theorem BlockInv.rxTimed {s t : State} {d : Int} (h : BlockInv s) (ht : execRxTimed d s = .next t) : BlockInv t := by
  obtain ⟨hv, hr, hk, -⟩ := blockInv_iff.mp h
  rcases execRxTimed_cases d s with ⟨-, e⟩ | ⟨hd, e⟩ <;> cases e.symm.trans ht
  · exact h.of_frame rfl rfl rfl rfl le_rfl
  · refine BlockInv.resume (blockInv_iff.mpr ⟨hv, hr, hk, nofun, nofun, ?_⟩)
    rintro _ _ ⟨⟩
    exact ⟨hd, by simp⟩

/-- A host command issued to an idle block keeps the invariants. -/
theorem BlockInv.exec {s t : State} {i : Instr} (h : BlockInv s) (hs : s.ctl = .idle) (hi : HostCommand i)
    (ht : exec i s = .next t) : BlockInv t := by
  obtain ⟨hv, hr, hk, -⟩ := blockInv_iff.mp h
  cases hi with
  | nop => cases ht; exact h
  | rxReset =>
    cases ht
    exact blockInv_iff.mpr ⟨hv, rxInv_resetRx hv.2.1 hr.pay_bound hr.pay_wf, hk, ctlInv_idle hs⟩
  | rxPoll => cases ht; exact h.rxPoll
  | rxTimed d => exact h.rxTimed ht
  | rxRead => exact execRxRead_next ht ▸ h.of_frame rfl rfl rfl rfl le_rfl
  | txFrame apiId frameId payload => exact execTxFrame_next ht ▸ h.txFrame apiId frameId payload
  | bkReset =>
    cases ht
    exact blockInv_iff.mpr ⟨hv, hr, hk.clearCount, ctlInv_idle hs⟩
  | bkRead => exact execBkRead_next ht ▸ h.of_frame rfl rfl rfl rfl le_rfl
  | reserved low => cases ht

/-- The configuration the block is built with meets R6, R7 and R8. -/
theorem cfgValid_built : Config.built.Valid := by
  refine ⟨?_, ?_, ?_⟩
  · have := Config.fillerOffset.isLt
    simp only [Config.built, Config.fillerByte]
    bv_omega
  · simp [Config.built, Config.cap]
  · simp only [Config.built, Config.mfs]
    omega

theorem blockInv_reset : BlockInv State.reset := by
  have hrx : RxInv Config.built (resetRx Rx.reset) := rxInv_resetRx cfgValid_built.2.1 nofun Mem.wf_empty
  exact blockInv_iff.mpr ⟨cfgValid_built, hrx, ⟨Nat.zero_le _, nofun, nofun, Mem.wf_empty⟩, ctlInv_idle rfl⟩

end Sys2Proof.Machine
end

section
/-! SUPPORT. RX_BYTE and BK_APPEND read nothing of the two memories: receivers that differ in PAY cells outside the
frames of 10_state.md R36 only stay so, and buffers that differ above the cursor only stay so. -/

namespace Sys2Proof.Machine

/-- RX_BYTE does not read PAY: with other cells it does the same to the registers, and to the cells nothing or the one
store of R130. -/
theorem stepByte_payload_cases (cfg : Cfg) (b : Byte) (r : Rx) :
    ((∀ m, stepByte cfg b { r with payload := m } = { stepByte cfg b r with payload := m }) ∧
      ((stepByte cfg b r).position ≤ 4 ∨ (stepByte cfg b r).position = r.position) ∧
      ((stepByte cfg b r).recLen = r.recLen ∨ (stepByte cfg b r).recLen + 4 = r.position)) ∨
    ((∀ m, stepByte cfg b { r with payload := m } =
        { stepByte cfg b r with payload := Mem.write m (r.position - 4) b }) ∧
      4 ≤ r.position ∧ (stepByte cfg b r).position = r.position + 1 ∧ (stepByte cfg b r).recLen = r.recLen) := by
  rcases stepByte_cases cfg b r with ⟨hp, hb, e⟩ | ⟨hb, hp, e⟩ | ⟨hp, hb, e⟩ | ⟨hp, hb, e⟩ | ⟨hb, hc, hp, e⟩ |
    ⟨hb, hc, hp, e⟩ | ⟨hb, hc, hp, e⟩ | ⟨hb, hc, h4, ht, hv, e⟩ | ⟨hb, hc, h4, ht, hv, e⟩ | ⟨hb, hc, h4, ht, e⟩ <;>
    rw [e]
  · exact .inl ⟨fun _ => stepByte_restart hp hb, .inr rfl, .inl rfl⟩
  · exact .inl ⟨fun _ => stepByte_overrun hb hp, .inr rfl, .inl rfl⟩
  · exact .inl ⟨fun _ => stepByte_skip hp hb, .inr rfl, .inl rfl⟩
  · exact .inl ⟨fun _ => stepByte_start hp hb, .inl (by simp), .inl rfl⟩
  · exact .inl ⟨fun _ => stepByte_lenMsb hb hc hp, .inl (by simp), .inl rfl⟩
  · exact .inl ⟨fun _ => stepByte_lenLsb hb hc hp, .inl (by simp), .inl rfl⟩
  · exact .inl ⟨fun _ => stepByte_apiId hb hc hp, .inl le_rfl, .inl rfl⟩
  · exact .inl ⟨fun m => (stepByte_terminator (r := { r with payload := m }) hb hc h4 ht).trans (closeFrame_valid hv),
      .inl (by simp), .inr (by simp; omega)⟩
  · exact .inl ⟨fun m => (stepByte_terminator (r := { r with payload := m }) hb hc h4 ht).trans (closeFrame_invalid hv),
      .inl (by simp), .inl rfl⟩
  · exact .inr ⟨fun _ => stepByte_data hb hc h4 ht, h4, rfl, rfl⟩

/-- The receiver's part of `AlikeToTheHost`. -/
structure RxAlike (r r' : Rx) : Prop where
  registers : { r with payload := r'.payload } = r'
  recorded : ∀ i, i < r.recLen → payRead r i = payRead r' i
  inProgress : ∀ i, i + 4 < r.position → payRead r i = payRead r' i

/-- The backup buffer's part of `AlikeToTheHost`. -/
structure BkAlike (k k' : Bk) : Prop where
  count : k.count = k'.count
  captured : ∀ i, i < k.count → bkpRead k i = bkpRead k' i

/-- A write of the same byte makes two memories read alike at its cell and elsewhere as they did. -/
theorem read_write_congr {m m' : Mem} {i j : Nat} {b d : Byte}
    (h : i ≠ j → (Mem.read m i).getD d = (Mem.read m' i).getD d) :
    (Mem.read (Mem.write m j b) i).getD d = (Mem.read (Mem.write m' j b) i).getD d := by
  rw [Mem.read_write, Mem.read_write]
  split
  · rfl
  · exact h ‹_›

theorem rxAlike_resetRx (r r' : Rx) : RxAlike (resetRx r) (resetRx r') := ⟨rfl, nofun, nofun⟩

section receiver
variable {r r' : Rx} (h : RxAlike r r')
include h

theorem RxAlike.outcome : r.outcome = r'.outcome := by rw [← h.registers]
theorem RxAlike.recLen : r.recLen = r'.recLen := by rw [← h.registers]

theorem RxAlike.discardOutcome : RxAlike (discardOutcome r) (discardOutcome r') := by
  rw [discardOutcome_eq, discardOutcome_eq]
  exact ⟨by rw [← h.registers], h.recorded, h.inProgress⟩

theorem RxAlike.stepByte (cfg : Cfg) (b : Byte) : RxAlike (stepByte cfg b r) (stepByte cfg b r') := by
  rw [← h.registers]
  rcases stepByte_payload_cases cfg b r with ⟨he, hpos, hrec⟩ | ⟨he, h4, hpos, hrec⟩
  · have hsame : (Machine.stepByte cfg b r).payload = r.payload := by rw [he r.payload]
    rw [he r'.payload]
    refine ⟨rfl, fun i hi => ?_, fun i hi => ?_⟩ <;> simp only [payRead, hsame]
    · rcases hrec with hrec | hrec
      · exact h.recorded i (by omega)
      · exact h.inProgress i (by omega)
    · exact h.inProgress i (by omega)
  · have hstored : (Machine.stepByte cfg b r).payload = Mem.write r.payload (r.position - 4) b := by rw [he r.payload]
    rw [he r'.payload]
    refine ⟨rfl, fun i hi => ?_, fun i hi => ?_⟩ <;> simp only [payRead, hstored] <;>
      refine read_write_congr fun hne => ?_
    · exact h.recorded i (by omega)
    · exact h.inProgress i (by omega)

theorem RxAlike.rxRecord : rxRecord r = rxRecord r' := by
  have hcells : payCells r r.recLen = payCells r' r.recLen :=
    List.map_congr_left fun i hi => h.recorded i (List.mem_range.mp hi)
  unfold Machine.rxRecord
  rw [hcells, ← h.registers]
  rfl

end receiver

theorem bkAlike_clearCount (k k' : Bk) : BkAlike { k with count := 0 } { k' with count := 0 } := ⟨rfl, nofun⟩

section buffer
variable {k k' : Bk} (h : BkAlike k k')
include h

theorem BkAlike.append (cfg : Cfg) (b : Byte) : BkAlike (appendBk cfg b k) (appendBk cfg b k') := by
  obtain ⟨hcount, hcells⟩ := h
  by_cases hroom : k.count < cfg.mfs
  · rw [appendBk_room hroom, appendBk_room (hcount ▸ hroom), ← hcount]
    refine ⟨rfl, fun i hi => read_write_congr fun hne => hcells i ?_⟩
    simp only at hi
    omega
  · rw [appendBk_full (by omega), appendBk_full (by omega)]
    exact ⟨hcount, hcells⟩

theorem BkAlike.bkRecord : bkRecord k = bkRecord k' := by
  have hcells : bkpCells k k.count = bkpCells k' k.count :=
    List.map_congr_left fun i hi => h.captured i (List.mem_range.mp hi)
  rw [Machine.bkRecord, Machine.bkRecord, hcells, h.count]

end buffer

end Sys2Proof.Machine
end

section
/-! SUPPORT. The unwinding of R36: each operation of the block, given two states alike to the host, answers two states
alike to the host. -/

namespace Sys2Proof.Machine

section
variable {s t : State} (h : AlikeToTheHost s t)
include h

theorem AlikeToTheHost.rx : RxAlike s.rx t.rx := { h with }

theorem AlikeToTheHost.bk : BkAlike s.bk t.bk := { h with }

/-! ### Named updates and environment calls -/

theorem AlikeToTheHost.withRx {r r' : Rx} (hr : RxAlike r r') : AlikeToTheHost (withRx r s) (withRx r' t) :=
  { hr, h with }

theorem AlikeToTheHost.withBk {k k' : Bk} (hk : BkAlike k k') : AlikeToTheHost (withBk k s) (withBk k' t) :=
  { hk, h with }

theorem AlikeToTheHost.withCtl (c : Control) : AlikeToTheHost (withCtl c s) (withCtl c t) :=
  { h with ctl := rfl }

theorem AlikeToTheHost.withHost (cs : List Command) : AlikeToTheHost (withHost cs s) (withHost cs t) :=
  { h with env := by simp [h.env] }

theorem AlikeToTheHost.present (r : Result) : AlikeToTheHost (present r s) (present r t) :=
  { h with results := by simp [h.results] }

/-- The one operation whose two values may differ: `tx.sum` is hidden. -/
theorem AlikeToTheHost.setTxSum (v v' : Byte) : AlikeToTheHost (setAcc .tx v s) (setAcc .tx v' t) :=
  { h with }

theorem AlikeToTheHost.readSignal : AlikeToTheHost (readSignal s) (readSignal t) :=
  { h with trace := by simp [h.trace, h.env], env := by simp [h.env] }

theorem AlikeToTheHost.exchange (out : Byte) : AlikeToTheHost (exchange out s) (exchange out t) :=
  { h with trace := by simp [h.trace, h.env], env := by simp [h.env] }

theorem AlikeToTheHost.readClock : AlikeToTheHost (readClock s) (readClock t) :=
  { h with trace := by simp [h.trace, h.env], env := by simp [h.env] }

/-! ### RX_POLL and RX_TIMED -/

theorem AlikeToTheHost.pullByte : AlikeToTheHost (pullByte s) (pullByte t) := by
  unfold Machine.pullByte rxByte
  rw [← h.env, ← h.cfg]
  have hx := h.exchange s.cfg.fillerByte
  rw [← hx.cfg]
  exact hx.withRx (hx.rx.stepByte _ _)

theorem AlikeToTheHost.startPoll (c : Caller) : AlikeToTheHost (startPoll c s) (startPoll c t) :=
  (h.withRx h.rx.discardOutcome).withCtl _

theorem AlikeToTheHost.endTimed (ok : Bool) : AlikeToTheHost (endTimed ok s) (endTimed ok t) :=
  (h.withCtl _).present _

theorem AlikeToTheHost.endPoll (c : Caller) : AlikeToTheHost (endPoll c s) (endPoll c t) := by
  cases c with
  | host => exact h.withCtl _
  | timed t0 d =>
    by_cases hp : s.rx.outcome = .pending
    · rw [endPoll_timed_pending hp, endPoll_timed_pending (h.rx.outcome ▸ hp)]
      exact h.withCtl _
    · rw [endPoll_timed_terminal hp, endPoll_timed_terminal (h.rx.outcome ▸ hp), h.rx.outcome]
      exact h.endTimed _

theorem AlikeToTheHost.pollIteration (c : Caller) : AlikeToTheHost (pollIteration c s) (pollIteration c t) := by
  have hpulled := h.readSignal.pullByte
  unfold Machine.pollIteration
  simp only [← h.env, ← hpulled.rx.outcome]
  split
  · split
    · exact hpulled
    · exact hpulled.endPoll c
  · exact h.readSignal.endPoll c

theorem AlikeToTheHost.clockIteration (t0 : Nat) (d : Int) :
    AlikeToTheHost (clockIteration t0 d s) (clockIteration t0 d t) := by
  unfold Machine.clockIteration
  rw [← h.env]
  split
  · exact h.readClock.startPoll _
  · exact h.readClock.endTimed _

theorem AlikeToTheHost.advance : AlikeToTheHost (advance s) (advance t) := by
  cases hc : s.ctl with
  | idle => rwa [advance_idle hc, advance_idle (h.ctl ▸ hc)]
  | poll c =>
    rw [advance_poll hc, advance_poll (h.ctl ▸ hc)]
    exact h.pollIteration c
  | clockTest t0 d =>
    rw [advance_clockTest hc, advance_clockTest (h.ctl ▸ hc)]
    exact h.clockIteration t0 d

omit h in
theorem AlikeToTheHost.advanceBy (k : Nat) {s t : State} (h : AlikeToTheHost s t) :
    AlikeToTheHost (advanceBy k s) (advanceBy k t) := by
  induction k generalizing s t with
  | zero => exact h
  | succ k ih => exact ih h.advance

theorem AlikeToTheHost.resume : AlikeToTheHost (resume s) (resume t) := by
  unfold Machine.resume
  rw [← h.env]
  exact h.advanceBy _

/-! ### TX_FRAME -/

theorem AlikeToTheHost.exchangeCaptured (out : Byte) :
    AlikeToTheHost (exchangeCaptured out s) (exchangeCaptured out t) := by
  unfold Machine.exchangeCaptured bkAppend
  rw [← h.env]
  have hx := h.exchange out
  rw [← hx.cfg]
  exact hx.withBk (hx.bk.append _ _)

theorem AlikeToTheHost.txEmit (b : Byte) : AlikeToTheHost (txEmit b s) (txEmit b t) := by
  unfold Machine.txEmit
  rw [← h.env]
  split
  · exact h.readSignal.exchangeCaptured b
  · exact h.readSignal.exchange b

theorem AlikeToTheHost.txHeader (n : Nat) : AlikeToTheHost (txHeader n s) (txHeader n t) := by
  unfold Machine.txHeader
  rw [← h.cfg]
  exact (((h.setTxSum _ _).exchange _).txEmit _).txEmit _

omit h in
theorem AlikeToTheHost.drainLoop (k : Nat) {s t : State} (h : AlikeToTheHost s t) :
    AlikeToTheHost (drainLoop k s) (drainLoop k t) := by
  induction k generalizing s t with
  | zero => exact h
  | succ k ih =>
    unfold Machine.drainLoop
    rw [← h.env, ← h.cfg, ← h.count]
    split
    · split
      · exact h.readSignal
      · exact ih (h.readSignal.exchangeCaptured _)
    · exact h.readSignal

theorem AlikeToTheHost.txDrain : AlikeToTheHost (txDrain s) (txDrain t) := by
  unfold Machine.txDrain
  rw [← h.cfg, ← h.count]
  exact h.drainLoop _

omit h in
/-- From equal sums on, the covered bytes leave equal sums. -/
theorem AlikeToTheHost.foldl_txCovered (bs : List Byte) {s t : State} (h : AlikeToTheHost s t) (htx : s.tx = t.tx) :
    AlikeToTheHost (bs.foldl txCovered s) (bs.foldl txCovered t) ∧
      (bs.foldl txCovered s).tx = (bs.foldl txCovered t).tx := by
  induction bs generalizing s t with
  | nil => exact ⟨h, htx⟩
  | cons b bs ih => exact ih ((h.setTxSum _ _).txEmit b) (by simp [htx])

/-- TX_FRAME clears `tx.sum` before it reads it, so its check byte does not show what the sum was (R161). -/
theorem AlikeToTheHost.txFrame (apiId frameId : Byte) (payload : List Byte) :
    AlikeToTheHost (txFrame apiId frameId payload s) (txFrame apiId frameId payload t) := by
  have hcleared : (Machine.txHeader payload.length s).tx = (Machine.txHeader payload.length t).tx := by
    simp [Machine.txHeader, ckClr]
  obtain ⟨hcovered, hsum⟩ := (h.txHeader payload.length).foldl_txCovered (apiId :: frameId :: payload) hcleared
  unfold Machine.txFrame txFramePart ckCompute accValue
  simp only [hsum]
  exact (hcovered.txEmit _).txDrain

end

/-! ### Commands and steps -/

/-- Two outcomes the host cannot tell apart. -/
def OutcomesAlike (o o' : Host.Outcome State Fault Refusal) : Prop :=
  (∃ t t', o = .next t ∧ o' = .next t' ∧ AlikeToTheHost t t') ∨ (∃ r, o = .fault r ∧ o' = .fault r) ∨
    ∃ r, o = .refused r ∧ o' = .refused r

theorem AlikeToTheHost.next {s t : State} (h : AlikeToTheHost s t) : OutcomesAlike (.next s) (.next t) :=
  .inl ⟨s, t, rfl, rfl, h⟩

theorem outcomesAlike_fault (r : Fault) : OutcomesAlike (.fault r) (.fault r) := .inr (.inl ⟨r, rfl, rfl⟩)

theorem outcomesAlike_refused (r : Refusal) : OutcomesAlike (.refused r) (.refused r) := .inr (.inr ⟨r, rfl, rfl⟩)

section commands
variable {s t : State} (h : AlikeToTheHost s t)
include h

theorem AlikeToTheHost.execRxTimed (d : Int) : OutcomesAlike (execRxTimed d s) (execRxTimed d t) := by
  unfold Machine.execRxTimed
  rw [← h.env]
  split
  · exact (h.present _).next
  · exact (h.readClock.withCtl _).resume.next

theorem AlikeToTheHost.execRxRead : OutcomesAlike (execRxRead s) (execRxRead t) := by
  unfold Machine.execRxRead
  rw [← h.cfg, ← h.rx.recLen, ← h.rx.rxRecord]
  split
  · exact (h.present _).next
  · exact outcomesAlike_fault _

theorem AlikeToTheHost.execBkRead : OutcomesAlike (execBkRead s) (execBkRead t) := by
  unfold Machine.execBkRead
  rw [← h.cfg, ← h.count, ← h.bk.bkRecord]
  split
  · exact (h.present _).next
  · exact outcomesAlike_fault _

theorem AlikeToTheHost.execTxFrame (apiId frameId : Byte) (payload : List Byte) :
    OutcomesAlike (execTxFrame apiId frameId payload s) (execTxFrame apiId frameId payload t) := by
  unfold Machine.execTxFrame
  split
  · exact (h.txFrame apiId frameId payload).next
  · exact outcomesAlike_refused _

theorem AlikeToTheHost.exec {i : Instr} (hi : HostCommand i) : OutcomesAlike (exec i s) (exec i t) := by
  cases hi with
  | nop => exact h.next
  | rxReset => exact (h.withRx (rxAlike_resetRx _ _)).next
  | rxPoll => exact (h.startPoll _).resume.next
  | rxTimed d => exact h.execRxTimed d
  | rxRead => exact h.execRxRead
  | txFrame apiId frameId payload => exact h.execTxFrame apiId frameId payload
  | bkReset => exact (h.withBk (bkAlike_clearCount _ _)).next
  | bkRead => exact h.execBkRead
  | reserved low => exact outcomesAlike_refused _

theorem AlikeToTheHost.step : OutcomesAlike (step s) (step t) := by
  by_cases hc : s.ctl = .idle
  · cases hh : s.env.host with
    | nil =>
      rw [step_no_command hc hh, step_no_command (h.ctl ▸ hc) (h.env ▸ hh)]
      exact h.next
    | cons c cs =>
      rw [step_command hc hh, step_command (h.ctl ▸ hc) (h.env ▸ hh)]
      exact (h.withHost cs).exec (hostCommand_decode c)
  · rw [step_in_progress hc, step_in_progress (h.ctl ▸ hc)]
    exact h.resume.next

end commands

end Sys2Proof.Machine
end

section
/-! SUPPORT. The "written by" column of 10_state.md R20 as a relation between the states before and after an operation,
kept by every named update that the operation may make. -/

namespace Sys2Proof.Machine

open Sys2Proof.Claims

/-- Of the parts of the state, `t` differs from `s` at most in those the operation `i` is named a writer of. -/
structure WritesAtMost (i : Instr) (s t : State) : Prop where
  rx : writesRx i = false → t.rx = s.rx
  tx : writesTx i = false → t.tx = s.tx
  bk : writesBk i = false → t.bk = s.bk
  environment : callsEnvironment i = false → t.trace = s.trace ∧ t.env = s.env ∧ t.ctl = s.ctl
  results : presents i = false → t.results = s.results
  micro : writesMicro i = false → t.micro = s.micro
  cfg : t.cfg = s.cfg
  host : t.env.host = s.env.host

section
variable {i : Instr} {s t : State}

theorem WritesAtMost.refl (i : Instr) (s : State) : WritesAtMost i s s := by
  constructor <;> simp

theorem WritesAtMost.withRx (h : WritesAtMost i s t) {r : Rx} (hr : writesRx i = false → r = t.rx) :
    WritesAtMost i s (withRx r t) :=
  { h with rx := fun hw => (hr hw).trans (h.rx hw) }

theorem WritesAtMost.withBk (h : WritesAtMost i s t) (k : Bk) (hi : writesBk i = true) :
    WritesAtMost i s (withBk k t) :=
  { h with bk := by simp [hi] }

theorem WritesAtMost.setAccRx (h : WritesAtMost i s t) (v : Byte) (hi : writesRx i = true) :
    WritesAtMost i s (setAcc .rx v t) :=
  { h with rx := by simp [hi] }

theorem WritesAtMost.setAccTx (h : WritesAtMost i s t) (v : Byte) (hi : writesTx i = true) :
    WritesAtMost i s (setAcc .tx v t) :=
  { h with tx := by simp [hi] }

theorem WritesAtMost.present (h : WritesAtMost i s t) (r : Result) (hi : presents i = true) :
    WritesAtMost i s (present r t) :=
  { h with results := by simp [hi] }

theorem WritesAtMost.withMicro (h : WritesAtMost i s t) (v : MicroValue) (hi : writesMicro i = true) :
    WritesAtMost i s (withMicro v t) :=
  { h with micro := by simp [hi] }

section environment
variable (h : WritesAtMost i s t) (hi : callsEnvironment i = true)
include h hi

theorem WritesAtMost.withPeer (p : Peer) : WritesAtMost i s (withPeer p t) :=
  { h with environment := by simp [hi] }

theorem WritesAtMost.withCtl (c : Control) : WritesAtMost i s (withCtl c t) :=
  { h with environment := by simp [hi] }

theorem WritesAtMost.readSignal : WritesAtMost i s (readSignal t) :=
  { h with environment := by simp [hi], host := by simp [h.host] }

theorem WritesAtMost.exchange (out : Byte) : WritesAtMost i s (exchange out t) :=
  { h with environment := by simp [hi], host := by simp [h.host] }

theorem WritesAtMost.readClock : WritesAtMost i s (readClock t) :=
  { h with environment := by simp [hi], host := by simp [h.host] }

/-- A poll of the host presents nothing. -/
theorem WritesAtMost.rxPoll (hr : writesRx i = true) : WritesAtMost i s (rxPoll t) := by
  obtain ⟨hcfg, hbk, htx, hmicro, hhost, hres⟩ := rxPoll_frame t
  exact { rx := by simp [hr], environment := by simp [hi], tx := htx ▸ h.tx, bk := hbk ▸ h.bk,
          results := hres ▸ h.results, micro := hmicro ▸ h.micro, cfg := hcfg.trans h.cfg, host := hhost.trans h.host }

/-- RX_TIMED may present its result. -/
theorem WritesAtMost.resume (hr : writesRx i = true) (hp : presents i = true) : WritesAtMost i s (resume t) := by
  obtain ⟨hcfg, hbk, htx, hmicro, hhost⟩ := resume_frame t
  exact { rx := by simp [hr], environment := by simp [hi], tx := htx ▸ h.tx, bk := hbk ▸ h.bk,
          results := by simp [hp], micro := hmicro ▸ h.micro, cfg := hcfg.trans h.cfg, host := hhost.trans h.host }

section capture
variable (hb : writesBk i = true)
include hb

theorem WritesAtMost.exchangeCaptured (out : Byte) : WritesAtMost i s (exchangeCaptured out t) :=
  (h.exchange hi out).withBk _ hb

theorem WritesAtMost.txEmit (b : Byte) : WritesAtMost i s (txEmit b t) := by
  unfold Machine.txEmit
  split
  · exact (h.readSignal hi).exchangeCaptured hi hb b
  · exact (h.readSignal hi).exchange hi b

theorem WritesAtMost.txDrain : WritesAtMost i s (txDrain t) :=
  txDrain_induct (fun _ h => h.readSignal hi) (fun _ h => h.exchangeCaptured hi hb _) t h

theorem WritesAtMost.txFrame (ht : writesTx i = true) (apiId frameId : Byte) (payload : List Byte) :
    WritesAtMost i s (txFrame apiId frameId payload t) :=
  txFrame_induct (fun _ h => h.readSignal hi) (fun _ _ h => h.exchange hi _) (fun _ _ h => h.withBk _ hb)
    (fun _ _ h => h.setAccTx _ ht) apiId frameId payload t h

end capture
end environment

/-- A byte-class row writes the receiver's record, and RXB_SKIP not even that. -/
theorem WritesAtMost.asClass {k : ByteClass} {b : Byte} {r : Rx} (h : asClass k b s r = .next t)
    (hr : writesRx i = false → r = s.rx) : WritesAtMost i s t := by
  rcases asClass_cases k b s r with ⟨-, e⟩ | ⟨-, e⟩ <;> rw [e] at h <;> cases h
  exact (refl i s).withRx hr

theorem WritesAtMost.feed (bs : List Byte) (hr : writesRx i = true) : WritesAtMost i s (feed bs s) := by
  obtain ⟨-, e⟩ := feed_induct (P := fun _ => True) s.cfg (fun _ _ _ _ => trivial) bs s rfl trivial
  rw [e]
  exact (refl i s).withRx (by simp [hr])

end

theorem writesAtMost_ckClr (a : Acc) (s : State) : WritesAtMost (.ckClr a) s (ckClr a s) := by
  cases a with
  | rx => exact (WritesAtMost.refl _ s).setAccRx _ rfl
  | tx => exact (WritesAtMost.refl _ s).setAccTx _ rfl

theorem writesAtMost_ckAdd (a : Acc) (b : Byte) (s : State) : WritesAtMost (.ckAdd a b) s (ckAdd a b s) := by
  cases a with
  | rx => exact (WritesAtMost.refl _ s).setAccRx _ rfl
  | tx => exact (WritesAtMost.refl _ s).setAccTx _ rfl

theorem writesAtMost_rxTimed {d : Int} {s t : State} (h : execRxTimed d s = .next t) :
    WritesAtMost (.rxTimed d) s t := by
  have hs := WritesAtMost.refl (.rxTimed d) s
  rcases execRxTimed_cases d s with ⟨-, e⟩ | ⟨-, e⟩ <;> cases e.symm.trans h
  · exact hs.present _ rfl
  · exact ((hs.readClock rfl).withCtl rfl _).resume rfl rfl rfl

theorem writesAtMost_loopback (apiId frameId : Byte) (payload : List Byte) (s : State) :
    WritesAtMost (.loopback apiId frameId payload) s (loopback apiId frameId payload s) := by
  have hs := WritesAtMost.refl (.loopback apiId frameId payload) s
  have hsent := (hs.withPeer rfl (.queue [])).txFrame rfl rfl rfl apiId frameId payload
  exact ((hsent.withPeer rfl _).rxPoll rfl rfl).withPeer rfl _

theorem writesAtMost_exec {i : Instr} {s t : State} (h : exec i s = .next t) : WritesAtMost i s t := by
  have hs := WritesAtMost.refl i s
  cases i with
  | nop => cases h; exact hs
  | rxReset => cases h; exact hs.withRx nofun
  | rxPoll => cases h; exact hs.rxPoll rfl rfl
  | rxTimed d => exact writesAtMost_rxTimed h
  | rxRead => exact execRxRead_next h ▸ hs.present _ rfl
  | txFrame apiId frameId payload => exact execTxFrame_next h ▸ hs.txFrame rfl rfl rfl apiId frameId payload
  | bkReset => cases h; exact hs.withBk _ rfl
  | bkRead => exact execBkRead_next h ▸ hs.present _ rfl
  | reserved low => cases h
  | ckClr a => cases h; exact writesAtMost_ckClr a s
  | ckAdd a b => cases h; exact writesAtMost_ckAdd a b s
  | ckValid a => cases h; exact hs.withMicro _ rfl
  | ckCompute a => cases h; exact hs.withMicro _ rfl
  | rxDiscard => cases h; exact hs.withRx nofun
  | rxByte b => cases h; exact hs.withRx nofun
  | txEmit b => cases h; exact hs.txEmit rfl rfl b
  | txDrain => cases h; exact hs.txDrain rfl rfl
  | bkAppend b => cases h; exact hs.withBk _ rfl
  | rxbRestart b => exact .asClass h nofun
  | rxbOverrun b => exact .asClass h nofun
  | rxbSkip b => exact .asClass h fun _ => rfl
  | rxbStart b => exact .asClass h nofun
  | rxbLenMsb b => exact .asClass h nofun
  | rxbLenLsb b => exact .asClass h nofun
  | rxbApiId b => exact .asClass h nofun
  | rxbTermOk b => exact .asClass h nofun
  | rxbTermBad b => exact .asClass h nofun
  | rxbData b => exact .asClass h nofun
  | frame apiId frameId payload => exact execFrame_next h ▸ .feed _ rfl
  | rxFreshPoll => cases h; exact (hs.withRx nofun).rxPoll rfl rfl
  | loopback apiId frameId payload => exact execLoopback_next h ▸ writesAtMost_loopback apiId frameId payload s

end Sys2Proof.Machine
end

section
/-! The statements of 10_state.md: reset, the invariants, the writers of each part, and the hidden state. -/

namespace Sys2Proof.Proofs

open Sys2Proof.Machine Sys2Proof.Claims

/-- Settles O1: the values of `State.reset` and of the two reset commands, by evaluation, and the idle step. -/
theorem resetLeavesTheStatedValues : Obligations.ResetLeavesTheStatedValues := by
  unfold Obligations.ResetLeavesTheStatedValues
  refine ⟨⟨rfl, rfl, rfl, rfl, rfl, rfl, rfl, rfl, rfl, Mem.read_empty, Mem.read_empty⟩,
    ⟨rfl, rfl, step_no_command rfl rfl⟩, fun s => ?_⟩
  exact ⟨withRx (resetRx s.rx) s, _, rfl, rfl, rfl, rfl⟩

/-- Settles O54, one case for each operation. -/
theorem onlyTheNamedOperationsWrite : Obligations.OnlyTheNamedOperationsWrite := by
  unfold Obligations.OnlyTheNamedOperationsWrite
  intro i s t h
  obtain ⟨hrx, htx, hbk, henv, hres, hmicro, hcfg, hhost⟩ := writesAtMost_exec h
  exact ⟨hrx, htx, hbk, henv, hres, hmicro, hcfg, hhost⟩

/-- Settles O57: the receiver of reset is one that RX_RESET leaves, and the built configuration is valid. -/
theorem invariantsHoldAtReset : Obligations.InvariantsHoldAtReset := blockInv_reset

/-- Settles O58: the receiver's, the buffer's and the control's clauses through the three cases of a step. -/
theorem everyStepKeepsTheInvariants : Obligations.EveryStepKeepsTheInvariants := by
  unfold Obligations.EveryStepKeepsTheInvariants
  intro s t h ht
  refine step_induct s (fun _ _ => h) (fun i cs u hs hi hu => ?_) (fun _ => h.resume) ht
  have hfetched : BlockInv (withHost cs s) := h.of_frame rfl rfl rfl rfl le_rfl
  exact hfetched.exec hs hi hu

/-- Settles O60: every operation a step runs takes states alike to the host to states alike to the host. -/
theorem hiddenStateNeverShows : Obligations.HiddenStateNeverShows := by
  unfold Obligations.HiddenStateNeverShows
  exact fun _ _ h => h.step

end Sys2Proof.Proofs
end

section
/-! SUPPORT. The two decoders by what they accept (30_encoding.md R96 to R98), and the length bytes and the check byte as
the only ones that fit a frame. -/

namespace Sys2Proof

/-! ### Host commands -/

/-- The codes from 0x8 on are the ones R96 assigns nothing (R97). -/
theorem decode_of_eight_le {c : Command} (h : 8 ≤ c.op.toNat) :
    decode c = .invalid (.reserved (c.op.extractLsb' 0 3)) := by
  unfold decode
  split
  case h_9 => rfl
  all_goals simp_all

theorem decode_plain_reserved (low : BitVec 3) : decode (.plain (1#1 ++ low)) = .invalid (.reserved low) := by
  have hcode : 8 ≤ (1#1 ++ low).toNat := by revert low; decide
  rw [decode_of_eight_le hcode]
  congr 2
  exact BitVec.extractLsb'_append_eq_right

/-! ### The fields of a frame -/

/-- The length bytes of a frame are determined by the number they assemble to (R85, R86). -/
theorem eq_length_bytes_of_assembleLength {m l : Byte} {n : Nat} (h : assembleLength m l = n + 2) :
    m = lenMsb n ∧ l = lenLsb n := by
  unfold assembleLength at h
  have hm := m.isLt
  have hl := l.isLt
  constructor <;> apply BitVec.eq_of_toNat_eq <;> simp only [lenMsb, lenLsb, BitVec.toNat_ofNat] <;> omega

theorem assembleLength_le (m l : Byte) : assembleLength m l ≤ 65535 := by
  have hm := m.isLt
  have hl := l.isLt
  unfold assembleLength
  omega

/-- Only the check byte of R89 makes the covered bytes sum to 0xFF. -/
theorem eq_checkByte_of_byteSum {a f c : Byte} {p : List Byte} (h : byteSum (a :: f :: (p ++ [c])) = 0xFF) :
    c = checkByte a f p := by
  rw [← List.cons_append, ← List.cons_append, byteSum_append, byteSum_cons c, byteSum_nil, add_zero] at h
  exact (add_eq_FF_iff _ _).mp h

/-! ### The frame decoder -/

theorem decodeBody_ok_iff {body rest : List Byte} {x : Instr × List Byte} :
    decodeBody body rest = .ok x ↔
      ∃ a f tail, body = a :: f :: tail ∧ byteSum body = 0xFF ∧ x = (.frame a f tail.dropLast, rest) := by
  unfold decodeBody
  split
  · rename_i a f tail
    split <;> simp_all [eq_comm]
  · simp_all

/-- The frame decoder accepts a string that begins with START_BYTE and two length bytes, holds the number of bytes they
declare and one more without a START_BYTE, and whose body is accepted (R80, R91, R92, R98). -/
theorem decodeFrame_ok_iff {start : Byte} {bytes : List Byte} {x : Instr × List Byte} :
    decodeFrame start bytes = .ok x ↔
      ∃ m l body rest, bytes = start :: m :: l :: (body ++ rest) ∧ body.length = assembleLength m l + 1 ∧
        start ∉ m :: l :: body ∧ 2 ≤ assembleLength m l ∧ decodeBody body rest = .ok x := by
  constructor
  · intro h
    match bytes with
    | [] => cases h
    | d :: tail =>
      by_cases hd : d = start
      case neg => simp [decodeFrame, hd] at h
      subst hd
      match tail with
      | [] => simp [decodeFrame] at h
      | [m] =>
        simp only [decodeFrame, ne_eq, not_true, if_false] at h
        split_ifs at h
      | m :: l :: tail =>
        simp only [decodeFrame, ne_eq, not_true, if_false] at h
        split_ifs at h with hs hL ht
        exact ⟨m, l, _, _, by simp, by simp; omega, by simpa [eq_comm] using hs, by omega, h⟩
  · rintro ⟨m, l, body, rest, rfl, hlen, hstart, hL, hbody⟩
    have htake : (body ++ rest).take (assembleLength m l + 1) = body := List.take_left' hlen
    have hdrop : (body ++ rest).drop (assembleLength m l + 1) = rest := List.drop_left' hlen
    have hsize : ¬ (body ++ rest).length < assembleLength m l + 1 := by simp; omega
    have hinside : ¬ (m = start ∨ l = start ∨ start ∈ body) := by simpa [eq_comm] using hstart
    simp only [decodeFrame, ne_eq, not_true, if_false, htake, hdrop, hinside, hsize, Nat.not_lt.mpr hL, hbody]

end Sys2Proof
end

section
/-! SUPPORT. The ten byte classes as one function of the class: what each row of 30_encoding.md R90 does, and that the
pseudocode of 41_receiver.md R122 does the same. -/

namespace Sys2Proof.Machine

open Sys2Proof.Claims

/-- The effect that the row of a class has on the receiver's record (R90, R123 to R131). -/
def classEffect (k : ByteClass) (b : Byte) (r : Rx) : Rx :=
  match k with
  | .restart => raiseError .unexpectedStartByte r
  | .overrun => raiseError .packetExceedsCapacity r
  | .skip => r
  | .start => { r with position := 1 }
  | .lenMsb => { r with lengthMsb := b, position := 2 }
  | .lenLsb => { r with lengthLsb := b, position := 3 }
  | .apiId => { r with sum := sumAdd r.sum b, apiId := b, position := 4 }
  | .termOk => { r with outcome := .available, recLen := r.position - 4, position := 0, sum := sumClear }
  | .termBad => { raiseError .checksumFailure r with position := 0, sum := sumClear }
  | .data =>
    { r with sum := sumAdd r.sum b, payload := Mem.write r.payload (payloadIndex r.position) b,
             position := r.position + 1 }

theorem exec_rowOf (k : ByteClass) (b : Byte) (s : State) :
    exec (rowOf k b) s = asClass k b s (classEffect k b s.rx) := by
  cases k <;> rfl

/-- RX_BYTE is the effect of the byte's class. -/
theorem stepByte_eq_classEffect (cfg : Cfg) (b : Byte) (r : Rx) :
    stepByte cfg b r = classEffect (classify cfg r b) b r := by
  rcases stepByte_cases cfg b r with ⟨hp, hb, e⟩ | ⟨hb, hp, e⟩ | ⟨hp, hb, e⟩ | ⟨hp, hb, e⟩ | ⟨hb, hc, hp, e⟩ |
    ⟨hb, hc, hp, e⟩ | ⟨hb, hc, hp, e⟩ | ⟨hb, hc, h4, hp, hv, e⟩ | ⟨hb, hc, h4, hp, hv, e⟩ | ⟨hb, hc, h4, hp, e⟩
  · rw [e, classify_restart hp hb]; rfl
  · rw [e, classify_overrun hb hp]; rfl
  · rw [e, classify_skip hp hb]; rfl
  · rw [e, classify_start hp hb]; rfl
  · rw [e, classify_lenMsb hb hc hp]; rfl
  · rw [e, classify_lenLsb hb hc hp]; rfl
  · rw [e, classify_apiId hb hc hp]; rfl
  · rw [e, classify_termOk hb hc h4 hp hv]; rfl
  · rw [e, classify_termBad hb hc h4 hp hv]; rfl
  · rw [e, classify_data hb hc h4 hp]; rfl

end Sys2Proof.Machine
end

section
/-! SUPPORT. Bytes written to a memory one after another. -/

namespace Sys2Proof.Machine

/-- Write bytes to the cells from `i` on, in order. -/
def Mem.writeFrom (m : Mem) (i : Nat) : List Byte → Mem
  | [] => m
  | b :: bs => Mem.writeFrom (Mem.write m i b) (i + 1) bs

theorem Mem.read_writeFrom_below (m : Mem) {i j : Nat} (bs : List Byte) (h : j < i) :
    Mem.read (Mem.writeFrom m i bs) j = Mem.read m j := by
  induction bs generalizing m i with
  | nil => rfl
  | cons b bs ih => rw [writeFrom, ih _ (by omega), read_write_other _ _ (by omega)]

theorem Mem.read_writeFrom_above (m : Mem) {i j : Nat} (bs : List Byte) (h : i + bs.length ≤ j) :
    Mem.read (Mem.writeFrom m i bs) j = Mem.read m j := by
  induction bs generalizing m i with
  | nil => rfl
  | cons b bs ih =>
    rw [List.length_cons] at h
    rw [writeFrom, ih _ (by omega), read_write_other _ _ (by omega)]

theorem Mem.read_writeFrom_inside (m : Mem) (i : Nat) {k : Nat} {bs : List Byte} (h : k < bs.length) :
    Mem.read (Mem.writeFrom m i bs) (i + k) = some bs[k] := by
  induction bs generalizing m i k with
  | nil => simp at h
  | cons b bs ih =>
    cases k with
    | zero => rw [writeFrom, read_writeFrom_below _ _ (by omega)]; exact read_write_same m i b
    | succ k =>
      have hrest := ih (Mem.write m i b) (i + 1) (Nat.lt_of_succ_lt_succ h)
      rwa [Nat.add_right_comm] at hrest

/-- The cells written from the first one on read as the bytes written (R130). -/
theorem payCells_writeFrom {r : Rx} {m : Mem} {bs : List Byte} (h : r.payload = Mem.writeFrom m 0 bs) :
    payCells r bs.length = bs := by
  refine List.ext_getElem (by simp) fun k _ hk => ?_
  have hread := Mem.read_writeFrom_inside m 0 hk
  rw [Nat.zero_add, ← h] at hread
  simp [payCells, payRead, hread]

end Sys2Proof.Machine
end

section
/-! SUPPORT. Bytes given to RX_BYTE one after another, part by part of a frame (41_receiver.md R126 to R131, R137), and
which of them meet a PENDING outcome. -/

namespace Sys2Proof.Machine

open Sys2Proof.Claims

@[simp] theorem receive_nil (cfg : Cfg) (r : Rx) : receive cfg [] r = r := rfl

@[simp] theorem receive_cons (cfg : Cfg) (b : Byte) (bs : List Byte) (r : Rx) :
    receive cfg (b :: bs) r = receive cfg bs (stepByte cfg b r) := rfl

theorem receive_append (cfg : Cfg) (bs cs : List Byte) (r : Rx) :
    receive cfg (bs ++ cs) r = receive cfg cs (receive cfg bs r) := List.foldl_append

/-- Every byte meets a PENDING outcome: RX_BYTE is given all of them (R122, R132). -/
def MeetsPending (cfg : Cfg) : List Byte → Rx → Prop
  | [], _ => True
  | b :: bs, r => r.outcome = .pending ∧ MeetsPending cfg bs (stepByte cfg b r)

theorem meetsPending_append {cfg : Cfg} {bs cs : List Byte} {r : Rx} :
    MeetsPending cfg (bs ++ cs) r ↔ MeetsPending cfg bs r ∧ MeetsPending cfg cs (receive cfg bs r) := by
  induction bs generalizing r with
  | nil => simp [MeetsPending]
  | cons b bs ih => simp [MeetsPending, ih, and_assoc]

/-- FRAME gives RX_BYTE all its bytes when each meets a PENDING outcome (log 12). -/
theorem feed_of_meetsPending {bs : List Byte} {s : State} (h : MeetsPending s.cfg bs s.rx) :
    feed bs s = withRx (receive s.cfg bs s.rx) s := by
  induction bs generalizing s with
  | nil => rfl
  | cons b bs ih => rw [feed_pending h.1, ih h.2]; rfl

section
variable {cfg : Cfg} {r : Rx}

/-! ### A length that brings no terminator (R92, R93) -/

/-- The terminator that the length registers place is no position from 4 to CAP. -/
def NoTerminator (cfg : Cfg) (r : Rx) : Prop := declaredLength r = 0 ∨ cfg.cap < terminatorPosition r

/-- Without a terminator a byte that is not START_BYTE is the api-id or data, and the position advances. -/
theorem stepByte_of_noTerminator {b : Byte} (hb : b ≠ cfg.startByte) (h3 : 3 ≤ r.position) (hc : r.position ≤ cfg.cap)
    (ht : NoTerminator cfg r) :
    (stepByte cfg b r).outcome = r.outcome ∧ (stepByte cfg b r).position = r.position + 1 ∧
      NoTerminator cfg (stepByte cfg b r) := by
  rcases Nat.eq_or_lt_of_le h3 with h | h
  · rw [stepByte_apiId hb hc h.symm]
    exact ⟨rfl, by rw [← h], ht⟩
  · have hne : r.position ≠ terminatorPosition r := by
      unfold NoTerminator at ht
      unfold terminatorPosition at ht ⊢
      omega
    rw [stepByte_data hb hc h hne]
    exact ⟨rfl, rfl, ht⟩

theorem receive_of_noTerminator {bs : List Byte} (hb : cfg.startByte ∉ bs) (h3 : 3 ≤ r.position)
    (hc : r.position + bs.length ≤ cfg.cap + 1) (ht : NoTerminator cfg r) :
    (receive cfg bs r).outcome = r.outcome ∧ (receive cfg bs r).position = r.position + bs.length := by
  induction bs generalizing r with
  | nil => exact ⟨rfl, rfl⟩
  | cons b bs ih =>
    rw [List.mem_cons, not_or] at hb
    rw [List.length_cons] at hc
    obtain ⟨ho, hp, ht'⟩ := stepByte_of_noTerminator (Ne.symm hb.1) h3 (by omega) ht
    obtain ⟨ho', hp'⟩ := ih hb.2 (by omega) (by omega) ht'
    exact ⟨ho'.trans ho, by rw [receive_cons, hp', hp, List.length_cons]; omega⟩

/-! ### The parts of a frame -/

/-- The receiver after START_BYTE, the length and the api-id, from a frame start. -/
def afterHeader (m l a : Byte) (r : Rx) : Rx :=
  { r with lengthMsb := m, lengthLsb := l, apiId := a, sum := a, position := 4 }

/-- The header of a frame (R126 to R129). -/
theorem receive_header {m l a : Byte} (hr : AtFrameStart r) (ho : r.outcome = .pending) (hcap : 3 ≤ cfg.cap)
    (hm : m ≠ cfg.startByte) (hl : l ≠ cfg.startByte) (ha : a ≠ cfg.startByte) :
    receive cfg [cfg.startByte, m, l, a] r = afterHeader m l a r ∧ MeetsPending cfg [cfg.startByte, m, l, a] r := by
  obtain ⟨hp, hs⟩ := hr
  have h1 : stepByte cfg cfg.startByte r = { r with position := 1 } := stepByte_start hp rfl
  have h2 : stepByte cfg m { r with position := 1 } = { r with lengthMsb := m, position := 2 } :=
    stepByte_lenMsb hm (by show 1 ≤ cfg.cap; omega) rfl
  have h3 : stepByte cfg l { r with lengthMsb := m, position := 2 } =
      { r with lengthMsb := m, lengthLsb := l, position := 3 } :=
    stepByte_lenLsb hl (by show 2 ≤ cfg.cap; omega) rfl
  have h4 : stepByte cfg a { r with lengthMsb := m, lengthLsb := l, position := 3 } = afterHeader m l a r := by
    rw [stepByte_apiId ha hcap rfl]
    simp [afterHeader, sumAdd, hs]
  simp only [receive_cons, receive_nil, MeetsPending, h1, h2, h3, h4]
  exact ⟨trivial, ho, ho, ho, ho, trivial⟩

/-- The receiver after data bytes (R130). -/
def afterData (bs : List Byte) (r : Rx) : Rx :=
  { r with sum := r.sum + byteSum bs, payload := Mem.writeFrom r.payload (r.position - 4) bs,
           position := r.position + bs.length }

/-- Bytes before the terminator and within CAP are data. -/
theorem receive_data {bs : List Byte} (hb : cfg.startByte ∉ bs) (ho : r.outcome = .pending) (h4 : 4 ≤ r.position)
    (hc : r.position + bs.length ≤ cfg.cap + 1) (ht : r.position + bs.length ≤ terminatorPosition r) :
    receive cfg bs r = afterData bs r ∧ MeetsPending cfg bs r := by
  induction bs generalizing r with
  | nil => exact ⟨by simp [afterData, Mem.writeFrom], trivial⟩
  | cons b bs ih =>
    rw [List.mem_cons, not_or] at hb
    rw [List.length_cons] at hc ht
    have hstep := stepByte_data (Ne.symm hb.1) (by omega : r.position ≤ cfg.cap) h4 (by omega)
    have hlen : (storePayload b { r with sum := sumAdd r.sum b }).position + bs.length =
        r.position + (bs.length + 1) := by
      rw [Nat.add_comm bs.length, ← Nat.add_assoc]; rfl
    obtain ⟨hrec, hpend⟩ := ih (r := storePayload b { r with sum := sumAdd r.sum b }) hb.2 ho (Nat.le_succ_of_le h4)
      (hlen ▸ hc) (hlen ▸ ht)
    refine ⟨?_, ho, hstep ▸ hpend⟩
    have hindex : r.position + 1 - 4 = r.position - 4 + 1 := by omega
    rw [receive_cons, hstep, hrec]
    simp [afterData, storePayload, sumAdd, byteSum_cons, payloadIndex, Mem.writeFrom, hindex, add_assoc, Nat.add_comm]

/-! ### A whole frame (R137) -/

/-- A frame up to its terminator, which alone gives the verdict (R131). -/
theorem receive_to_terminator {m l a c : Byte} {d : List Byte} (hr : AtFrameStart r) (ho : r.outcome = .pending)
    (hb : cfg.startByte ∉ m :: l :: a :: (d ++ [c])) (hlen : d.length + 1 = assembleLength m l)
    (hcap : d.length + 4 ≤ cfg.cap) :
    receive cfg ([cfg.startByte, m, l, a] ++ d ++ [c]) r =
        closeFrame { afterData d (afterHeader m l a r) with sum := byteSum (a :: d ++ [c]) } ∧
      MeetsPending cfg ([cfg.startByte, m, l, a] ++ d ++ [c]) r := by
  simp only [List.mem_cons, List.mem_append, List.not_mem_nil, or_false, not_or] at hb
  obtain ⟨hm, hl, ha, hd, hc⟩ := hb
  obtain ⟨hhead, hpend⟩ := receive_header hr ho (by omega) (Ne.symm hm) (Ne.symm hl) (Ne.symm ha)
  have hterm : terminatorPosition (afterHeader m l a r) = 4 + d.length := by
    show assembleLength m l + 3 = _
    omega
  obtain ⟨hdata, hpend'⟩ := receive_data (r := afterHeader m l a r) hd ho le_rfl
    (by show 4 + d.length ≤ _; omega) hterm.ge
  have hclose := stepByte_terminator (r := afterData d (afterHeader m l a r)) (Ne.symm hc)
    (by show 4 + d.length ≤ _; omega) (Nat.le_add_right 4 _) hterm.symm
  have hsum : sumAdd (afterData d (afterHeader m l a r)).sum c = byteSum (a :: d ++ [c]) := by
    rw [byteSum_append, byteSum_cons a, byteSum_cons c, byteSum_nil, add_zero]; rfl
  simp only [receive_append, meetsPending_append, hhead, hdata, receive_cons, receive_nil, hclose, hsum]
  exact ⟨trivial, ⟨hpend, hpend'⟩, ho, trivial⟩

/-- The receiver after a frame it has accepted, from a frame start. -/
def afterFrame (apiId frameId : Byte) (payload : List Byte) (r : Rx) : Rx :=
  { r with lengthMsb := lenMsb payload.length, lengthLsb := lenLsb payload.length, apiId := apiId,
           recLen := payload.length + 1, payload := Mem.writeFrom r.payload 0 (frameId :: payload),
           outcome := .available, position := 0, sum := 0 }

theorem receive_frame {apiId frameId : Byte} {payload : List Byte} (hr : AtFrameStart r) (ho : r.outcome = .pending)
    (hf : Receivable cfg apiId frameId payload) :
    receive cfg (frameBytes cfg.startByte apiId frameId payload) r = afterFrame apiId frameId payload r ∧
      MeetsPending cfg (frameBytes cfg.startByte apiId frameId payload) r := by
  obtain ⟨hfits, hinside, hcap⟩ := hf
  obtain ⟨hclose, hpend⟩ := receive_to_terminator (d := frameId :: payload) hr ho hinside
    (assembleLength_split hfits).symm hcap
  refine ⟨hclose.trans ?_, hpend⟩
  rw [closeFrame_valid (byteSum_checkByte apiId frameId payload)]
  simp [afterFrame, afterData, afterHeader]

theorem received_afterFrame (apiId frameId : Byte) (payload : List Byte) (r : Rx) :
    Received (afterFrame apiId frameId payload r) apiId frameId payload :=
  ⟨rfl, rfl, rfl, payCells_writeFrom (bs := frameId :: payload) rfl, rfl, rfl, rfl, rfl⟩

end

end Sys2Proof.Machine
end

section
/-! SUPPORT. A poll of the host against a queued peer, up to the byte that brings a terminal outcome (41_receiver.md R132,
D16, D17). -/

namespace Sys2Proof.Machine

open Sys2Proof.Claims

/-- The state after bytes pulled from a queue and given to RX_BYTE, `rest` still queued. -/
def afterPulls (bs rest : List Byte) (s : State) : State :=
  { s with rx := receive s.cfg bs s.rx, env := { s.env with peer := .queue rest },
           trace := s.trace ++ pulls s.cfg.fillerByte bs }

theorem afterPulls_cons (b : Byte) (bs rest : List Byte) (s : State) :
    afterPulls (b :: bs) rest s = afterPulls bs rest (afterPulls [b] (bs ++ rest) s) := by
  simp [afterPulls, pulls]

theorem pullByte_queue {b : Byte} {q : List Byte} {s : State} (h : s.env.peer = .queue (b :: q)) :
    pullByte (readSignal s) = afterPulls [b] q s := by
  simp [pullByte, rxByte, withRx, exchange, readSignal, afterPulls, pulls, signalAnswer_queue h, afterSignal_queue h,
    exchangeAnswer_queue_cons h, afterExchange_queue_cons h]

/-- One iteration of a poll whose peer has a byte queued. -/
theorem advance_poll_queue {b : Byte} {q : List Byte} {s : State} (hc : s.ctl = .poll .host)
    (h : s.env.peer = .queue (b :: q)) :
    advance s = if (stepByte s.cfg b s.rx).outcome = .pending then afterPulls [b] q s
      else withCtl .idle (afterPulls [b] q s) := by
  have hs : signalAnswer s.env = true := by simp [signalAnswer_queue h]
  simp only [advance_poll hc, pollIteration, hs, if_true, pullByte_queue h, endPoll_host]
  rfl

theorem advanceBy_poll_queue {bs rest : List Byte} {s : State} (hc : s.ctl = .poll .host)
    (hq : s.env.peer = .queue (bs ++ rest)) (hp : s.rx.outcome = .pending) (hbs : MeetsPending s.cfg bs s.rx)
    (hend : (receive s.cfg bs s.rx).outcome ≠ .pending) :
    advanceBy bs.length s = withCtl .idle (afterPulls bs rest s) := by
  induction bs generalizing s with
  | nil => exact absurd hp hend
  | cons b bs ih =>
    rw [List.cons_append] at hq
    rw [List.length_cons, advanceBy, advance_poll_queue hc hq]
    split
    · rename_i hb
      rw [ih (s := afterPulls [b] (bs ++ rest) s) hc rfl hb hbs.2 hend, ← afterPulls_cons]
    · rename_i hb
      obtain rfl : bs = [] := by
        cases bs with
        | nil => rfl
        | cons c cs => exact absurd hbs.2.1 hb
      rfl

/-- RX_POLL of a queue that holds bytes up to a terminal outcome pulls exactly these, in the one step (log 1). -/
theorem rxPoll_queue {bs rest : List Byte} {s : State} (hq : s.env.peer = .queue (bs ++ rest))
    (hbs : MeetsPending s.cfg bs (discardOutcome s.rx))
    (hend : (receive s.cfg bs (discardOutcome s.rx)).outcome ≠ .pending) :
    rxPoll s = withCtl .idle (afterPulls bs rest (startPoll .host s)) := by
  have hrun := advanceBy_poll_queue (s := startPoll .host s) rfl hq (discardOutcome_outcome s.rx) hbs hend
  have hidle : (advanceBy bs.length (startPoll .host s)).ctl = .idle := by rw [hrun]; rfl
  have hheld : bs.length ≤ heldAnswers (startPoll .host s).env + 1 := by simp [heldAnswers, hq]; omega
  rw [rxPoll, resume, advanceBy_of_le hidle hheld, hrun]

/-- RX_POLL at a frame start receives the receivable frame at the head of the queue (R137). -/
theorem rxPoll_queued_frame {apiId frameId : Byte} {payload rest : List Byte} {s : State} (hr : AtFrameStart s.rx)
    (hf : Receivable s.cfg apiId frameId payload)
    (hq : s.env.peer = .queue (frameBytes s.cfg.startByte apiId frameId payload ++ rest)) :
    rxPoll s = { s with
      rx := afterFrame apiId frameId payload s.rx, ctl := .idle, env := { s.env with peer := .queue rest },
      trace := s.trace ++ pulls s.cfg.fillerByte (frameBytes s.cfg.startByte apiId frameId payload) } := by
  have hstart : AtFrameStart (discardOutcome s.rx) := by simpa [AtFrameStart] using hr
  obtain ⟨hrec, hpend⟩ := receive_frame hstart (discardOutcome_outcome s.rx) hf
  rw [rxPoll_queue hq hpend (by rw [hrec]; nofun)]
  have hdiscard : afterFrame apiId frameId payload (discardOutcome s.rx) = afterFrame apiId frameId payload s.rx := by
    rw [discardOutcome_eq]; rfl
  simp [afterPulls, withCtl, hrec, hdiscard]

end Sys2Proof.Machine
end

section
/-! SUPPORT. TX_FRAME as START_BYTE, emissions and a drain, whatever the environment answers (43_transmitter.md R161 to
R164), and against an empty queue. -/

namespace Sys2Proof.Machine

open Sys2Proof.Claims

/-! ### Emissions (R163) -/

/-- The state after bytes emitted one after another. -/
def afterEmissions (bs : List Byte) (s : State) : State :=
  { s with bk := appendAll s.cfg (captured (pairAnswers bs.length s.env)) s.bk,
           trace := s.trace ++ emissions bs (pairAnswers bs.length s.env),
           env := afterPairs bs.length s.env }

theorem txEmit_eq_afterEmissions (b : Byte) (s : State) : txEmit b s = afterEmissions [b] s := by
  unfold txEmit
  split
  · rename_i h
    simp [afterEmissions, h, pairAnswers_succ, afterPairs_succ, captured, emissions, appendAll, exchangeCaptured,
      bkAppend, withBk, exchange, readSignal]
  · rename_i h
    simp [afterEmissions, h, pairAnswers_succ, afterPairs_succ, captured, emissions, appendAll, exchange, readSignal]

theorem afterEmissions_cons (b : Byte) (bs : List Byte) (s : State) :
    afterEmissions (b :: bs) s = afterEmissions bs (txEmit b s) := by
  rw [txEmit_eq_afterEmissions]
  cases h : signalAnswer s.env <;>
    simp [afterEmissions, pairAnswers_succ, afterPairs_succ, captured, emissions, appendAll, h]

theorem afterEmissions_append (bs cs : List Byte) (s : State) :
    afterEmissions (bs ++ cs) s = afterEmissions cs (afterEmissions bs s) := by
  induction bs generalizing s with
  | nil => simp [afterEmissions, emissions, captured, appendAll]
  | cons b bs ih => rw [List.cons_append, afterEmissions_cons, afterEmissions_cons, ih]

/-- The transmitter's sum and the emissions do not touch each other. -/
theorem afterEmissions_setAcc (bs : List Byte) (v : Byte) (s : State) :
    afterEmissions bs (setAcc .tx v s) = setAcc .tx v (afterEmissions bs s) := rfl

/-- The covered bytes are emitted and summed (R164). -/
theorem foldl_txCovered (bs : List Byte) (s : State) :
    bs.foldl txCovered s = setAcc .tx (s.tx.sum + byteSum bs) (afterEmissions bs s) := by
  induction bs generalizing s with
  | nil => simp [afterEmissions, setAcc, emissions, captured, appendAll]
  | cons b bs ih =>
    rw [List.foldl_cons, ih, afterEmissions_cons, byteSum_cons, ← add_assoc]
    simp only [txCovered, ckAdd, txEmit_eq_afterEmissions, afterEmissions_setAcc]
    rfl

/-- Steps 1 to 5 of TX_FRAME: the bytes of the frame, START_BYTE without a signal read, and their covered sum. -/
theorem txFramePart_eq (apiId frameId : Byte) (payload : List Byte) (s : State) :
    txFramePart apiId frameId payload s =
      afterEmissions (frameBytes s.cfg.startByte apiId frameId payload).tail
        (setAcc .tx (byteSum (apiId :: frameId :: payload)) (exchange s.cfg.startByte s)) := by
  have hheader : txHeader payload.length s =
      setAcc .tx 0 (afterEmissions [lenMsb payload.length, lenLsb payload.length] (exchange s.cfg.startByte s)) := by
    simp only [txHeader, txEmit_eq_afterEmissions, ← afterEmissions_append]
    rfl
  have hbytes : (frameBytes s.cfg.startByte apiId frameId payload).tail =
      [lenMsb payload.length, lenLsb payload.length] ++ (apiId :: frameId :: payload) ++
        [checkByte apiId frameId payload] := rfl
  rw [txFramePart, hheader, foldl_txCovered, hbytes, afterEmissions_append, afterEmissions_append,
    txEmit_eq_afterEmissions, setAcc_tx_tx, zero_add]
  rfl

theorem txDrain_deasserted {s : State} (h : signalAnswer s.env = false) : txDrain s = readSignal s := by
  simp [txDrain, drainLoop, h]

/-- Each emission sends its byte (R165). -/
theorem sentBytes_emissions {outs : List Byte} {answers : List (Bool × Byte)} (h : outs.length = answers.length) :
    sentBytes (emissions outs answers) = outs := by
  induction outs generalizing answers with
  | nil => rfl
  | cons b outs ih =>
    cases answers with
    | nil => simp at h
    | cons x answers =>
      have hrest := ih (Nat.succ.inj h)
      rw [emissions] at hrest
      simp [emissions, sentBytes, hrest]

/-! ### Against an empty queue (R15, R100) -/

theorem afterEmissions_emptyQueue {bs : List Byte} {s : State} (h : s.env.peer = .queue []) :
    afterEmissions bs s = { s with trace := s.trace ++ emissions bs (bs.map fun _ => (false, 0)) } := by
  have he : ({ s.env with peer := .queue [] } : Env) = s.env := by rw [← h]
  simp [afterEmissions, pairAnswers_queue h, afterPairs_queue h, he, captured, appendAll]

theorem txFrame_emptyQueue (apiId frameId : Byte) (payload : List Byte) {s : State} (h : s.env.peer = .queue []) :
    txFrame apiId frameId payload s = { s with
      tx := { sum := byteSum (apiId :: frameId :: payload) },
      trace := s.trace ++ [.xchg s.cfg.startByte 0] ++
        emissions (frameBytes s.cfg.startByte apiId frameId payload).tail
          ((frameBytes s.cfg.startByte apiId frameId payload).tail.map fun _ => (false, 0)) ++ [.sig false] } := by
  have hpart : (txFramePart apiId frameId payload s).env.peer = .queue [] := by
    rw [txFramePart_eq, afterEmissions_emptyQueue (by simp [afterExchange_queue_nil h, h])]
    simp [afterExchange_queue_nil h, h]
  rw [txFrame, txDrain_deasserted (by simp [signalAnswer_queue hpart]), txFramePart_eq,
    afterEmissions_emptyQueue (by simp [afterExchange_queue_nil h, h])]
  simp [readSignal, setAcc, exchange, exchangeAnswer_queue_nil h, afterExchange_queue_nil h, afterSignal_queue h,
    signalAnswer_queue h]

/-- The bytes LOOPBACK sends are those of the frame (R100, R165). -/
theorem loopback_eq (apiId frameId : Byte) (payload : List Byte) (s : State) :
    loopback apiId frameId payload s =
      withPeer s.env.peer (rxPoll (queuePeer (frameBytes s.cfg.startByte apiId frameId payload)
        (txFrame apiId frameId payload (queuePeer [] s)))) := by
  have hsent : sentBytes (newEvents s (txFrame apiId frameId payload (queuePeer [] s))) =
      frameBytes s.cfg.startByte apiId frameId payload := by
    rw [txFrame_emptyQueue apiId frameId payload (s := queuePeer [] s) rfl,
      newEvents_of_trace (by simp only [queuePeer, withPeer_trace, List.append_assoc]; rfl), sentBytes_append,
      sentBytes_append, sentBytes_emissions (by simp)]
    simp [sentBytes, frameBytes_eq]
  rw [loopback, hsent]

end Sys2Proof.Machine
end

section
/-! The statements of 30_encoding.md: the two encodings, the byte classes, frames received and looped back. -/

namespace Sys2Proof.Proofs

open Sys2Proof.Machine Sys2Proof.Claims

/-- Settles O2, one case for each code. -/
theorem commandCodesNameTheirCommands : Obligations.CommandCodesNameTheirCommands := by
  unfold Obligations.CommandCodesNameTheirCommands
  rintro ⟨op, deadline, a, f, p⟩
  refine ⟨?_, ?_, ?_, ?_, ?_, ?_, ?_, ?_, fun h => decode_of_eight_le h⟩
  all_goals
    rintro rfl
    rfl

/-- Settles O3: a reserved code decodes to its RESERVED row, which has no step, and what any command decodes to has a
code. -/
theorem nopDoesNothingAndReservedCodesAreRefused : Obligations.NopDoesNothingAndReservedCodesAreRefused := by
  unfold Obligations.NopDoesNothingAndReservedCodesAreRefused
  refine ⟨fun _ => rfl, fun _ _ => rfl, fun c cs s h hi hc => ?_, fun c => ?_, fun a b => ?_⟩
  · have hd := decode_of_eight_le h
    exact ⟨⟨_, hd⟩, _, by rw [step_command hi hc, hd]; rfl⟩
  · have hcommand := hostCommand_decode c
    generalize (decode c).instr = i at hcommand
    cases hcommand <;> exact Option.some_ne_none _
  · exact ⟨rfl, rfl, rfl, rfl, rfl, rfl, rfl, rfl, rfl⟩

/-- Settles O4: the code of each command is in its own arm of the decoder, and a reserved code keeps its low bits. -/
theorem decodeOfEncodeIsTheInstruction : Obligations.DecodeOfEncodeIsTheInstruction := by
  unfold Obligations.DecodeOfEncodeIsTheInstruction
  intro i c h
  cases i
  case reserved low =>
    obtain rfl : Command.plain (1#1 ++ low) = c := by simpa [encode] using h
    rw [decode_plain_reserved]
    rfl
  all_goals cases h <;> rfl

/-- Settles O5: the length bytes of a frame whose length fits assemble to its length, and its check byte makes the sum
0xFF. -/
theorem frameDecodeOfEncodeIsTheFrame : Obligations.FrameDecodeOfEncodeIsTheFrame := by
  unfold Obligations.FrameDecodeOfEncodeIsTheFrame
  intro start a f p rest hwf
  obtain ⟨hfits, hstart⟩ : LengthFits p ∧ NoStartInside start a f p := by simpa [Instr.wellFormed] using hwf
  have hlen := assembleLength_split hfits
  refine decodeFrame_ok_iff.mpr ⟨lenMsb p.length, lenLsb p.length, a :: f :: (p ++ [checkByte a f p]), rest, ?_, ?_,
    hstart, by omega, ?_⟩
  · simp [frameBytes_eq]
  · simp [hlen]
  · exact decodeBody_ok_iff.mpr ⟨a, f, p ++ [checkByte a f p], rfl, byteSum_checkByte a f p, by simp⟩

/-- Settles O6: what the decoder accepts has its length and its check byte where the encoder puts them. -/
theorem frameDecoderAcceptsOnlyEncodedFrames : Obligations.FrameDecoderAcceptsOnlyEncodedFrames := by
  unfold Obligations.FrameDecoderAcceptsOnlyEncodedFrames
  intro start bytes rest i h
  obtain ⟨m, l, body, rest', rfl, hlen, hstart, hL, hbody⟩ := decodeFrame_ok_iff.mp h
  obtain ⟨a, f, tail, rfl, hsum, hx⟩ := decodeBody_ok_iff.mp hbody
  obtain ⟨rfl, rfl⟩ : i = .frame a f tail.dropLast ∧ rest = rest' := by simpa using hx
  obtain ⟨p, c, rfl⟩ : ∃ p c, tail = p ++ [c] := by
    have : tail ≠ [] := by rintro rfl; simp at hlen; omega
    exact ⟨_, _, (List.dropLast_concat_getLast this).symm⟩
  obtain rfl := eq_checkByte_of_byteSum hsum
  have hn : assembleLength m l = p.length + 2 := by simp at hlen; omega
  obtain ⟨rfl, rfl⟩ := eq_length_bytes_of_assembleLength hn
  have hfits : LengthFits p := hn.symm.le.trans (assembleLength_le _ _)
  rw [List.dropLast_concat]
  refine ⟨a, f, p, rfl, ?_, by simp [frameBytes_eq]⟩
  simpa [Instr.wellFormed, hfits, NoStartInside, frameBytes_eq] using hstart

/-- Settles O17: RX_BYTE and the row of the byte's class have the one effect of that class. -/
theorem rxByteRunsTheRowOfItsClass : Obligations.RxByteRunsTheRowOfItsClass := by
  unfold Obligations.RxByteRunsTheRowOfItsClass
  intro b s
  refine ⟨⟨rxByte b s, rfl, ?_⟩, fun k hk => ?_⟩
  · rw [exec_rowOf, asClass_of_class _ rfl, ← stepByte_eq_classEffect]
    rfl
  · rw [exec_rowOf]
    exact if_neg (Ne.symm hk)

/-- Settles O28: each byte of the frame meets a PENDING outcome, and the data bytes go to the first `n + 1` cells. -/
theorem frameRowDeliversAFrame : Obligations.FrameRowDeliversAFrame := by
  unfold Obligations.FrameRowDeliversAFrame
  intro apiId frameId payload s hr ho hf
  obtain ⟨hrec, hpend⟩ := receive_frame hr ho hf
  have hexec : exec (.frame apiId frameId payload) s = .next (withRx (afterFrame apiId frameId payload s.rx) s) := by
    rw [← hrec, ← feed_of_meetsPending hpend]
    exact if_pos hf.1
  refine ⟨_, hexec, received_afterFrame apiId frameId payload s.rx, rfl, fun i hi => ?_⟩
  exact Mem.read_writeFrom_above s.rx.payload (frameId :: payload) (by rwa [Nat.zero_add])

/-- Settles O31: without a terminator every byte is the api-id or data and advances the position, up to the overrun. -/
theorem overlongAndZeroLengthFramesOverrun : Obligations.OverlongAndZeroLengthFramesOverrun := by
  unfold Obligations.OverlongAndZeroLengthFramesOverrun
  intro cfg r bs ho h3 hc ht hb hlen
  have hrun : ∀ pre, pre <+: bs →
      (receive cfg pre r).outcome = .pending ∧ (receive cfg pre r).position = r.position + pre.length := by
    intro pre hpre
    have hle := hpre.length_le
    obtain ⟨hout, hpos⟩ := receive_of_noTerminator (fun h => hb (hpre.subset h)) h3 (by omega) ht
    exact ⟨hout.trans ho, hpos⟩
  have hend : (receive cfg bs r).position = cfg.cap + 1 := by
    rw [(hrun bs List.prefix_rfl).2]
    omega
  refine ⟨fun pre hpre => (hrun pre hpre).1, hend, fun b hne => ?_⟩
  rw [receive_append, receive_cons, receive_nil, stepByte_overrun hne (by omega)]
  exact ⟨rfl, hend⟩

/-- Settles O37: after RX_RESET the receiver is at a frame start, and the poll pulls the frame and no byte more. -/
theorem freshPollParsesAFreshFrame : Obligations.FreshPollParsesAFreshFrame := by
  unfold Obligations.FreshPollParsesAFreshFrame
  refine ⟨fun s => ⟨_, _, rfl, rfl, rfl⟩, fun apiId frameId payload rest s hf hq => ?_⟩
  have hpoll := rxPoll_queued_frame (s := withRx (resetRx s.rx) s) ⟨rfl, rfl⟩ hf hq
  refine ⟨_, congrArg Host.Outcome.next hpoll, ?_, rfl⟩
  exact received_afterFrame apiId frameId payload (resetRx s.rx)

/-- Settles O51: the poll of LOOPBACK finds the frame TX_FRAME sent at the head of its queue. -/
theorem loopbackReturnsTheFrame : Obligations.LoopbackReturnsTheFrame := by
  unfold Obligations.LoopbackReturnsTheFrame
  intro apiId frameId payload s hr hf
  refine ⟨loopback apiId frameId payload s, _, rfl, if_pos hf.1, ?_⟩
  rw [loopback_eq, txFrame_emptyQueue apiId frameId payload (s := queuePeer [] s) rfl,
    rxPoll_queued_frame (apiId := apiId) (frameId := frameId) (payload := payload) (rest := [])]
  · exact ⟨received_afterFrame apiId frameId payload s.rx, rfl⟩
  · exact hr
  · exact hf
  · rw [List.append_nil]
    rfl

/-- Settles O52: against an empty queue TX_FRAME captures and drains nothing, and the bytes it sends are the frame's. -/
theorem loopbackIsTransmitThenPoll : Obligations.LoopbackIsTransmitThenPoll := by
  unfold Obligations.LoopbackIsTransmitThenPoll
  intro apiId frameId payload s hfits
  have hsent := txFrame_emptyQueue apiId frameId payload (s := queuePeer [] s) rfl
  refine ⟨txFrame apiId frameId payload (queuePeer [] s), _, if_pos hfits, by rw [hsent]; rfl, by rw [hsent]; rfl,
    rfl, ?_⟩
  exact (if_pos hfits).trans (congrArg Host.Outcome.next (loopback_eq apiId frameId payload s))

end Sys2Proof.Proofs
end

section
/-! SUPPORT. The checksum's arithmetic (40_checksum.md R110 to R113, R115): what the four values are as numbers, what a
run of CK_ADD leaves in an accumulator, and what one changed and two exchanged bytes do to a sum. -/

namespace Sys2Proof

/-- A change of one added byte always shows in the sum (R115). -/
theorem byteSum_one_changed (pre post : List Byte) (x y : Byte) :
    byteSum (pre ++ x :: post) = byteSum (pre ++ y :: post) ↔ x = y := by
  simp only [byteSum_append, byteSum_cons, add_right_inj, add_left_inj]

/-- An exchange of two added bytes never shows in the sum (R115). -/
theorem byteSum_two_exchanged (pre mid post : List Byte) (x y : Byte) :
    byteSum (pre ++ x :: mid ++ y :: post) = byteSum (pre ++ y :: mid ++ x :: post) := by
  simp only [byteSum_append, byteSum_cons]
  ac_rfl

end Sys2Proof

namespace Sys2Proof.Machine

theorem sumValid_iff (v : Byte) : sumValid v = true ↔ v = 0xFF := beq_iff_eq

theorem sumAdd_toNat (a b : Byte) : (sumAdd a b).toNat = (a.toNat + b.toNat) % 256 := BitVec.toNat_add a b

theorem sumCompute_toNat (a : Byte) : (sumCompute a).toNat = 255 - a.toNat := by
  unfold sumCompute
  bv_omega

theorem sumCompute_eq_not (a : Byte) : sumCompute a = ~~~a :=
  BitVec.eq_of_toNat_eq ((sumCompute_toNat a).trans (BitVec.toNat_not (x := a)).symm)

theorem foldl_sumAdd_sumClear (bs : List Byte) : bs.foldl sumAdd sumClear = byteSum bs := rfl

/-- CK_ADD of bytes in order sums them in the accumulator it names. -/
theorem accValue_foldl_ckAdd (a : Acc) (bs : List Byte) (s : State) :
    accValue a (bs.foldl (fun s b => ckAdd a b s) s) = bs.foldl sumAdd (accValue a s) := by
  induction bs generalizing s with
  | nil => rfl
  | cons b bs ih => rw [List.foldl_cons, ih, ckAdd, accValue_setAcc, List.foldl_cons]

end Sys2Proof.Machine
end

section
/-! SUPPORT. A frame with one byte changed at the receiver (40_checksum.md R115; 41_receiver.md R123, R131): a frame whose
covered bytes sum to anything but 0xFF, and a START_BYTE inside a frame. -/

namespace Sys2Proof

/-- A frame with one byte from the api-id on changed: the header, then the covered bytes and the check byte with
one of them changed (R80). -/
theorem frameBytes_set {start apiId frameId y : Byte} {payload : List Byte} {k : Nat} (h3 : 3 ≤ k)
    (hk : k < payload.length + 6) (hne : (frameBytes start apiId frameId payload)[k]? ≠ some y) :
    ∃ pre x post, x ≠ y ∧ apiId :: frameId :: payload ++ [checkByte apiId frameId payload] = pre ++ x :: post ∧
      (frameBytes start apiId frameId payload).set k y =
        start :: lenMsb payload.length :: lenLsb payload.length :: (pre ++ y :: post) := by
  obtain ⟨j, rfl⟩ := Nat.exists_eq_add_of_le' h3
  rw [frameBytes_eq, List.getElem?_cons_succ, List.getElem?_cons_succ, List.getElem?_cons_succ] at hne
  have hj : j < (apiId :: frameId :: payload ++ [checkByte apiId frameId payload]).length := by simp; omega
  rw [List.getElem?_eq_getElem hj, ne_eq, Option.some_inj] at hne
  obtain ⟨pre, post, hbody, -, hset⟩ := List.exists_of_set (a' := y) hj
  refine ⟨pre, _, post, hne, hbody, ?_⟩
  rw [frameBytes_eq, List.set_cons_succ, List.set_cons_succ, List.set_cons_succ, hset]

end Sys2Proof

namespace Sys2Proof.Machine

open Sys2Proof.Claims

/-- FRAME gives RX_BYTE a first part that meets a PENDING outcome, and goes on from there (log 12). -/
theorem feed_append_of_meetsPending {bs cs : List Byte} {s : State} (h : MeetsPending s.cfg bs s.rx) :
    feed (bs ++ cs) s = feed cs (withRx (receive s.cfg bs s.rx) s) := by
  induction bs generalizing s with
  | nil => rfl
  | cons b bs ih =>
    obtain ⟨ho, hrest⟩ := h
    rw [List.cons_append, feed_pending ho, ih hrest]
    rfl

section
variable {cfg : Cfg} {r : Rx}

/-- Inside a frame only the terminator leads back to position 0, and it brings a terminal outcome (R131). -/
theorem stepByte_position_pos {b : Byte} (hp : 0 < r.position) (ho : (stepByte cfg b r).outcome = .pending) :
    0 < (stepByte cfg b r).position := by
  rcases stepByte_cases cfg b r with ⟨_, _, e⟩ | ⟨_, _, e⟩ | ⟨_, _, e⟩ | ⟨_, _, e⟩ | ⟨_, _, _, e⟩ | ⟨_, _, _, e⟩ |
    ⟨_, _, _, e⟩ | ⟨_, _, _, _, _, e⟩ | ⟨_, _, _, _, _, e⟩ | ⟨_, _, _, _, e⟩ <;> rw [e] at ho ⊢ <;> simp_all [raiseError]

/-- A byte that meets a PENDING outcome inside a frame meets a position past 0. -/
theorem receive_position_pos {bs cs : List Byte} {b : Byte} (hp : 0 < r.position)
    (h : MeetsPending cfg (bs ++ b :: cs) r) : 0 < (receive cfg bs r).position := by
  induction bs generalizing r with
  | nil => exact hp
  | cons d bs ih =>
    obtain ⟨-, hrest⟩ := h
    refine ih (stepByte_position_pos hp ?_) hrest
    cases bs <;> exact hrest.1

/-- START_BYTE inside a frame ends it (R123), whatever was to follow. -/
theorem feed_startByte_inside {bs cs : List Byte} {s : State} (h : MeetsPending s.cfg bs s.rx)
    (ho : (receive s.cfg bs s.rx).outcome = .pending) (hp : 0 < (receive s.cfg bs s.rx).position) :
    (feed (bs ++ s.cfg.startByte :: cs) s).rx.outcome = .error .unexpectedStartByte := by
  have hrestart : (rxByte s.cfg.startByte (withRx (receive s.cfg bs s.rx) s)).rx.outcome =
      .error .unexpectedStartByte := congrArg Rx.outcome (stepByte_restart hp rfl)
  rw [feed_append_of_meetsPending h, feed_pending ho, feed_terminal (by rw [hrestart]; nofun), hrestart]

/-- A frame whose covered bytes do not sum to 0xFF is rejected at its terminator (R131). -/
theorem receive_invalid_sum {m l : Byte} {body : List Byte} (hr : AtFrameStart r) (ho : r.outcome = .pending)
    (hb : cfg.startByte ∉ m :: l :: body) (h2 : 2 ≤ body.length) (hlen : body.length = assembleLength m l + 1)
    (hcap : body.length + 2 ≤ cfg.cap) (hsum : byteSum body ≠ 0xFF) :
    (receive cfg (cfg.startByte :: m :: l :: body) r).outcome = .error .checksumFailure ∧
      MeetsPending cfg (cfg.startByte :: m :: l :: body) r := by
  obtain ⟨a, d, c, rfl⟩ : ∃ a d c, body = a :: (d ++ [c]) := by
    match body with
    | a :: b :: tail => exact ⟨a, _, _, congrArg (a :: ·) (List.dropLast_concat_getLast (List.cons_ne_nil b tail)).symm⟩
  simp only [List.length_cons, List.length_append, List.length_nil] at hlen hcap
  obtain ⟨hclose, hpend⟩ := receive_to_terminator hr ho hb (by omega) (by omega)
  refine ⟨?_, hpend⟩
  exact congrArg Rx.outcome (hclose.trans (closeFrame_invalid hsum))

end

end Sys2Proof.Machine
end

section
/-! The statements of 40_checksum.md: the four micro-operations, and what the sum detects. -/

namespace Sys2Proof.Proofs

open Sys2Proof.Machine Sys2Proof.Claims

/-- Settles O10. -/
theorem clearSetsTheAccumulatorToZero : Obligations.ClearSetsTheAccumulatorToZero := by
  unfold Obligations.ClearSetsTheAccumulatorToZero
  exact fun _ => ⟨rfl, rfl⟩

/-- Settles O11: a run of CK_ADD sums in the accumulator, and the sum of bytes is that of the numbers modulo 256. -/
theorem addAccumulatesModulo256 : Obligations.AddAccumulatesModulo256 := by
  unfold Obligations.AddAccumulatesModulo256
  refine ⟨fun b s => ⟨_, sumAdd_toNat s.rx.sum b, rfl⟩, fun b s => ⟨_, sumAdd_toNat s.tx.sum b, rfl⟩, fun a bs s => ?_⟩
  rw [accValue_foldl_ckAdd, ckClr, accValue_setAcc, foldl_sumAdd_sumClear, byteSum_toNat]

/-- Settles O12. -/
theorem validIsEqualityWithFF : Obligations.ValidIsEqualityWithFF := by
  unfold Obligations.ValidIsEqualityWithFF
  exact ⟨fun a s => ⟨ckValid a s, sumValid_iff _, rfl⟩, fun v => (sumValid_iff v).trans BitVec.toNat_inj.symm⟩

/-- Settles O13. -/
theorem computeIsFFMinusTheAccumulator : Obligations.ComputeIsFFMinusTheAccumulator := by
  unfold Obligations.ComputeIsFFMinusTheAccumulator
  exact fun a s => ⟨ckCompute a s, sumCompute_toNat _, sumCompute_eq_not _, rfl⟩

/-- Settles O14: the sum is that of a commutative group, in which one summand is determined by the others. -/
theorem checkByteIsUniqueAndSingleChangesShow : Obligations.CheckByteIsUniqueAndSingleChangesShow := by
  unfold Obligations.CheckByteIsUniqueAndSingleChangesShow
  simp only [foldl_sumAdd_sumClear]
  refine ⟨fun bs c => ?_, fun pre post x y hne => ?_, byteSum_two_exchanged⟩
  · rw [sumValid_iff, byteSum_append, byteSum_cons, byteSum_nil, add_zero]
    exact add_eq_FF_iff _ _
  · exact mt (byteSum_one_changed pre post x y).mp hne

/-- Settles O30: up to the changed byte the receiver does as for the frame itself; then a START_BYTE ends the frame, and
any other byte leaves the sum at the terminator wrong. -/
theorem oneCorruptedByteIsNeverAccepted : Obligations.OneCorruptedByteIsNeverAccepted := by
  unfold Obligations.OneCorruptedByteIsNeverAccepted
  rintro apiId frameId payload s t k y hr ho hf h3 hk hne rfl
  obtain ⟨pre, x, post, hne, hbody, hset⟩ := frameBytes_set h3 hk hne
  obtain ⟨-, hpend⟩ := receive_frame hr ho hf
  obtain ⟨hfits, hinside, hcap⟩ := hf
  rw [frameBytes_eq, hbody] at hpend
  rw [NoStartInside, frameBytes_eq, hbody, List.tail_cons] at hinside
  rw [hset]
  constructor
  · intro hy
    have hb : s.cfg.startByte ∉ lenMsb payload.length :: lenLsb payload.length :: (pre ++ y :: post) := by
      simp only [List.mem_cons, List.mem_append, not_or] at hinside ⊢
      obtain ⟨hm, hl, hpre, -, hpost⟩ := hinside
      exact ⟨hm, hl, hpre, hy.symm, hpost⟩
    have hlen : (pre ++ y :: post).length = payload.length + 3 := by
      simpa using (congrArg List.length hbody).symm
    have hsum : byteSum (pre ++ y :: post) ≠ 0xFF := by
      rw [← byteSum_checkByte apiId frameId payload, hbody]
      exact mt (byteSum_one_changed pre post y x).mp hne.symm
    have hfits := assembleLength_split hfits
    obtain ⟨hout, hpend⟩ := receive_invalid_sum hr ho hb (by omega) (by omega) (by omega) hsum
    rw [feed_of_meetsPending hpend]
    exact hout
  · rintro rfl
    obtain ⟨hbefore, hx, -⟩ := meetsPending_append (bs := s.cfg.startByte :: _ :: _ :: pre).mp hpend
    have hstart : 0 < (stepByte s.cfg s.cfg.startByte s.rx).position := by
      rw [stepByte_start hr.1 rfl]
      exact Nat.one_pos
    exact feed_startByte_inside hbefore hx (receive_position_pos (bs := _ :: _ :: pre) hstart hpend.2)

end Sys2Proof.Proofs
end

section
/-! SUPPORT. RX_BYTE and the row of a byte's class by their common effect; what RX_BYTE does to the position and to the
payload cells (41_receiver.md R123 to R131, R133, R135). -/

namespace Sys2Proof.Machine

open Sys2Proof.Claims

/-- At a byte of its class a row answers its effect, and RX_BYTE answers the same (R122). -/
theorem rowAndByte_of_classify {k : ByteClass} {b : Byte} {s : State} (h : classify s.cfg s.rx b = k) :
    RowAndByte (rowOf k b) b s (withRx (classEffect k b s.rx) s) := by
  refine ⟨by rw [exec_rowOf, asClass_of_class _ h], ?_⟩
  rw [← h, ← stepByte_eq_classEffect]
  rfl

/-- The row of a class answers nothing but what RX_BYTE answers. -/
theorem execRowOf_next {k : ByteClass} {b : Byte} {s t : State} (h : exec (rowOf k b) s = .next t) :
    t = rxByte b s := by
  rw [exec_rowOf] at h
  rcases asClass_cases k b s (classEffect k b s.rx) with ⟨hk, e⟩ | ⟨-, e⟩ <;> rw [e] at h <;> cases h
  rw [← hk, ← stepByte_eq_classEffect]
  rfl

section
variable {cfg : Cfg} {b : Byte} {r : Rx}

/-- R135 for RX_BYTE. -/
theorem stepByte_position (cfg : Cfg) (b : Byte) (r : Rx) :
    (stepByte cfg b r).position =
      if r.position = 0 then (if b = cfg.startByte then 1 else 0)
      else if b = cfg.startByte ∨ cfg.cap < r.position then r.position
      else if 4 ≤ r.position ∧ r.position = terminatorPosition r then 0
      else r.position + 1 := by
  rcases stepByte_cases cfg b r with ⟨hp, hb, e⟩ | ⟨hb, hp, e⟩ | ⟨hp, hb, e⟩ | ⟨hp, hb, e⟩ | ⟨hb, hc, hp, e⟩ |
    ⟨hb, hc, hp, e⟩ | ⟨hb, hc, hp, e⟩ | ⟨hb, hc, h4, ht, -, e⟩ | ⟨hb, hc, h4, ht, -, e⟩ | ⟨hb, hc, h4, ht, e⟩ <;>
    rw [e]
  · -- RXB_RESTART
    rw [if_neg (by omega), if_pos (.inl hb)]
    rfl
  · -- RXB_OVERRUN
    rw [if_neg (by omega), if_pos (.inr hp)]
    rfl
  · -- RXB_SKIP
    rw [if_pos hp, if_neg hb, hp]
  · -- RXB_START
    rw [if_pos hp, if_pos hb]
  · -- RXB_LEN_MSB
    rw [if_neg (by omega), if_neg (not_or.mpr ⟨hb, by omega⟩), if_neg (by omega), hp]
  · -- RXB_LEN_LSB
    rw [if_neg (by omega), if_neg (not_or.mpr ⟨hb, by omega⟩), if_neg (by omega), hp]
  · -- RXB_API_ID
    rw [if_neg (by omega), if_neg (not_or.mpr ⟨hb, by omega⟩), if_neg (by omega), hp]
  · -- RXB_TERM_OK
    rw [if_neg (by omega), if_neg (not_or.mpr ⟨hb, by omega⟩), if_pos ⟨h4, ht⟩]
  · -- RXB_TERM_BAD
    rw [if_neg (by omega), if_neg (not_or.mpr ⟨hb, by omega⟩), if_pos ⟨h4, ht⟩]
  · -- RXB_DATA
    rw [if_neg (by omega), if_neg (not_or.mpr ⟨hb, by omega⟩), if_neg (fun h => ht h.2)]

/-- RX_BYTE writes no cell but the one of a data byte, `position - 4` (R130, R133). -/
theorem stepByte_read_changed {i : Nat} (h : Mem.read (stepByte cfg b r).payload i ≠ Mem.read r.payload i) :
    4 ≤ r.position ∧ r.position ≤ cfg.cap ∧ i = r.position - 4 := by
  rcases stepByte_cases cfg b r with ⟨_, _, e⟩ | ⟨_, _, e⟩ | ⟨_, _, e⟩ | ⟨_, _, e⟩ | ⟨_, _, _, e⟩ | ⟨_, _, _, e⟩ |
    ⟨_, _, _, e⟩ | ⟨_, _, _, _, _, e⟩ | ⟨_, _, _, _, _, e⟩ | ⟨-, hc, h4, -, e⟩ <;> rw [e] at h
  pick_goal 10
  · -- RXB_DATA
    exact ⟨h4, hc, by_contra fun hi => h (Mem.read_write_other _ _ hi)⟩
  all_goals exact absurd rfl h

/-- Inside a frame a byte that leaves the outcome PENDING lies within CAP and advances the position (R123 to R131). -/
theorem stepByte_pending_advances (hp : 0 < r.position) (ho : (stepByte cfg b r).outcome = .pending) :
    r.position ≤ cfg.cap ∧ (stepByte cfg b r).position = r.position + 1 := by
  rcases stepByte_cases cfg b r with ⟨-, -, e⟩ | ⟨-, -, e⟩ | ⟨h, -, e⟩ | ⟨h, -, e⟩ | ⟨-, hc, h, e⟩ | ⟨-, hc, h, e⟩ |
    ⟨-, hc, h, e⟩ | ⟨-, -, -, -, -, e⟩ | ⟨-, -, -, -, -, e⟩ | ⟨-, hc, -, -, e⟩ <;> rw [e] at ho ⊢
  · -- RXB_RESTART
    cases ho
  · -- RXB_OVERRUN
    cases ho
  · -- RXB_SKIP
    omega
  · -- RXB_START
    omega
  · -- RXB_LEN_MSB
    exact ⟨hc, by rw [h]⟩
  · -- RXB_LEN_LSB
    exact ⟨hc, by rw [h]⟩
  · -- RXB_API_ID
    exact ⟨hc, by rw [h]⟩
  · -- RXB_TERM_OK
    cases ho
  · -- RXB_TERM_BAD
    cases ho
  · -- RXB_DATA
    exact ⟨hc, rfl⟩

end

end Sys2Proof.Machine
end

section
/-! SUPPORT. What a property of the receiver's record has to survive to survive every operation: RX_BYTE, the two ways
back of 60_exceptions.md R201, and a write of `rx.sum` (10_state.md R20). -/

namespace Sys2Proof.Machine

open Sys2Proof.Claims

/-- A property of the receiver's record that no operation on the record destroys (10_state.md R20). -/
structure KeptByRx (cfg : Cfg) (P : Rx → Prop) : Prop where
  stepByte : ∀ b r, P r → P (stepByte cfg b r)
  discardOutcome : ∀ r, P r → P (discardOutcome r)
  resetRx : ∀ r, P r → P (resetRx r)
  sum : ∀ v r, P r → P { r with sum := v }

section
variable {cfg : Cfg} {P : Rx → Prop} (hP : KeptByRx cfg P) {s t : State} (hc : s.cfg = cfg)
include hP hc

theorem KeptByRx.resume (h : P s.rx) : P (resume s).rx := by
  refine (resume_induct (P := fun u => u.cfg = cfg ∧ P u.rx) ?_ s ⟨hc, h⟩).2
  rintro u ⟨hu, h⟩
  refine ⟨(advance_frame u).1.trans hu, ?_⟩
  rcases advance_rx_cases u with e | ⟨-, b, -, e⟩ | e <;> rw [e]
  · exact h
  · exact hu ▸ hP.stepByte b _ h
  · exact hP.discardOutcome _ h

theorem KeptByRx.rxPoll (h : P s.rx) : P (rxPoll s).rx :=
  hP.resume (s := startPoll .host s) hc (hP.discardOutcome _ h)

theorem KeptByRx.rxTimed {d : Int} (h : P s.rx) (ht : execRxTimed d s = .next t) : P t.rx := by
  rcases execRxTimed_cases d s with ⟨-, e⟩ | ⟨-, e⟩ <;> cases e.symm.trans ht
  · exact h
  · exact hP.resume hc h

theorem KeptByRx.feed (bs : List Byte) (h : P s.rx) : P (feed bs s).rx :=
  (feed_induct cfg (fun b r _ => hP.stepByte b r) bs s hc h).1

theorem KeptByRx.loopback (apiId frameId : Byte) (payload : List Byte) (h : P s.rx) :
    P (loopback apiId frameId payload s).rx := by
  obtain ⟨hcfg, hrx, -⟩ := txFrame_frame apiId frameId payload (queuePeer [] s)
  rw [loopback_eq]
  exact hP.rxPoll (hcfg.trans hc) (hrx.symm ▸ h : P (txFrame apiId frameId payload (queuePeer [] s)).rx)

theorem KeptByRx.exec {i : Instr} (h : P s.rx) (ht : exec i s = .next t) : P t.rx := by
  have hbyte : ∀ b, P (rxByte b s).rx := fun b => by subst hc; exact hP.stepByte b s.rx h
  have hrow : ∀ k b, Machine.exec (rowOf k b) s = .next t → P t.rx := fun k b e => execRowOf_next e ▸ hbyte b
  by_cases hw : writesRx i = false
  · exact (writesAtMost_exec ht).rx hw ▸ h
  cases i with
  | rxReset => cases ht; exact hP.resetRx _ h
  | rxPoll => cases ht; exact hP.rxPoll hc h
  | rxTimed d => exact hP.rxTimed hc h ht
  | ckClr a => cases a <;> cases ht; exacts [hP.sum _ _ h, h]
  | ckAdd a b => cases a <;> cases ht; exacts [hP.sum _ _ h, h]
  | rxDiscard => cases ht; exact hP.discardOutcome _ h
  | rxByte b => cases ht; exact hbyte b
  | rxbRestart b => exact hrow .restart b ht
  | rxbOverrun b => exact hrow .overrun b ht
  | rxbStart b => exact hrow .start b ht
  | rxbLenMsb b => exact hrow .lenMsb b ht
  | rxbLenLsb b => exact hrow .lenLsb b ht
  | rxbApiId b => exact hrow .apiId b ht
  | rxbTermOk b => exact hrow .termOk b ht
  | rxbTermBad b => exact hrow .termBad b ht
  | rxbData b => exact hrow .data b ht
  | frame apiId frameId payload => exact execFrame_next ht ▸ hP.feed hc _ h
  | rxFreshPoll => cases ht; exact hP.rxPoll (s := withRx _ s) hc (hP.resetRx _ h)
  | loopback apiId frameId payload => exact execLoopback_next ht ▸ hP.loopback hc apiId frameId payload h
  | _ => exact absurd rfl hw

end

/-- The cells above CAP - 4 read as in the memory `m`. -/
def CellsAboveAs (cfg : Cfg) (m : Mem) (r : Rx) : Prop :=
  ∀ i, cfg.cap < i + 4 → Mem.read r.payload i = Mem.read m i

theorem keptByRx_cellsAboveAs (cfg : Cfg) (m : Mem) : KeptByRx cfg (CellsAboveAs cfg m) where
  stepByte b r h i hi := by
    refine Eq.trans (by_contra fun hne => ?_) (h i hi)
    obtain ⟨h4, hcap, rfl⟩ := stepByte_read_changed hne
    omega
  discardOutcome r h := by simpa [CellsAboveAs] using h
  resetRx _ h := h
  sum _ _ h := h

end Sys2Proof.Machine
end

section
/-! SUPPORT. Which bytes of a run meet a PENDING outcome: up to the first terminal one, all that are skipped, all of a
frame, and inside a frame at most CAP + 1 (41_receiver.md R122, R126, R136, R137). -/

namespace Sys2Proof.Machine

open Sys2Proof.Claims

section
variable {cfg : Cfg} {r : Rx}

/-- What comes before a byte that meets a PENDING outcome has left it so. -/
theorem MeetsPending.before {pre post : List Byte} {x : Byte} (h : MeetsPending cfg (pre ++ x :: post) r) :
    (receive cfg pre r).outcome = .pending :=
  (meetsPending_append.mp h).2.1

/-- A run of bytes has a first part that meets a PENDING outcome and that nothing or a terminal outcome ends. -/
theorem exists_meetsPending_part (cfg : Cfg) (bs : List Byte) (r : Rx) :
    ∃ part rest, bs = part ++ rest ∧ MeetsPending cfg part r ∧
      (rest ≠ [] → (receive cfg part r).outcome ≠ .pending) := by
  induction bs generalizing r with
  | nil => exact ⟨[], [], rfl, trivial, fun h => absurd rfl h⟩
  | cons b bs ih =>
    by_cases ho : r.outcome = .pending
    · obtain ⟨part, rest, rfl, hpend, hend⟩ := ih (stepByte cfg b r)
      exact ⟨b :: part, rest, rfl, ⟨ho, hpend⟩, hend⟩
    · exact ⟨[], b :: bs, rfl, trivial, fun _ => ho⟩

/-- Bytes other than START_BYTE that meet position 0 do nothing (R94, R126). -/
theorem receive_skipped {bs : List Byte} (hp : r.position = 0) (hb : cfg.startByte ∉ bs) : receive cfg bs r = r := by
  induction bs with
  | nil => rfl
  | cons b bs ih =>
    rw [List.mem_cons, not_or] at hb
    rw [receive_cons, stepByte_skip hp (Ne.symm hb.1), ih hb.2]

theorem meetsPending_skipped {bs : List Byte} (hp : r.position = 0) (ho : r.outcome = .pending)
    (hb : cfg.startByte ∉ bs) : MeetsPending cfg bs r := by
  induction bs with
  | nil => trivial
  | cons b bs ih =>
    rw [List.mem_cons, not_or] at hb
    exact ⟨ho, (stepByte_skip hp (Ne.symm hb.1)).symm ▸ ih hb.2⟩

/-- Skipped bytes and then a frame up to its terminator, which alone gives the verdict (R131, R137). -/
theorem receive_skipped_to_terminator {g d : List Byte} {m l a c : Byte} (hr : AtFrameStart r)
    (ho : r.outcome = .pending) (hb : cfg.startByte ∉ g ++ [m, l, a] ++ d ++ [c])
    (hlen : d.length + 1 = assembleLength m l) (hcap : d.length + 4 ≤ cfg.cap) :
    receive cfg (g ++ [cfg.startByte, m, l, a] ++ d ++ [c]) r =
        closeFrame { afterData d (afterHeader m l a r) with sum := byteSum ([a] ++ d ++ [c]) } ∧
      MeetsPending cfg (g ++ [cfg.startByte, m, l, a] ++ d ++ [c]) r := by
  have hbytes : g ++ [cfg.startByte, m, l, a] ++ d ++ [c] = g ++ ([cfg.startByte, m, l, a] ++ d ++ [c]) := by simp
  have hbody : g ++ [m, l, a] ++ d ++ [c] = g ++ m :: l :: a :: (d ++ [c]) := by simp
  rw [hbody, List.mem_append, not_or] at hb
  obtain ⟨hclose, hpend⟩ := receive_to_terminator hr ho hb.2 hlen hcap
  have hskip := receive_skipped hr.1 hb.1
  rw [hbytes, receive_append, meetsPending_append, hskip]
  exact ⟨hclose, meetsPending_skipped hr.1 ho hb.1, hpend⟩

theorem atFrameStart_closeFrame (r : Rx) : AtFrameStart (closeFrame r) := ⟨rfl, rfl⟩

end

/-- FRAME gives RX_BYTE the first part of its bytes that meets a PENDING outcome (log 12). -/
theorem feed_of_part {part rest : List Byte} {s : State} (h : MeetsPending s.cfg part s.rx)
    (hend : rest ≠ [] → (receive s.cfg part s.rx).outcome ≠ .pending) :
    feed (part ++ rest) s = withRx (receive s.cfg part s.rx) s := by
  rw [feed_append_of_meetsPending h]
  cases rest with
  | nil => rfl
  | cons b bs => exact feed_terminal (hend (List.cons_ne_nil b bs))

/-- Inside a frame bytes that would take the position past CAP + 1 bring a terminal outcome first (R136). -/
theorem feed_terminal_of_long {bs : List Byte} {s : State} (hp : 0 < s.rx.position)
    (hcap : s.rx.position ≤ s.cfg.cap + 1) (hlen : s.cfg.cap + 1 < s.rx.position + bs.length) :
    (feed bs s).rx.outcome ≠ .pending := by
  induction bs generalizing s with
  | nil => exact absurd hlen (Nat.not_lt.mpr hcap)
  | cons b bs ih =>
    by_cases ho : s.rx.outcome = .pending
    case neg => rwa [feed_terminal ho]
    rw [feed_pending ho]
    by_cases ho' : (stepByte s.cfg b s.rx).outcome = .pending
    · obtain ⟨hle, hadv⟩ := stepByte_pending_advances hp ho'
      rw [List.length_cons] at hlen
      exact ih (s := rxByte b s) (by rw [rxByte_rx]; omega) (by rw [rxByte_rx, rxByte_cfg]; omega)
        (by rw [rxByte_rx, rxByte_cfg]; omega)
    · rwa [feed_terminal (s := rxByte b s) ho']

end Sys2Proof.Machine
end

section
/-! SUPPORT. A poll of the host whatever the environment answers: the bytes it pulls, and how it stands after any number
of iterations (41_receiver.md R132, D16, D17; log 1). -/

namespace Sys2Proof.Machine

open Sys2Proof.Claims

/-! ### What a script answers to pairs of calls (R15; log 2) -/

theorem afterSignal_script_peer {e : Env} {vs : List Bool} {rs : List Byte} (h : e.peer = .script vs rs) :
    (afterSignal e).peer = .script vs.tail rs := by
  cases vs <;> simp [afterSignal, h]

theorem afterExchange_script_peer {e : Env} {vs : List Bool} {rs : List Byte} (h : e.peer = .script vs rs) :
    (afterExchange e).peer = .script vs rs.tail := by
  cases rs <;> simp [afterExchange, h]

/-- As far as the signals of a script go they are the signals answered. -/
theorem pairAnswers_script_signals {e : Env} {vs : List Bool} {rs : List Byte} (h : e.peer = .script vs rs) (n : Nat) :
    ((pairAnswers n e).map (·.1)).take vs.length = vs.take n := by
  induction n generalizing e vs rs with
  | zero => simp
  | succ n ih =>
    have hrest := ih (afterExchange_script_peer (afterSignal_script_peer h))
    cases vs with
    | nil => rfl
    | cons v vs =>
      have hv : signalAnswer e = v := by simp [signalAnswer, h]
      simpa [pairAnswers_succ, hv] using hrest

/-- As far as the bytes of a script go they are the bytes answered. -/
theorem pairAnswers_script_bytes {e : Env} {vs : List Bool} {rs : List Byte} (h : e.peer = .script vs rs) (n : Nat) :
    ((pairAnswers n e).map (·.2)).take rs.length = rs.take n := by
  induction n generalizing e vs rs with
  | zero => simp
  | succ n ih =>
    have hs := afterSignal_script_peer h
    have hrest := ih (afterExchange_script_peer hs)
    cases rs with
    | nil => rfl
    | cons r rs =>
      have hr : exchangeAnswer (afterSignal e) = r := by simp [exchangeAnswer, hs]
      simpa [pairAnswers_succ, hr] using hrest

/-- A script whose signals are all asserted answers with its bytes in order. -/
theorem pairAnswers_script_asserted {e : Env} {bs : List Byte}
    (h : e.peer = .script (List.replicate bs.length true) bs) : pairAnswers bs.length e = bs.map (true, ·) := by
  rw [pairAnswers_script h (by simp) le_rfl, List.take_length, List.take_of_length_le (by simp), ← List.map_const']
  exact List.map_prod_right_eq_zip.symm

/-- Bytes that a script answers with the line asserted are its bytes, and its signals are asserted. -/
theorem script_of_asserted {e : Env} {vs : List Bool} {rs bs : List Byte} (h : e.peer = .script vs rs)
    (ha : pairAnswers bs.length e = bs.map (true, ·)) :
    bs.take rs.length = rs.take bs.length ∧ ∀ v ∈ vs.take bs.length, v = true := by
  have hbytes := pairAnswers_script_bytes h bs.length
  have hsignals := pairAnswers_script_signals h bs.length
  rw [ha, List.map_map] at hbytes hsignals
  refine ⟨by simpa using hbytes, fun v hv => ?_⟩
  obtain ⟨_, -, rfl⟩ := List.mem_map.mp (List.mem_of_mem_take (hsignals ▸ hv))
  rfl

/-- A queue answers with the line asserted for no more bytes than it holds. -/
theorem eq_take_of_queue_asserted {e : Env} {q bs : List Byte} (h : e.peer = .queue q)
    (ha : pairAnswers bs.length e = bs.map (true, ·)) : bs = q.take bs.length := by
  rw [pairAnswers_queue h] at ha
  have hnone : bs.length - q.length = 0 := by
    by_contra hn
    have hmem : (false, (0 : Byte)) ∈ bs.map (true, ·) :=
      ha ▸ List.mem_append_right _ (List.mem_replicate.mpr ⟨hn, rfl⟩)
    simp at hmem
  rw [hnone, List.replicate_zero, List.append_nil] at ha
  exact (List.map_injective_iff.mpr (fun _ _ e => (Prod.mk.inj e).2) ha).symm

/-! ### The bytes pulled -/

/-- The state after bytes pulled with the line asserted and given to RX_BYTE, the poll as it stood (R132). -/
def afterPolled (bs : List Byte) (s : State) : State :=
  { s with rx := receive s.cfg bs s.rx, trace := s.trace ++ pulls s.cfg.fillerByte bs,
           env := afterPairs bs.length s.env }

theorem afterPolled_nil (s : State) : afterPolled [] s = s := by
  simp [afterPolled, pulls]

theorem afterPolled_cons (b : Byte) (bs : List Byte) (s : State) :
    afterPolled (b :: bs) s = afterPolled bs (afterPolled [b] s) := by
  simp [afterPolled, pulls, afterPairs_succ]

theorem pullByte_asserted {s : State} (hs : signalAnswer s.env = true) :
    pullByte (readSignal s) = afterPolled [exchangeAnswer (afterSignal s.env)] s := by
  simp [pullByte, rxByte, withRx, exchange, readSignal, afterPolled, pulls, afterPairs_succ, hs]

section
variable {s : State} (hc : s.ctl = .poll .host)
include hc

/-- One iteration with the line asserted pulls one byte, and goes on or ends by the outcome (R132). -/
theorem advance_poll_asserted_eq (hs : signalAnswer s.env = true) :
    advance s = if (stepByte s.cfg (exchangeAnswer (afterSignal s.env)) s.rx).outcome = .pending
      then afterPolled [exchangeAnswer (afterSignal s.env)] s
      else withCtl .idle (afterPolled [exchangeAnswer (afterSignal s.env)] s) := by
  simp only [advance_poll hc, pollIteration, hs, if_true, pullByte_asserted hs, endPoll_host]
  rfl

/-- Bytes that the environment answers, and that leave the outcome PENDING, are pulled one at an iteration. -/
theorem advanceBy_poll_pulls {bs : List Byte} (ha : pairAnswers bs.length s.env = bs.map (true, ·))
    (hpend : MeetsPending s.cfg bs s.rx) (ho : (receive s.cfg bs s.rx).outcome = .pending) :
    advanceBy bs.length s = afterPolled bs s := by
  induction bs generalizing s with
  | nil => rw [afterPolled_nil]; rfl
  | cons b bs ih =>
    rw [List.length_cons, pairAnswers_succ, List.map_cons, List.cons.injEq, Prod.mk.injEq] at ha
    obtain ⟨⟨hs, rfl⟩, ha⟩ := ha
    have ho' : (stepByte s.cfg (exchangeAnswer (afterSignal s.env)) s.rx).outcome = .pending := by
      cases bs with
      | nil => exact ho
      | cons b' bs => exact hpend.2.1
    rw [List.length_cons, advanceBy, advance_poll_asserted_eq hc hs, if_pos ho', afterPolled_cons _ bs]
    exact ih (s := afterPolled [exchangeAnswer (afterSignal s.env)] s) hc ha hpend.2 ho

end

/-- How a poll of the host that stood at `s` with a PENDING outcome stands at `t`, after `k` iterations in which the
bytes `bs` have been pulled: in progress, or ended by a terminal outcome, or by a deasserted line. -/
inductive PollRun (k : Nat) (s : State) (bs : List Byte) (t : State) : Prop where
  | inProgress (hlen : bs.length = k) (ho : (receive s.cfg bs s.rx).outcome = .pending) (ht : t = afterPolled bs s)
  | terminal (ho : (receive s.cfg bs s.rx).outcome ≠ .pending) (ht : t = withCtl .idle (afterPolled bs s))
  | deasserted (ho : (receive s.cfg bs s.rx).outcome = .pending)
      (hs : signalAnswer (afterPairs bs.length s.env) = false)
      (ht : t = withCtl .idle (readSignal (afterPolled bs s)))

theorem PollRun.cons {k : Nat} {s t : State} {b : Byte} {bs : List Byte} (h : PollRun k (afterPolled [b] s) bs t) :
    PollRun (k + 1) s (b :: bs) t := by
  cases h with
  | inProgress hlen ho ht => exact .inProgress (congrArg (· + 1) hlen) ho (afterPolled_cons b bs s ▸ ht)
  | terminal ho ht => exact .terminal ho (afterPolled_cons b bs s ▸ ht)
  | deasserted ho hs ht => exact .deasserted ho hs (afterPolled_cons b bs s ▸ ht)

/-- A poll of the host through any number of iterations, whatever the environment answers (R132). -/
theorem exists_pollRun (k : Nat) {s : State} (hc : s.ctl = .poll .host) (ho : s.rx.outcome = .pending) :
    ∃ bs, pairAnswers bs.length s.env = bs.map (true, ·) ∧ MeetsPending s.cfg bs s.rx ∧
      PollRun k s bs (advanceBy k s) := by
  induction k generalizing s with
  | zero => exact ⟨[], rfl, trivial, .inProgress rfl ho (afterPolled_nil s).symm⟩
  | succ k ih =>
    rw [advanceBy]
    cases hs : signalAnswer s.env with
    | false =>
      refine ⟨[], rfl, trivial, .deasserted ho hs ?_⟩
      rw [advance_poll_deasserted hc hs, advanceBy_idle rfl, afterPolled_nil]
      rfl
    | true =>
      rw [advance_poll_asserted_eq hc hs]
      by_cases ho' : (stepByte s.cfg (exchangeAnswer (afterSignal s.env)) s.rx).outcome = .pending
      · rw [if_pos ho']
        obtain ⟨bs, ha, hpend, hrun⟩ := ih (s := afterPolled [exchangeAnswer (afterSignal s.env)] s) hc ho'
        refine ⟨_ :: bs, ?_, ⟨ho, hpend⟩, hrun.cons⟩
        rw [List.length_cons, pairAnswers_succ, hs, List.map_cons]
        exact congrArg _ ha
      · rw [if_neg ho', advanceBy_idle rfl]
        refine ⟨[_], ?_, ⟨ho, trivial⟩, .terminal ho' rfl⟩
        rw [List.length_singleton, pairAnswers_succ, hs, pairAnswers_zero]
        rfl

/-- One step of a poll of the host, the receiver's record being `r` when it starts to run on (R132; log 1). -/
theorem exists_polled_resume {s : State} {r : Rx} (ho : r.outcome = .pending) :
    ∃ bs, Polled s r bs (resume (withCtl (.poll .host) (withRx r s))) := by
  obtain ⟨bs, ha, hpend, hrun⟩ :=
    exists_pollRun (heldAnswers s.env + 1) (s := withCtl (.poll .host) (withRx r s)) rfl ho
  have hscript : ∀ vs rs, s.env.peer = .script vs rs →
      bs.take rs.length = rs.take bs.length ∧ ∀ v ∈ vs.take bs.length, v = true :=
    fun _ _ hp => script_of_asserted hp ha
  have hpending : ∀ pre x post, bs = pre ++ x :: post → (receive s.cfg pre r).outcome = .pending :=
    fun _ _ _ h => MeetsPending.before (h ▸ hpend)
  refine ⟨bs, ?_⟩
  change Polled s r bs (advanceBy (heldAnswers s.env + 1) _)
  cases hrun with
  | inProgress hlen ho ht =>
    rw [ht]
    exact ⟨ha, hscript, rfl, hpending, .inl ⟨rfl, ho, hlen, rfl, rfl⟩, rfl,
      afterPairs_host .., afterPairs_clock .., afterPairs_ticks ..⟩
  | terminal ho ht =>
    rw [ht]
    exact ⟨ha, hscript, rfl, hpending, .inr (.inl ⟨rfl, ho, rfl, rfl⟩), rfl,
      afterPairs_host .., afterPairs_clock .., afterPairs_ticks ..⟩
  | deasserted ho hs ht =>
    rw [ht]
    refine ⟨ha, hscript, rfl, hpending, .inr (.inr ⟨rfl, ho, hs, ?_, rfl⟩), rfl, ?_, ?_, ?_⟩
    · exact congrArg (fun v => s.trace ++ pulls s.cfg.fillerByte bs ++ [Event.sig v]) hs
    · exact (afterSignal_host _).trans (afterPairs_host ..)
    · exact (afterSignal_clock _).trans (afterPairs_clock ..)
    · exact (afterSignal_ticks _).trans (afterPairs_ticks ..)

theorem startPoll_host_eq (s : State) :
    startPoll .host s = withCtl (.poll .host) (withRx { s.rx with outcome := .pending } s) := by
  rw [startPoll, discardOutcome_eq]

theorem exists_polled_rxPoll (s : State) : ∃ bs, Polled s { s.rx with outcome := .pending } bs (rxPoll s) := by
  rw [rxPoll, startPoll_host_eq]
  exact exists_polled_resume rfl

end Sys2Proof.Machine
end

section
/-! The statements of 41_receiver.md: the receiver's commands, RX_BYTE by class, the frames it accepts, and RX_POLL. -/

namespace Sys2Proof.Proofs

open Sys2Proof.Machine Sys2Proof.Claims

/-- Settles O27: skipped bytes do nothing, the bytes up to the terminator meet a PENDING outcome, and the terminator
closes the frame by the sum of the covered bytes, which the check byte of a frame sent makes 0xFF. -/
theorem receiverAcceptsExactlyValidFrames : Obligations.ReceiverAcceptsExactlyValidFrames := by
  unfold Obligations.ReceiverAcceptsExactlyValidFrames
  refine ⟨?bytes, fun cfg r apiId frameId payload hr ho hf => ?frame⟩
  case frame =>
    rw [(receive_frame hr ho hf).1]
    exact received_afterFrame apiId frameId payload r
  intro cfg r g d m l a c hr ho hb _ hlen hcap
  obtain ⟨hclose, hpend⟩ := receive_skipped_to_terminator hr ho hb hlen (by omega)
  constructor
  · rintro pre ⟨post, hpre⟩
    rw [← hpre, List.append_assoc] at hpend
    obtain ⟨x, post', hpost⟩ := List.exists_cons_of_ne_nil (show post ++ [c] ≠ [] by simp)
    exact MeetsPending.before (hpost ▸ hpend)
  · rintro t rfl
    rw [hclose]
    refine ⟨atFrameStart_closeFrame _, fun hsum => ?_, fun hsum => ?_⟩
    · rw [closeFrame_valid hsum]
      exact ⟨rfl, rfl, Nat.add_sub_cancel_left 4 d.length, payCells_writeFrom rfl, rfl, rfl⟩
    · rw [closeFrame_invalid hsum]

/-- Settles O15. -/
theorem rxResetClearsTheReceiver : Obligations.RxResetClearsTheReceiver := by
  unfold Obligations.RxResetClearsTheReceiver
  exact fun s => ⟨withRx (resetRx s.rx) s, rfl, rfl, rfl⟩

/-- Settles O16. -/
theorem rxDiscardOnlyDropsTheOutcome : Obligations.RxDiscardOnlyDropsTheOutcome := by
  unfold Obligations.RxDiscardOnlyDropsTheOutcome
  intro s
  rw [← discardOutcome_eq]
  rfl

/-- Settles O18: the classes of the two edge rules. -/
theorem edgeRulesRecordTheErrorAndHold : Obligations.EdgeRulesRecordTheErrorAndHold := by
  unfold Obligations.EdgeRulesRecordTheErrorAndHold
  exact fun b s => ⟨fun hp hb => rowAndByte_of_classify (classify_restart hp hb),
    fun hb hp => rowAndByte_of_classify (classify_overrun hb hp)⟩

/-- Settles O19: the two classes of position 0. -/
theorem awaitStartTakesOnlyStartByte : Obligations.AwaitStartTakesOnlyStartByte := by
  unfold Obligations.AwaitStartTakesOnlyStartByte
  exact fun b s hp => ⟨fun hb => rowAndByte_of_classify (classify_start hp hb),
    fun hb => rowAndByte_of_classify (classify_skip hp hb)⟩

/-- Settles O20: the classes of positions 1, 2 and 3. -/
theorem headerBytesGoToTheirRegisters : Obligations.HeaderBytesGoToTheirRegisters := by
  unfold Obligations.HeaderBytesGoToTheirRegisters
  exact fun b s hb hcap => ⟨fun hp => rowAndByte_of_classify (classify_lenMsb hb (by omega) hp),
    fun hp => rowAndByte_of_classify (classify_lenLsb hb (by omega) hp),
    fun hp => rowAndByte_of_classify (classify_apiId hb (by omega) hp)⟩

/-- Settles O21: the class of a data byte, and the memory's law for its one write. -/
theorem dataByteIsStoredAndSummed : Obligations.DataByteIsStoredAndSummed := by
  unfold Obligations.DataByteIsStoredAndSummed
  intro b s hb h4 hc hp
  exact ⟨_, rowAndByte_of_classify (k := .data) (classify_data hb hc h4 hp), rfl, Mem.read_write_same _ _ b,
    fun i hi => Mem.read_write_other _ b hi⟩

/-- Settles O22: the two classes of the terminator. -/
theorem terminatorGivesTheVerdict : Obligations.TerminatorGivesTheVerdict := by
  unfold Obligations.TerminatorGivesTheVerdict
  intro b s hb h4 hc hp
  exact ⟨fun hv => ⟨rowAndByte_of_classify (classify_termOk hb hc h4 hp hv), by omega⟩,
    fun hv => rowAndByte_of_classify (classify_termBad hb hc h4 hp hv)⟩

/-- Settles O24: RX_BYTE writes the cell of a data byte only, and every other operation writes cells through RX_BYTE. -/
theorem receiverNeverWritesOutOfBounds : Obligations.ReceiverNeverWritesOutOfBounds := by
  unfold Obligations.ReceiverNeverWritesOutOfBounds
  refine ⟨fun b s t ht i hi => ?_, fun i s t ht j hj => ?_⟩
  · cases ht
    exact stepByte_read_changed hi
  · have habove := (keptByRx_cellsAboveAs s.cfg s.rx.payload).exec rfl (fun _ _ => rfl) ht
    exact Nat.not_lt.mp fun h => hj (habove j h)

/-- Settles O25. -/
theorem positionTransfers : Obligations.PositionTransfers := by
  unfold Obligations.PositionTransfers
  exact fun b s => ⟨⟨rxByte b s, rfl, stepByte_position s.cfg b s.rx⟩, withRx (resetRx s.rx) s, rfl, rfl⟩

/-- Settles O26: the payload of the record is the first `recLen` cells. -/
theorem rxReadPresentsTheRecord : Obligations.RxReadPresentsTheRecord := by
  unfold Obligations.RxReadPresentsTheRecord
  intro s h
  refine ⟨payCells s.rx s.rx.recLen, if_pos h, payCells_length _ _, fun i b hi hread => ?_⟩
  simp [payCells, payRead, hi, hread]

/-- Settles O29: the first part of the frame's bytes that meets a PENDING outcome. -/
theorem frameRowFeedsUntilTerminal : Obligations.FrameRowFeedsUntilTerminal := by
  unfold Obligations.FrameRowFeedsUntilTerminal
  intro apiId frameId payload s hfits
  obtain ⟨part, rest, hbytes, hpend, hend⟩ :=
    exists_meetsPending_part s.cfg (frameBytes s.cfg.startByte apiId frameId payload) s.rx
  refine ⟨part, rest, hbytes, ?_, fun pre x post h => MeetsPending.before (h ▸ hpend), hend⟩
  have hfeed := feed_of_part hpend hend
  rw [← hbytes] at hfeed
  exact (if_pos hfits).trans (congrArg Host.Outcome.next hfeed)

/-- Settles O32: inside a frame every byte that leaves the outcome PENDING advances the position, up to CAP + 1; at
position 0 a script of asserted signals feeds a poll skipped bytes, one at an iteration. -/
theorem pollIsBoundedOnlyInsideAFrame : Obligations.PollIsBoundedOnlyInsideAFrame := by
  unfold Obligations.PollIsBoundedOnlyInsideAFrame
  refine ⟨fun s bs _ hp hcap hlen => feed_terminal_of_long hp hcap (by omega), fun s bs hp hb hpeer => ?_⟩
  have hpos : (discardOutcome s.rx).position = 0 := (discardOutcome_position s.rx).trans hp
  have hskip := receive_skipped hpos hb
  have hrun := advanceBy_poll_pulls (s := startPoll .host s) rfl (pairAnswers_script_asserted hpeer)
    (meetsPending_skipped hpos (discardOutcome_outcome _) hb)
    ((congrArg Rx.outcome hskip).trans (discardOutcome_outcome _))
  rw [hrun]
  exact ⟨_, rfl, rfl, hskip.trans (discardOutcome_eq _), rfl⟩

/-- Settles O34: the discard and the start of RX_POLL, then the iterations of one step; and a step of a poll. -/
theorem pollWhateverThePeerAnswers : Obligations.PollWhateverThePeerAnswers := by
  unfold Obligations.PollWhateverThePeerAnswers
  refine ⟨fun s => ?_, fun s hc ho => ?_⟩
  · obtain ⟨bs, h⟩ := exists_polled_rxPoll s
    exact ⟨_, bs, rfl, h⟩
  · obtain ⟨bs, h⟩ := exists_polled_resume (s := s) ho
    have hs : withCtl (.poll .host) (withRx s.rx s) = s := by rw [← hc]; rfl
    exact ⟨_, bs, step_in_progress (by simp [hc]), hs ▸ h⟩

/-- Settles O33, from what a poll does whatever the peer answers: a queue asserts the line exactly while it holds bytes,
so a poll that stays PENDING empties it. -/
theorem pollAgainstAQueueCompletes : Obligations.PollAgainstAQueueCompletes := by
  unfold Obligations.PollAgainstAQueueCompletes
  intro s q hq
  obtain ⟨bs, ha, -, hrx, hpend, hend, hframe, -⟩ := exists_polled_rxPoll s
  have hbs := eq_take_of_queue_asserted hq ha
  have henv := afterPairs_queue hq bs.length
  refine ⟨bs, q.drop bs.length, ?_, hpend, _, rfl, ?_⟩
  · conv_lhs => rw [← List.take_append_drop bs.length q, ← hbs]
  rw [← hrx]
  rcases hend with ⟨-, -, hlen, -⟩ | ⟨hctl, ho, htrace, he⟩ | ⟨hctl, ho, hs, htrace, he⟩
  · have hle : bs.length ≤ q.length := hbs ▸ List.length_take_le' ..
    simp [heldAnswers, hq] at hlen
    omega
  · refine ⟨fun h => absurd h ho, congrArg Host.Outcome.next (hframe.trans ?_)⟩
    rw [hctl, htrace, he, henv, if_neg ho, List.append_nil]
  · have hrest : q.drop bs.length = [] := by simpa [henv, signalAnswer_queue] using hs
    refine ⟨fun _ => hrest, congrArg Host.Outcome.next (hframe.trans ?_)⟩
    rw [hctl, htrace, he, henv, if_pos ho, afterSignal_queue rfl]

/-- Settles O35: the first iteration returns, and the rest of the step does nothing. -/
theorem pollOfAnIdleLineOnlyDiscards : Obligations.PollOfAnIdleLineOnlyDiscards := by
  unfold Obligations.PollOfAnIdleLineOnlyDiscards
  intro s hs
  have hadv := advance_poll_deasserted (s := startPoll .host s) rfl hs
  have hpoll : rxPoll s = withCtl .idle (readSignal (startPoll .host s)) := by
    rw [rxPoll, resume, advanceBy, hadv]
    exact advanceBy_idle rfl _
  refine congrArg Host.Outcome.next (hpoll.trans ?_)
  simp [startPoll_host_eq, withCtl, withRx, readSignal, hs]

end Sys2Proof.Proofs
end

section
/-! SUPPORT. RX_TIMED: its start and its first clock test, its poll beside the one a host would have made, and its spin
on an idle line (42_timed_receive.md R150, R154; D24). -/

namespace Sys2Proof.Machine

/-! ### The start of RX_TIMED and its first clock test (R150 to R152) -/

/-- RX_TIMED with a positive deadline, its first clock answer kept as `t0` (R150). -/
def startTimed (d : Int) (s : State) : State := withCtl (.clockTest (clockAnswer s.env) d) (readClock s)

theorem execRxTimed_nonpositive {d : Int} (h : d ≤ 0) (s : State) :
    execRxTimed d s = .next (present (.timed false) s) := congrArg Host.Outcome.next (if_pos h)

theorem execRxTimed_positive {d : Int} (h : 0 < d) (s : State) : execRxTimed d s = .next (resume (startTimed d s)) :=
  congrArg Host.Outcome.next (if_neg (Int.not_le.mpr h))

theorem clockAnswer_cons {e : Env} {u : Nat} {ts : List Nat} (h : e.ticks = u :: ts) : clockAnswer e = e.clock + u := by
  simp [clockAnswer, h]

theorem afterClock_cons {e : Env} {u : Nat} {ts : List Nat} (h : e.ticks = u :: ts) :
    afterClock e = { e with clock := e.clock + u, ticks := ts } := by
  simp [afterClock, clockAnswer_cons h, h]

/-- The state with RX_TIMED's first two clock answers read. -/
def afterTwoClocks (x y : Nat) (ts : List Nat) (s : State) : State :=
  { s with trace := s.trace ++ [.now (s.env.clock + x), .now (s.env.clock + x + y)],
           env := { s.env with clock := s.env.clock + x + y, ticks := ts } }

section
variable {s : State} {x : Nat} {ts : List Nat} (h : s.env.ticks = x :: ts)
include h

theorem startTimed_ctl (d : Int) : (startTimed d s).ctl = .clockTest (s.env.clock + x) d := by
  rw [startTimed, clockAnswer_cons h, withCtl_ctl]

theorem startTimed_env (d : Int) : (startTimed d s).env = { s.env with clock := s.env.clock + x, ticks := ts } :=
  afterClock_cons h

theorem startTimed_trace (d : Int) : (startTimed d s).trace = s.trace ++ [.now (s.env.clock + x)] := by
  rw [startTimed, withCtl_trace, readClock_trace, clockAnswer_cons h]

end

section
variable {s : State} {x y : Nat} {ts : List Nat} (h : s.env.ticks = x :: y :: ts)
include h

theorem readClock_startTimed (d : Int) :
    readClock (startTimed d s) = withCtl (.clockTest (s.env.clock + x) d) (afterTwoClocks x y ts s) := by
  have hsecond : (startTimed d s).env.ticks = y :: ts := congrArg Env.ticks (startTimed_env h d)
  rw [readClock, clockAnswer_cons hsecond, afterClock_cons hsecond, startTimed_env h, startTimed_trace h,
    List.append_assoc, startTimed, clockAnswer_cons h]
  rfl

/-- At the first test the elapsed time is the second advance of the clock. -/
theorem advance_startTimed (d : Int) :
    advance (startTimed d s) =
      if (y : Int) ≤ d then startPoll (.timed (s.env.clock + x) d) (afterTwoClocks x y ts s)
      else endTimed false (afterTwoClocks x y ts s) := by
  have hsecond : clockAnswer (startTimed d s).env = s.env.clock + x + y := by
    rw [startTimed_env h, clockAnswer_cons rfl]
  have helapsed : ((s.env.clock + x + y : Nat) : Int) - (s.env.clock + x : Nat) = y := by omega
  rw [advance_clockTest (startTimed_ctl h d), clockIteration, hsecond, helapsed, readClock_startTimed h]
  rfl

end

theorem endTimed_of_idle {s : State} (h : s.ctl = .idle) (ok : Bool) :
    endTimed ok s = { s with results := s.results ++ [.timed ok] } := by
  rw [endTimed, ← h]; rfl

/-! ### The poll of RX_TIMED is the poll of the host, but for its return (R150) -/

theorem endPoll_withCtl (c : Caller) (k : Control) (s : State) : endPoll c (withCtl k s) = endPoll c s := by
  cases c with
  | host => rfl
  | timed t0 d =>
    by_cases hp : s.rx.outcome = .pending
    · rw [endPoll_timed_pending hp, endPoll_timed_pending (s := withCtl k s) hp]; rfl
    · rw [endPoll_timed_terminal hp, endPoll_timed_terminal (s := withCtl k s) hp]; rfl

theorem pollIteration_asserted {s : State} (hs : signalAnswer s.env = true) (c : Caller) :
    pollIteration c s = if (pullByte (readSignal s)).rx.outcome = .pending then pullByte (readSignal s)
      else endPoll c (pullByte (readSignal s)) := if_pos hs

/-- One iteration of a poll is the same for each caller, up to where it returns to. -/
theorem advance_poll_for_caller {s : State} (hc : s.ctl = .poll .host) (c : Caller) :
    ((advance s).ctl = .poll .host ∧ advance (withCtl (.poll c) s) = withCtl (.poll c) (advance s)) ∨
    ((advance s).ctl = .idle ∧ advance (withCtl (.poll c) s) = endPoll c (advance s)) := by
  have hreturn : ∀ u, endPoll c (withCtl (.poll c) u) = endPoll c (endPoll .host u) := fun u =>
    (endPoll_withCtl c _ u).trans (endPoll_withCtl c .idle u).symm
  cases hs : signalAnswer s.env with
  | false =>
    rw [advance_poll_deasserted hc hs, advance_poll_deasserted (s := withCtl (.poll c) s) rfl hs]
    exact .inr ⟨rfl, hreturn (readSignal s)⟩
  | true =>
    have hpull : pullByte (readSignal (withCtl (.poll c) s)) = withCtl (.poll c) (pullByte (readSignal s)) := rfl
    rw [advance_poll hc, advance_poll (s := withCtl (.poll c) s) rfl, pollIteration_asserted hs,
      pollIteration_asserted (s := withCtl (.poll c) s) hs, hpull, withCtl_rx]
    by_cases hp : (pullByte (readSignal s)).rx.outcome = .pending
    · rw [if_pos hp, if_pos hp]
      exact .inl ⟨hc, rfl⟩
    · rw [if_neg hp, if_neg hp]
      exact .inr ⟨rfl, hreturn (pullByte (readSignal s))⟩

/-- Where the host's poll ends with a terminal outcome, RX_TIMED's ends with it and presents the verdict. -/
theorem advanceBy_timed_poll {k : Nat} {s : State} (t0 : Nat) (d : Int) (hc : s.ctl = .poll .host)
    (hend : (advanceBy k s).ctl = .idle) (ho : (advanceBy k s).rx.outcome ≠ .pending) :
    advanceBy k (withCtl (.poll (.timed t0 d)) s) =
      endTimed (decide ((advanceBy k s).rx.outcome = .available)) (advanceBy k s) := by
  induction k generalizing s with
  | zero => exact absurd (hc.symm.trans hend) nofun
  | succ k ih =>
    rw [advanceBy] at hend ho ⊢
    rw [advanceBy]
    rcases advance_poll_for_caller hc (.timed t0 d) with ⟨hpoll, e⟩ | ⟨hidle, e⟩
    · rw [e]
      exact ih hpoll hend ho
    · rw [advanceBy_idle hidle] at ho ⊢
      rw [e, endPoll_timed_terminal ho, advanceBy_idle rfl]

/-! ### The spin on an idle line (R153 (c), R154, D17) -/

/-- The events of turns that find the line deasserted, the clock advancing by `us` from `c` on. -/
def spinEvents (c : Nat) (us : List Nat) : List Event :=
  (List.range us.length).flatMap fun k => [.now (c + (us.take (k + 1)).sum), .sig false]

theorem spinEvents_nil (c : Nat) : spinEvents c [] = [] := rfl

theorem spinEvents_cons (c u : Nat) (us : List Nat) :
    spinEvents c (u :: us) = [.now (c + u), .sig false] ++ spinEvents (c + u) us := by
  simp [spinEvents, List.range_succ_eq_map, List.flatMap_map, Nat.add_assoc]

/-- The state after such turns: each reads the clock, discards the outcome (D11) and reads the line. -/
def afterSpin (us : List Nat) (s : State) : State :=
  { s with
    rx := if us = [] then s.rx else { s.rx with outcome := .pending },
    trace := s.trace ++ spinEvents s.env.clock us,
    env := { s.env with clock := s.env.clock + us.sum, ticks := s.env.ticks.drop us.length } }

theorem afterSpin_nil (s : State) : afterSpin [] s = s := by
  simp [afterSpin, spinEvents_nil]

theorem afterSpin_ticks {us ts : List Nat} {s : State} (h : s.env.ticks = us ++ ts) :
    (afterSpin us s).env.ticks = ts := by
  simp [afterSpin, h]

theorem afterSpin_cons (u : Nat) (us : List Nat) (s : State) :
    afterSpin (u :: us) s = afterSpin us (afterSpin [u] s) := by
  simp [afterSpin, spinEvents_cons, spinEvents_nil, Nat.add_assoc, Nat.add_comm us.length]

section
variable {s : State} {t0 : Nat} {d : Int} (hc : s.ctl = .clockTest t0 d) (hq : s.env.peer = .queue [])
include hc hq

/-- One turn within the deadline: the clock test, and a poll that returns at its first signal read (D17). -/
theorem advanceBy_spin_turn {u : Nat} {ts : List Nat} (ht : s.env.ticks = u :: ts)
    (hd : ((s.env.clock + u : Nat) : Int) - t0 ≤ d) : advanceBy 2 s = afterSpin [u] s := by
  have hstart : advance s = startPoll (.timed t0 d) (readClock s) := by
    rw [advance_clockTest hc, clockIteration_within (by rwa [clockAnswer_cons ht])]
  have hpeer : Env.peer { s.env with clock := s.env.clock + u, ticks := ts } = .queue [] := hq
  have hline := signalAnswer_queue hpeer
  have hdeasserted : signalAnswer (startPoll (.timed t0 d) (readClock s)).env = false := by
    rwa [startPoll_env, readClock_env, afterClock_cons ht]
  have hturn : advanceBy 2 s = withCtl (.clockTest t0 d) (readSignal (startPoll (.timed t0 d) (readClock s))) := by
    rw [advanceBy, advanceBy, advanceBy, hstart, advance_poll_deasserted rfl hdeasserted,
      endPoll_timed_pending (discardOutcome_outcome _)]
  rw [hturn]
  simp [withCtl, readSignal, startPoll, withRx, readClock, clockAnswer_cons ht, afterClock_cons ht, hline,
    afterSignal_queue hpeer, discardOutcome_eq, afterSpin, spinEvents_cons, spinEvents_nil, ht, hc]

/-- RX_TIMED spins for as long as the elapsed time stays within the deadline. -/
theorem advanceBy_spin {us ts : List Nat} (ht : s.env.ticks = us ++ ts)
    (hd : ((s.env.clock + us.sum : Nat) : Int) - t0 ≤ d) : advanceBy (2 * us.length) s = afterSpin us s := by
  induction us generalizing s with
  | nil => exact (afterSpin_nil s).symm
  | cons u us ih =>
    rw [List.sum_cons] at hd
    rw [List.length_cons, Nat.mul_succ, Nat.add_comm, advanceBy_add, advanceBy_spin_turn hc hq ht (by omega),
      afterSpin_cons u us]
    refine ih (s := afterSpin [u] s) hc hq ?_ ?_
    · exact afterSpin_ticks (us := [u]) ht
    · simpa [afterSpin, Nat.add_assoc] using hd

/-- The first clock answer past the deadline ends the spin, in the one step (log 1). -/
theorem resume_spin {us ts : List Nat} {last : Nat} (ht : s.env.ticks = us ++ last :: ts)
    (hd : ((s.env.clock + us.sum : Nat) : Int) - t0 ≤ d)
    (hpast : d < ((s.env.clock + us.sum + last : Nat) : Int) - t0) :
    resume s = endTimed false (readClock (afterSpin us s)) := by
  have hanswer : clockAnswer (afterSpin us s).env = s.env.clock + us.sum + last :=
    clockAnswer_cons (afterSpin_ticks ht)
  have hrun : advanceBy (2 * us.length + 1) s = endTimed false (readClock (afterSpin us s)) := by
    rw [advanceBy_succ, advanceBy_spin hc hq ht hd, advance_clockTest (s := afterSpin us s) hc,
      clockIteration_past (hanswer ▸ hpast)]
  have hheld : 2 * us.length ≤ heldAnswers s.env := by
    simp only [heldAnswers, hq, ht, List.length_append]
    omega
  rw [resume, advanceBy_of_le (congrArg State.ctl hrun) (Nat.succ_le_succ hheld), hrun]

end

end Sys2Proof.Machine
end

section
/-! SUPPORT. What R11 and R151 say of time and of the logs, as a relation between the states before and after an
operation that every named update and environment call keeps. -/

namespace Sys2Proof.Machine

/-- From `s` to `t` the clock has not gone back, the logs have only grown, and the configuration has stayed (D24; log
16, 17). -/
structure OnlyAdvances (s t : State) : Prop where
  clock : s.env.clock ≤ t.env.clock
  trace : s.trace <+: t.trace
  results : s.results <+: t.results
  cfg : t.cfg = s.cfg

theorem OnlyAdvances.refl (s : State) : OnlyAdvances s s := ⟨le_rfl, List.prefix_rfl, List.prefix_rfl, rfl⟩

section
variable {s t : State} (h : OnlyAdvances s t)
include h

theorem OnlyAdvances.withRx (r : Rx) : OnlyAdvances s (withRx r t) := { h with }

theorem OnlyAdvances.withBk (k : Bk) : OnlyAdvances s (withBk k t) := { h with }

theorem OnlyAdvances.withCtl (c : Control) : OnlyAdvances s (withCtl c t) := { h with }

theorem OnlyAdvances.withHost (cs : List Command) : OnlyAdvances s (withHost cs t) := { h with }

theorem OnlyAdvances.setTxSum (v : Byte) : OnlyAdvances s (setAcc .tx v t) := { h with }

theorem OnlyAdvances.present (r : Result) : OnlyAdvances s (present r t) :=
  { h with results := h.results.trans (List.prefix_append ..) }

theorem OnlyAdvances.readSignal : OnlyAdvances s (readSignal t) :=
  { h with clock := by simpa using h.clock, trace := h.trace.trans (List.prefix_append ..) }

theorem OnlyAdvances.exchange (out : Byte) : OnlyAdvances s (exchange out t) :=
  { h with clock := by simpa using h.clock, trace := h.trace.trans (List.prefix_append ..) }

theorem OnlyAdvances.readClock : OnlyAdvances s (readClock t) :=
  { h with clock := by simpa using h.clock.trans (clock_le_clockAnswer t.env),
           trace := h.trace.trans (List.prefix_append ..) }

theorem OnlyAdvances.startPoll (c : Caller) : OnlyAdvances s (startPoll c t) := (h.withRx _).withCtl _

theorem OnlyAdvances.endTimed (ok : Bool) : OnlyAdvances s (endTimed ok t) := (h.withCtl _).present _

theorem OnlyAdvances.endPoll (c : Caller) : OnlyAdvances s (endPoll c t) := by
  rcases endPoll_cases c t with ⟨-, e⟩ | ⟨t0, d, -, -, e⟩ | ⟨t0, d, k, -, -, e⟩ | ⟨t0, d, -, -, e⟩ <;> rw [e]
  · exact h.withCtl _
  · exact h.endTimed _
  · exact h.endTimed _
  · exact h.withCtl _

theorem OnlyAdvances.pullByte : OnlyAdvances s (pullByte t) := (h.exchange _).withRx _

theorem OnlyAdvances.advance : OnlyAdvances s (advance t) := by
  cases hc : t.ctl with
  | idle => rwa [advance_idle hc]
  | poll c =>
    rw [advance_poll hc]
    rcases pollIteration_cases c t with ⟨-, e⟩ | ⟨-, -, e⟩ | ⟨-, -, e⟩ <;> rw [e]
    · exact h.readSignal.endPoll c
    · exact h.readSignal.pullByte
    · exact h.readSignal.pullByte.endPoll c
  | clockTest t0 d =>
    rw [advance_clockTest hc]
    rcases clockIteration_cases t0 d t with ⟨-, e⟩ | ⟨-, e⟩ <;> rw [e]
    · exact h.readClock.startPoll _
    · exact h.readClock.endTimed _

theorem OnlyAdvances.resume : OnlyAdvances s (resume t) :=
  resume_induct (P := OnlyAdvances s) (fun _ h => h.advance) t h

theorem OnlyAdvances.txFrame (apiId frameId : Byte) (payload : List Byte) :
    OnlyAdvances s (txFrame apiId frameId payload t) :=
  txFrame_induct (fun _ h => h.readSignal) (fun b _ h => h.exchange b) (fun _ _ h => h.withBk _)
    (fun v _ h => h.setTxSum v) apiId frameId payload t h

theorem OnlyAdvances.rxTimed {d : Int} {u : State} (hu : execRxTimed d t = .next u) : OnlyAdvances s u := by
  rcases execRxTimed_cases d t with ⟨-, e⟩ | ⟨-, e⟩ <;> cases e.symm.trans hu
  · exact h.present _
  · exact (h.readClock.withCtl _).resume

/-- One case for each command of R96. -/
theorem OnlyAdvances.exec {i : Instr} {u : State} (hi : HostCommand i) (hu : exec i t = .next u) :
    OnlyAdvances s u := by
  cases hi with
  | nop => cases hu; exact h
  | rxReset => cases hu; exact h.withRx _
  | rxPoll => cases hu; exact (h.startPoll _).resume
  | rxTimed d => exact h.rxTimed hu
  | rxRead => exact execRxRead_next hu ▸ h.present _
  | txFrame apiId frameId payload => exact execTxFrame_next hu ▸ h.txFrame apiId frameId payload
  | bkReset => cases hu; exact h.withBk _
  | bkRead => exact execBkRead_next hu ▸ h.present _
  | reserved low => cases hu

end

end Sys2Proof.Machine
end

section
/-! The statements of 42_timed_receive.md: RX_TIMED's result, its two timeouts, and the clock. -/

namespace Sys2Proof.Proofs

open Sys2Proof.Machine Sys2Proof.Claims

/-- Settles O38. -/
theorem nonPositiveDeadlineIsRejectedAtOnce : Obligations.NonPositiveDeadlineIsRejectedAtOnce := by
  unfold Obligations.NonPositiveDeadlineIsRejectedAtOnce
  exact fun s d hd => execRxTimed_nonpositive hd s

/-- Settles O39: the first clock test starts the host's poll, with iterations to spare, and its verdict is presented. -/
theorem timedReceiveReturnsThePollsVerdict : Obligations.TimedReceiveReturnsThePollsVerdict := by
  unfold Obligations.TimedReceiveReturnsThePollsVerdict
  intro s t d x y ts hd hticks hy ht hctl ho
  obtain rfl : rxPoll (afterTwoClocks x y ts s) = t := Host.Outcome.next.inj ht
  obtain ⟨-, -, -, -, -, hres⟩ := rxPoll_frame (afterTwoClocks x y ts s)
  refine (execRxTimed_positive hd s).trans (congrArg Host.Outcome.next ?_)
  have hverdict := advanceBy_timed_poll (s := startPoll .host (afterTwoClocks x y ts s)) (s.env.clock + x) d rfl hctl ho
  have hle : heldAnswers (afterTwoClocks x y ts s).env + 1 ≤ heldAnswers (startTimed d s).env := by
    rw [startTimed_env hticks]
    simp only [heldAnswers, afterTwoClocks, List.length_cons]
    omega
  rw [resume, advanceBy, advance_startTimed hticks, if_pos hy]
  refine ((advanceBy_of_le (congrArg State.ctl hverdict) hle).trans hverdict).trans ?_
  exact (endTimed_of_idle hctl _).trans (by rw [hres]; rfl)

/-- Settles O40: the first clock test ends RX_TIMED. -/
theorem timeoutBeforeAnyPollTouchesNothing : Obligations.TimeoutBeforeAnyPollTouchesNothing := by
  unfold Obligations.TimeoutBeforeAnyPollTouchesNothing
  intro s d x y ts hd hticks hy
  refine (execRxTimed_positive hd s).trans (congrArg Host.Outcome.next ?_)
  rw [resume, advanceBy, advance_startTimed hticks, if_neg (Int.not_le.mpr hy), advanceBy_idle rfl]
  rfl

/-- Settles O41: the turns within the deadline, then the clock test that finds it past. -/
theorem timedReceiveSpinsUntilTheDeadline : Obligations.TimedReceiveSpinsUntilTheDeadline := by
  unfold Obligations.TimedReceiveSpinsUntilTheDeadline
  intro s d x last us ts hd hq hticks hwithin hpast hus
  have henv := startTimed_env hticks d
  have hleft : (startTimed d s).env.ticks = us ++ last :: ts := congrArg Env.ticks henv
  have hspin := resume_spin (startTimed_ctl hticks d) (henv ▸ hq) hleft
    (by rw [henv]; dsimp only; omega) (by rw [henv]; dsimp only; omega)
  have hlast := afterSpin_ticks hleft
  refine ⟨_, (execRxTimed_positive hd s).trans (congrArg Host.Outcome.next hspin), rfl, rfl, if_neg hus, rfl, rfl,
    ?env, ?trace⟩
  case env => rw [endTimed_env, readClock_env, afterClock_cons hlast, afterSpin, henv]
  case trace =>
    rw [endTimed_trace, readClock_trace, clockAnswer_cons hlast, afterSpin, startTimed_trace hticks, henv]
    rfl

/-- Settles O42: RX_TIMED's run from its start, which leaves the receiver as it was. -/
theorem timedReceiveResultMeansAvailable : Obligations.TimedReceiveResultMeansAvailable := by
  unfold Obligations.TimedReceiveResultMeansAvailable
  intro s d hs
  rcases le_or_gt d 0 with hd | hd
  · exact ⟨_, execRxTimed_nonpositive hd s, rfl, rfl, .inr ⟨hs, false, rfl, nofun, fun _ _ => rfl⟩⟩
  · obtain ⟨-, hbk, htx, -⟩ := resume_frame (startTimed d s)
    refine ⟨_, execRxTimed_positive hd s, hbk, htx, ?_⟩
    cases timedRun_resume (s := startTimed d s) (.inr rfl) with
    | polling hc hr => exact .inl ⟨by simp [hc], hr⟩
    | testing hc hr _ => exact .inl ⟨by simp [hc], hr⟩
    | ended ok hc hr htrue hfalse => exact .inr ⟨hc, ok, hr, htrue, hfalse⟩

/-- Settles O55, one case for each operation a step runs. -/
theorem clockAndLogsOnlyAdvance : Obligations.ClockAndLogsOnlyAdvance := by
  unfold Obligations.ClockAndLogsOnlyAdvance
  intro s t ht
  have hs := OnlyAdvances.refl s
  have hadvances : OnlyAdvances s t :=
    step_induct s (fun _ _ => hs) (fun _ cs _ _ hi hu => (hs.withHost cs).exec hi hu) (fun _ => hs.resume) ht
  obtain ⟨hclock, htrace, hresults, hcfg⟩ := hadvances
  exact ⟨hclock, htrace, hresults, hcfg⟩

end Sys2Proof.Proofs
end

section
/-! SUPPORT. The backup buffer after bytes appended one after another (44_backup_capture.md R180), TX_DRAIN whatever the
environment answers and against a queue (43_transmitter.md R166, D21), and TX_FRAME as emissions and a drain. -/

namespace Sys2Proof

/-- The check byte as a number (R89, R113). -/
theorem checkByte_eq_ofNat (apiId frameId : Byte) (payload : List Byte) :
    checkByte apiId frameId payload =
      BitVec.ofNat 8 (255 - ((apiId :: frameId :: payload).map BitVec.toNat).sum % 256) := by
  rw [← byteSum_toNat, ← Machine.sumCompute_toNat, BitVec.ofNat_toNat, BitVec.setWidth_eq]
  rfl

end Sys2Proof

namespace Sys2Proof.Machine

open Sys2Proof.Claims

/-! ### What a queue answers, and which answers are captured (R15, R163) -/

theorem afterExchange_queue {e : Env} {q : List Byte} (h : e.peer = .queue q) :
    afterExchange e = { e with peer := .queue q.tail } := by
  cases q with
  | nil => rw [afterExchange_queue_nil h, List.tail_nil, ← h]
  | cons b q => exact afterExchange_queue_cons h

theorem captured_append (xs ys : List (Bool × Byte)) : captured (xs ++ ys) = captured xs ++ captured ys := by
  simp [captured]

@[simp] theorem captured_asserted (bs : List Byte) : captured (bs.map (true, ·)) = bs := by
  rw [captured, List.filter_eq_self.mpr (by simp), List.map_map]
  exact List.map_id bs

@[simp] theorem captured_deasserted (n : Nat) (b : Byte) : captured (List.replicate n (false, b)) = [] := by
  simp [captured]

/-! ### Bytes appended one after another (R180) -/

theorem appendAll_cons (cfg : Cfg) (b : Byte) (bs : List Byte) (k : Bk) :
    appendAll cfg (b :: bs) k = appendAll cfg bs (appendBk cfg b k) := rfl

theorem appendAll_append (cfg : Cfg) (bs cs : List Byte) (k : Bk) :
    appendAll cfg (bs ++ cs) k = appendAll cfg cs (appendAll cfg bs k) := List.foldl_append

theorem appendBk_room_count {cfg : Cfg} {k : Bk} (h : k.count < cfg.mfs) (b : Byte) :
    (appendBk cfg b k).count = k.count + 1 := by rw [appendBk_room h]

/-- A full buffer drops every byte. -/
theorem appendAll_full {cfg : Cfg} {k : Bk} (h : cfg.mfs ≤ k.count) (bs : List Byte) : appendAll cfg bs k = k := by
  induction bs with
  | nil => rfl
  | cons b bs ih => rw [appendAll_cons, appendBk_full h, ih]

/-- The bytes past the room there is are dropped. -/
theorem appendAll_take_room (cfg : Cfg) (bs : List Byte) (k : Bk) :
    appendAll cfg (bs.take (cfg.mfs - k.count)) k = appendAll cfg bs k := by
  induction bs generalizing k with
  | nil => rw [List.take_nil]
  | cons b bs ih =>
    rcases Nat.lt_or_ge k.count cfg.mfs with hroom | hfull
    · have hnext : cfg.mfs - k.count = cfg.mfs - (appendBk cfg b k).count + 1 := by rw [appendBk_room_count hroom]; omega
      rw [hnext, List.take_succ_cons, appendAll_cons, appendAll_cons, ih]
    · rw [appendAll_full hfull, appendAll_full hfull]

/-- As far as there is room each byte moves the cursor by one. -/
theorem appendAll_count {cfg : Cfg} {bs : List Byte} {k : Bk} (h : bs.length ≤ cfg.mfs - k.count) :
    (appendAll cfg bs k).count = k.count + bs.length := by
  induction bs generalizing k with
  | nil => rfl
  | cons b bs ih =>
    rw [List.length_cons] at h ⊢
    have hroom : k.count < cfg.mfs := by omega
    have hcount := appendBk_room_count hroom b
    rw [appendAll_cons, ih (by omega), hcount]
    omega

/-! ### The drain (R166) -/

/-- The state after bytes pulled with the line asserted and captured. -/
def afterDrained (bs : List Byte) (s : State) : State :=
  { s with bk := appendAll s.cfg bs s.bk, trace := s.trace ++ pulls s.cfg.fillerByte bs,
           env := afterPairs bs.length s.env }

theorem afterDrained_nil (s : State) : afterDrained [] s = s := by
  simp [afterDrained, pulls, appendAll]

theorem afterDrained_cons (b : Byte) (bs : List Byte) (s : State) :
    afterDrained (b :: bs) s = afterDrained bs (afterDrained [b] s) := by
  simp [afterDrained, pulls, appendAll, afterPairs_succ]

theorem exchangeCaptured_asserted {s : State} (hs : signalAnswer s.env = true) :
    exchangeCaptured s.cfg.fillerByte (readSignal s) = afterDrained [exchangeAnswer (afterSignal s.env)] s := by
  simp [exchangeCaptured, bkAppend, withBk, exchange, readSignal, afterDrained, pulls, appendAll, afterPairs_succ, hs]

/-- The bytes a drain from `s` captures (R166, D21): answers of the environment with the line asserted, no more than
there is room for, and then the line is deasserted or the buffer is full. -/
structure Drained (s : State) (bs : List Byte) : Prop where
  answers : pairAnswers bs.length s.env = bs.map (true, ·)
  room : bs.length ≤ s.cfg.mfs - s.bk.count
  ending : signalAnswer (afterPairs bs.length s.env) = true → s.cfg.mfs ≤ (appendAll s.cfg bs s.bk).count

theorem Drained.nil {s : State} (h : signalAnswer s.env = true → s.cfg.mfs ≤ s.bk.count) : Drained s [] :=
  ⟨rfl, Nat.zero_le _, h⟩

theorem Drained.cons {s : State} {bs : List Byte} (hs : signalAnswer s.env = true) (hroom : s.bk.count < s.cfg.mfs)
    (h : Drained (afterDrained [exchangeAnswer (afterSignal s.env)] s) bs) :
    Drained s (exchangeAnswer (afterSignal s.env) :: bs) := by
  obtain ⟨hanswers, hle, hending⟩ := h
  refine ⟨?answers, ?room, hending⟩
  case answers =>
    rw [List.length_cons, pairAnswers_succ, List.map_cons, hs]
    exact congrArg _ hanswers
  case room =>
    have hcount : (afterDrained [exchangeAnswer (afterSignal s.env)] s).bk.count = s.bk.count + 1 :=
      appendBk_room_count hroom _
    rw [hcount] at hle
    simp only [afterDrained] at hle
    rw [List.length_cons]
    omega

/-- With fuel for one turn more than there is room, the loop of TX_DRAIN ends with a signal read (R166, R169). -/
theorem exists_drained_drainLoop (k : Nat) (s : State) (hk : s.cfg.mfs - s.bk.count < k) :
    ∃ bs, Drained s bs ∧ drainLoop k s = readSignal (afterDrained bs s) := by
  induction k generalizing s with
  | zero => omega
  | succ k ih =>
    unfold drainLoop
    split
    · rename_i hs
      split
      · rename_i hfull
        exact ⟨[], .nil fun _ => hfull, by rw [afterDrained_nil]⟩
      · rename_i hroom
        have hroom : s.bk.count < s.cfg.mfs := Nat.lt_of_not_le hroom
        have hfuel : s.cfg.mfs - (appendBk s.cfg (exchangeAnswer (afterSignal s.env)) s.bk).count < k := by
          rw [appendBk_room_count hroom]; omega
        rw [exchangeCaptured_asserted hs]
        obtain ⟨bs, hbs, hrun⟩ := ih (afterDrained [exchangeAnswer (afterSignal s.env)] s) hfuel
        exact ⟨_, hbs.cons hs hroom, by rw [hrun, ← afterDrained_cons]⟩
    · rename_i hs
      exact ⟨[], .nil fun h => absurd h hs, by rw [afterDrained_nil]⟩

/-- TX_DRAIN's fuel is never used up. -/
theorem exists_drained (s : State) : ∃ bs, Drained s bs ∧ txDrain s = readSignal (afterDrained bs s) :=
  exists_drained_drainLoop _ s (Nat.lt_succ_self _)

/-- A queue fills the room there is, as far as it goes. -/
theorem Drained.eq_take_of_queue {s : State} {q bs : List Byte} (h : Drained s bs) (hq : s.env.peer = .queue q) :
    bs = q.take (s.cfg.mfs - s.bk.count) := by
  obtain ⟨hanswers, hroom, hending⟩ := h
  have htake := eq_take_of_queue_asserted hq hanswers
  rcases hroom.lt_or_eq with hlt | heq
  · have hempty : q.drop bs.length = [] := by
      by_contra hne
      have hfull := hending (by rw [afterPairs_queue hq, signalAnswer_queue rfl]; simpa using hne)
      rw [appendAll_count hroom] at hfull
      omega
    rw [List.drop_eq_nil_iff] at hempty
    rw [List.take_of_length_le (by omega), htake, List.take_of_length_le hempty]
  · rwa [← heq]

/-- TX_DRAIN of a queue: its bytes as far as there is room, and the last signal read tells whether any is left. -/
theorem txDrain_queue {s : State} {q : List Byte} (hq : s.env.peer = .queue q) :
    txDrain s = { s with
      bk := appendAll s.cfg (q.take (s.cfg.mfs - s.bk.count)) s.bk,
      env := { s.env with peer := .queue (q.drop (s.cfg.mfs - s.bk.count)) },
      trace := s.trace ++ pulls s.cfg.fillerByte (q.take (s.cfg.mfs - s.bk.count)) ++
        [.sig (!(q.drop (s.cfg.mfs - s.bk.count)).isEmpty)] } := by
  obtain ⟨bs, hbs, hdrain⟩ := exists_drained s
  have htake := hbs.eq_take_of_queue hq
  have henv : afterPairs bs.length s.env =
      { s.env with peer := .queue (q.drop (s.cfg.mfs - s.bk.count)) } := by
    rw [afterPairs_queue hq, htake, List.length_take]
    simp
  rw [hdrain, readSignal, afterDrained, henv, signalAnswer_queue rfl, afterSignal_queue rfl, ← htake]

/-- A drain sends FILLER_BYTE only (R165, R166). -/
theorem sentBytes_pulls (filler : Byte) (bs : List Byte) :
    sentBytes (pulls filler bs) = List.replicate bs.length filler := by
  induction bs with
  | nil => rfl
  | cons b bs ih => exact congrArg (filler :: ·) ih

/-! ### TX_FRAME (R161) -/

/-- What TX_EMIT leaves alone (R163). -/
theorem txEmit_eq (b : Byte) (s : State) :
    txEmit b s = { s with bk := (txEmit b s).bk, trace := (txEmit b s).trace, env := (txEmit b s).env } := by
  unfold txEmit
  split <;> rfl

theorem execTxFrame_fits {payload : List Byte} (h : LengthFits payload) (apiId frameId : Byte) (s : State) :
    execTxFrame apiId frameId payload s = .next (txFrame apiId frameId payload s) := if_pos h

/-- Steps 1 to 5 of TX_FRAME with every field (R161 to R164). -/
theorem txFramePart_fields (apiId frameId : Byte) (payload : List Byte) (s : State) :
    txFramePart apiId frameId payload s = { s with
      bk := appendAll s.cfg (captured (pairAnswers (payload.length + 5) (afterExchange s.env))) s.bk,
      tx := { sum := byteSum (apiId :: frameId :: payload) },
      trace := s.trace ++ [.xchg s.cfg.startByte (exchangeAnswer s.env)] ++
        emissions (frameBytes s.cfg.startByte apiId frameId payload).tail
          (pairAnswers (payload.length + 5) (afterExchange s.env)),
      env := afterPairs (payload.length + 5) (afterExchange s.env) } := by
  rw [txFramePart_eq, afterEmissions, List.length_tail, frameBytes_length]
  rfl

/-- The frame part against a queue: the byte START_BYTE brings is lost, those of the emissions are captured (R162, D19).
-/
theorem txFramePart_queue (apiId frameId : Byte) (payload : List Byte) {s : State} {q : List Byte}
    (hq : s.env.peer = .queue q) :
    (txFramePart apiId frameId payload s).bk = appendAll s.cfg (q.tail.take (payload.length + 5)) s.bk ∧
      (txFramePart apiId frameId payload s).env =
        { s.env with peer := .queue (q.tail.drop (payload.length + 5)) } := by
  rw [txFramePart_fields, afterExchange_queue hq, pairAnswers_queue rfl, afterPairs_queue rfl, captured_append,
    captured_asserted, captured_deasserted, List.append_nil]
  exact ⟨rfl, rfl⟩

/-- The frame part against a script of which START_BYTE takes a byte and each emission a signal and a byte. -/
theorem txFramePart_script (apiId frameId : Byte) (payload : List Byte) {s : State} {vs ws : List Bool} {r0 : Byte}
    {rs : List Byte} (hpeer : s.env.peer = .script (vs ++ ws) (r0 :: rs)) (hvs : vs.length = payload.length + 5)
    (hrs : rs.length = payload.length + 5) :
    txFramePart apiId frameId payload s = { s with
      bk := appendAll s.cfg (captured (vs.zip rs)) s.bk,
      tx := { sum := byteSum (apiId :: frameId :: payload) },
      trace := s.trace ++ [.xchg s.cfg.startByte r0] ++
        emissions (frameBytes s.cfg.startByte apiId frameId payload).tail (vs.zip rs),
      env := { s.env with peer := .script ws [] } } := by
  have hr0 : exchangeAnswer s.env = r0 := by simp [exchangeAnswer, hpeer]
  have hafter : afterExchange s.env = { s.env with peer := .script (vs ++ ws) rs } := by simp [afterExchange, hpeer]
  have hsignals : payload.length + 5 ≤ (vs ++ ws).length := by rw [List.length_append]; omega
  rw [txFramePart_fields, hr0, hafter, pairAnswers_script rfl hsignals hrs.ge, afterPairs_script rfl hsignals hrs.ge,
    List.take_left' hvs, List.take_of_length_le hrs.le, List.drop_left' hvs, List.drop_eq_nil_of_le hrs.le]

end Sys2Proof.Machine
end

section
/-! The statements of 43_transmitter.md: TX_FRAME, the bytes it sends, TX_DRAIN, TX_EMIT; and where operations stop. -/

namespace Sys2Proof.Proofs

open Sys2Proof.Machine Sys2Proof.Claims

/-- Settles O43: the fields TX_EMIT writes, the append by its two cases. -/
theorem emitCapturesUnderContention : Obligations.EmitCapturesUnderContention := by
  unfold Obligations.EmitCapturesUnderContention
  refine fun b s => ⟨_, rfl, congrArg Host.Outcome.next ?_⟩
  rw [txEmit_eq, txEmit_bk, txEmit_trace, txEmit_env, appendBk, ite_and]

/-- Settles O46: what the loop drains, and that of a queue it is what there is room for. -/
theorem drainStopsOnLineOrFullBuffer : Obligations.DrainStopsOnLineOrFullBuffer := by
  unfold Obligations.DrainStopsOnLineOrFullBuffer
  constructor
  · intro s
    obtain ⟨bs, hbs, hdrain⟩ := exists_drained s
    obtain ⟨hanswers, hroom, hending⟩ := hbs
    refine ⟨_, bs, _, congrArg Host.Outcome.next hdrain, rfl, hanswers, hroom, hending, rfl, ?_⟩
    simp [afterDrained]
  · rintro s q _ hq rfl
    exact congrArg Host.Outcome.next (txDrain_queue hq)

/-- Settles O44: the frame part, and the drain from where it ends; a queue fills the buffer through both, and a script
deasserted after the frame leaves nothing to drain. -/
theorem transmitEventsAndCaptures : Obligations.TransmitEventsAndCaptures := by
  unfold Obligations.TransmitEventsAndCaptures
  intro apiId frameId payload s hfits
  have hexec := execTxFrame_fits hfits apiId frameId s
  have hpart := txFramePart_fields apiId frameId payload s
  refine ⟨?any, fun q hq => ⟨_, hexec, ?queue⟩, fun vs r0 rs hpeer hvs hrs => ⟨_, hexec, ?script⟩⟩
  case any =>
    obtain ⟨drained, hd, hdrain⟩ := exists_drained (txFramePart apiId frameId payload s)
    refine ⟨_, _, drained, _, hexec, rfl, rfl, ?_⟩
    rw [txFrame, hdrain]
    rw [hpart] at hd ⊢
    refine ⟨hd.answers, hd.room, hd.ending, ?_, ?_⟩
    · rw [appendAll_append]; rfl
    · simp [afterDrained]
  case queue =>
    obtain ⟨hbk, henv⟩ := txFramePart_queue apiId frameId payload hq
    have hcfg : (txFramePart apiId frameId payload s).cfg = s.cfg := by rw [hpart]
    rw [txFrame, txDrain_queue (congrArg Env.peer henv), hcfg, hbk, henv]
    constructor
    · exact (appendAll_take_room _ _ _).trans (by rw [← appendAll_append, List.take_append_drop])
    · simp only [List.drop_drop, List.drop_tail, Nat.add_right_comm]
  case script =>
    have hscript := txFramePart_script apiId frameId payload hpeer hvs hrs
    rw [txFrame, txDrain_deasserted (by rw [hscript]; rfl), hscript]
    exact ⟨rfl, rfl, rfl⟩

/-- Settles O45: START_BYTE, then the emissions, then what the drain pulls. -/
theorem bytesSentDependOnTheOperandsOnly : Obligations.BytesSentDependOnTheOperandsOnly := by
  unfold Obligations.BytesSentDependOnTheOperandsOnly
  intro apiId frameId payload s hfits
  obtain ⟨drained, -, hdrain⟩ := exists_drained (txFramePart apiId frameId payload s)
  refine ⟨_, drained.length, execTxFrame_fits hfits apiId frameId s, ?_⟩
  have hlength : (frameBytes s.cfg.startByte apiId frameId payload).tail.length =
      (pairAnswers (payload.length + 5) (afterExchange s.env)).length := by simp
  rw [txFrame, hdrain, txFramePart_fields,
    newEvents_of_trace (by simp only [readSignal_trace, afterDrained, List.append_assoc]; rfl)]
  simp only [sentBytes_append, sentBytes_emissions hlength, sentBytes_pulls, ← checkByte_eq_ofNat]
  simp [sentBytes, frameBytes, lenMsb, lenLsb]

/-- Settles O53: each operation's guard fails. -/
theorem overlongOperandsAndAbsentCellsStop : Obligations.OverlongOperandsAndAbsentCellsStop := by
  unfold Obligations.OverlongOperandsAndAbsentCellsStop
  exact ⟨fun _ _ _ _ hn => ⟨if_neg hn, if_neg hn, if_neg hn⟩, fun _ h => if_neg (Nat.not_le_of_lt h),
    fun _ h => if_neg (Nat.not_le_of_lt h)⟩

end Sys2Proof.Proofs
end

section
/-! SUPPORT. What becomes of captured bytes: every operation but BK_RESET reaches the backup buffer through BK_APPEND
alone, which keeps them (44_backup_capture.md R180, R183). -/

namespace Sys2Proof.Machine

open Sys2Proof.Claims

theorem rxPoll_bk (s : State) : (rxPoll s).bk = s.bk := by
  obtain ⟨-, hbk, -⟩ := rxPoll_frame s
  exact hbk

/-- The captures of `k` stand in `k'`: the cursor has not fallen, and the cells below it read as before. -/
structure KeepsCaptures (k k' : Bk) : Prop where
  count_le : k.count ≤ k'.count
  read_below : ∀ i, i < k.count → Mem.read k'.data i = Mem.read k.data i

theorem KeepsCaptures.refl (k : Bk) : KeepsCaptures k k := ⟨le_rfl, fun _ _ => rfl⟩

section
variable {k k' : Bk} {s t : State}

theorem KeepsCaptures.appendBk (h : KeepsCaptures k k') (cfg : Cfg) (b : Byte) :
    KeepsCaptures k (appendBk cfg b k') where
  count_le := h.count_le.trans (appendBk_count_le cfg b k')
  read_below i hi := (appendBk_read_below cfg b k' (hi.trans_le h.count_le)).trans (h.read_below i hi)

theorem KeepsCaptures.txEmit (h : KeepsCaptures k s.bk) (b : Byte) : KeepsCaptures k (txEmit b s).bk := by
  rw [txEmit_bk]
  split
  · exact h.appendBk _ _
  · exact h

theorem KeepsCaptures.txDrain (h : KeepsCaptures k s.bk) : KeepsCaptures k (txDrain s).bk :=
  txDrain_induct (P := fun u => KeepsCaptures k u.bk) (fun _ h => h) (fun _ h => h.appendBk _ _) s h

theorem KeepsCaptures.txFrame (h : KeepsCaptures k s.bk) (apiId frameId : Byte) (payload : List Byte) :
    KeepsCaptures k (txFrame apiId frameId payload s).bk :=
  txFrame_induct (P := fun u => KeepsCaptures k u.bk) (fun _ h => h) (fun _ _ h => h) (fun _ _ h => h.appendBk _ _)
    (fun _ _ h => h) apiId frameId payload s h

/-- LOOPBACK's poll leaves the buffer as the transmit before it did (R183). -/
theorem KeepsCaptures.loopback (h : KeepsCaptures k s.bk) (apiId frameId : Byte) (payload : List Byte) :
    KeepsCaptures k (loopback apiId frameId payload s).bk := by
  rw [loopback_eq, withPeer_bk, rxPoll_bk]
  exact KeepsCaptures.txFrame (s := queuePeer [] s) h apiId frameId payload

/-- The writers of the buffer are the operations that append, and BK_RESET. -/
theorem keepsCaptures_exec {i : Instr} (hi : i ≠ .bkReset) (ht : exec i s = .next t) : KeepsCaptures s.bk t.bk := by
  have hs := KeepsCaptures.refl s.bk
  by_cases hw : writesBk i = false
  · exact (writesAtMost_exec ht).bk hw ▸ hs
  cases i with
  | txFrame apiId frameId payload => exact execTxFrame_next ht ▸ hs.txFrame apiId frameId payload
  | txEmit b => cases ht; exact hs.txEmit b
  | txDrain => cases ht; exact hs.txDrain
  | bkAppend b => cases ht; exact hs.appendBk _ b
  | bkReset => exact absurd rfl hi
  | loopback apiId frameId payload => exact execLoopback_next ht ▸ hs.loopback apiId frameId payload
  | _ => exact absurd rfl hw

end

/-- The bytes BK_READ presents are the ones last written to their cells (R182). -/
theorem getElem?_bkpCells {k : Bk} {n i : Nat} {b : Byte} (hi : i < n) (h : Mem.read k.data i = some b) :
    (bkpCells k n)[i]? = some b := by
  simp [bkpCells, bkpRead, hi, h]

end Sys2Proof.Machine
end

section
/-! The statements of 44_backup_capture.md: BK_APPEND, BK_RESET, BK_READ, and what empties the buffer. -/

namespace Sys2Proof.Proofs

open Sys2Proof.Machine Sys2Proof.Claims

/-- Settles O50: every other operation keeps the captures, and the three receive commands do not write the buffer. -/
theorem onlyBkResetEmptiesTheBuffer : Obligations.OnlyBkResetEmptiesTheBuffer := by
  unfold Obligations.OnlyBkResetEmptiesTheBuffer
  intro i s t hi ht
  obtain ⟨hcount, hcells⟩ := keepsCaptures_exec hi ht
  have hbk := (writesAtMost_exec ht).bk
  refine ⟨⟨hcount, hcells⟩, ?_⟩
  rintro (rfl | rfl | ⟨d, rfl⟩) <;> exact hbk rfl

/-- Settles O49: the data of the record is the first `bk.count` cells. -/
theorem bkReadPresentsTheCaptures : Obligations.BkReadPresentsTheCaptures := by
  unfold Obligations.BkReadPresentsTheCaptures
  exact fun s h => ⟨bkpCells s.bk s.bk.count, if_pos h, bkpCells_length _ _, fun _ _ => getElem?_bkpCells⟩

/-- Settles O47: the two cases of the append, and the memory's law for its one write. -/
theorem appendStoresAtTheCursorUntilFull : Obligations.AppendStoresAtTheCursorUntilFull := by
  unfold Obligations.AppendStoresAtTheCursorUntilFull
  refine fun b s => ⟨fun hroom => ⟨bkAppend b s, rfl, ?_⟩, fun hfull => ?_⟩
  · rw [bkAppend, appendBk_room hroom]
    exact ⟨rfl, Mem.read_write_same _ _ b, fun _ => Mem.read_write_other _ b⟩
  · exact congrArg (fun k => Host.Outcome.next (withBk k s)) (appendBk_full hfull)

/-- Settles O48. -/
theorem bkResetClearsOnlyTheCursor : Obligations.BkResetClearsOnlyTheCursor := by
  unfold Obligations.BkResetClearsOnlyTheCursor
  exact fun s => rfl

end Sys2Proof.Proofs
end

section
/-! SUPPORT. The outcome a byte leaves, as one chain in the document's order of precedence (60_exceptions.md R198); the
error above CAP (R201); and the status codes read back (R191). -/

namespace Sys2Proof.Machine

/-- R198 for RX_BYTE: the edge rules first, then the terminator's verdict; any other byte leaves the outcome alone. -/
theorem stepByte_outcome (cfg : Cfg) (b : Byte) (r : Rx) :
    (stepByte cfg b r).outcome =
      if 0 < r.position ∧ b = cfg.startByte then .error .unexpectedStartByte
      else if cfg.cap < r.position then .error .packetExceedsCapacity
      else if 4 ≤ r.position ∧ r.position = terminatorPosition r then
        if sumAdd r.sum b = 0xFF then .available else .error .checksumFailure
      else r.outcome := by
  rcases stepByte_cases cfg b r with ⟨hp, hb, e⟩ | ⟨hb, hp, e⟩ | ⟨hp, hb, e⟩ | ⟨hp, hb, e⟩ | ⟨hb, hc, hp, e⟩ |
    ⟨hb, hc, hp, e⟩ | ⟨hb, hc, hp, e⟩ | ⟨hb, hc, h4, ht, hv, e⟩ | ⟨hb, hc, h4, ht, hv, e⟩ | ⟨hb, hc, h4, ht, e⟩ <;>
    rw [e]
  · -- RXB_RESTART
    rw [if_pos ⟨hp, hb⟩]
    rfl
  · -- RXB_OVERRUN
    rw [if_neg (fun h => hb h.2), if_pos hp]
    rfl
  · -- RXB_SKIP
    rw [if_neg (fun h => hb h.2), if_neg (by omega), if_neg (by omega)]
  · -- RXB_START
    rw [if_neg (by omega), if_neg (by omega), if_neg (by omega)]
  · -- RXB_LEN_MSB
    rw [if_neg (fun h => hb h.2), if_neg (by omega), if_neg (by omega)]
  · -- RXB_LEN_LSB
    rw [if_neg (fun h => hb h.2), if_neg (by omega), if_neg (by omega)]
  · -- RXB_API_ID
    rw [if_neg (fun h => hb h.2), if_neg (by omega), if_neg (by omega)]
  · -- RXB_TERM_OK
    rw [if_neg (fun h => hb h.2), if_neg (by omega), if_pos ⟨h4, ht⟩, if_pos hv]
  · -- RXB_TERM_BAD
    rw [if_neg (fun h => hb h.2), if_neg (by omega), if_pos ⟨h4, ht⟩, if_neg hv]
  · -- RXB_DATA
    rw [if_neg (fun h => hb h.2), if_neg (by omega), if_neg (fun h => ht h.2)]

/-- Above CAP every byte raises an error, and that is all it does (R123, R124, R201). -/
theorem stepByte_above_cap {cfg : Cfg} {r : Rx} (b : Byte) (hp : cfg.cap < r.position) :
    stepByte cfg b r = { r with outcome :=
      if b = cfg.startByte then .error .unexpectedStartByte else .error .packetExceedsCapacity } := by
  split
  next hb => exact stepByte_restart (by omega) hb
  next hb => exact stepByte_overrun hb hp

/-- The outcome a status code stands for; the codes 5 to 7 stand for none (R191). -/
def outcomeOfCode (c : BitVec 3) : Option RxOutcome :=
  match c with
  | 0 => some .pending
  | 1 => some (.error .checksumFailure)
  | 2 => some (.error .packetExceedsCapacity)
  | 3 => some (.error .unexpectedStartByte)
  | 4 => some .available
  | _ => none

theorem outcomeOfCode_outcomeCode (o : RxOutcome) : outcomeOfCode (outcomeCode o) = some o := by
  rcases o with _ | _ | (_ | _ | _) <;> rfl

theorem outcomeCode_injective : Function.Injective outcomeCode := fun o o' h =>
  Option.some.inj (by rw [← outcomeOfCode_outcomeCode o, h, outcomeOfCode_outcomeCode])

theorem outcomeCode_lt_five (o : RxOutcome) : (outcomeCode o).toNat < 5 := by
  rcases o with _ | _ | (_ | _ | _) <;> decide

end Sys2Proof.Machine
end

section
/-! The statements of 60_exceptions.md: which error a byte raises, the overrun that stays until RX_RESET, and the status
codes. -/

namespace Sys2Proof.Proofs

open Sys2Proof.Machine Sys2Proof.Claims

/-- Settles O23: the branches of the precedence order exclude each other, and the last one leaves the outcome PENDING. -/
theorem oneErrorByPrecedence : Obligations.OneErrorByPrecedence := by
  unfold Obligations.OneErrorByPrecedence
  intro b s ho
  refine ⟨rxByte b s, rfl, ?_⟩
  have houtcome := stepByte_outcome s.cfg b s.rx
  rw [ho] at houtcome
  have hdelim (hr : ¬ (0 < s.rx.position ∧ b = s.cfg.startByte)) (hp : 0 < s.rx.position) : b ≠ s.cfg.startByte :=
    fun hb => hr ⟨hp, hb⟩
  rw [rxByte_rx]
  split_ifs at houtcome with hrestart hover hterm hsum <;> rw [houtcome]
  · -- UNEXPECTED_START_BYTE
    exact ⟨iff_of_true rfl hrestart, iff_of_false nofun fun ⟨hb, _⟩ => hb hrestart.2,
      iff_of_false nofun fun ⟨hb, _⟩ => hb hrestart.2, iff_of_false nofun fun ⟨hb, _⟩ => hb hrestart.2⟩
  · -- PACKET_EXCEEDS_CAPACITY
    exact ⟨iff_of_false nofun hrestart, iff_of_true rfl ⟨hdelim hrestart (by omega), hover⟩,
      iff_of_false nofun fun ⟨_, _, hc, _⟩ => by omega, iff_of_false nofun fun ⟨_, _, hc, _⟩ => by omega⟩
  · -- AVAILABLE
    obtain ⟨h4, ht⟩ := hterm
    exact ⟨iff_of_false nofun hrestart, iff_of_false nofun fun ⟨_, hp⟩ => hover hp,
      iff_of_false nofun fun ⟨_, _, _, _, hv⟩ => hv hsum,
      iff_of_true rfl ⟨hdelim hrestart (by omega), h4, Nat.not_lt.mp hover, ht, hsum⟩⟩
  · -- CHECKSUM_FAILURE
    obtain ⟨h4, ht⟩ := hterm
    exact ⟨iff_of_false nofun hrestart, iff_of_false nofun fun ⟨_, hp⟩ => hover hp,
      iff_of_true rfl ⟨hdelim hrestart (by omega), h4, Nat.not_lt.mp hover, ht, hsum⟩,
      iff_of_false nofun fun ⟨_, _, _, _, hv⟩ => hsum hv⟩
  · -- PENDING
    exact ⟨iff_of_false nofun hrestart, iff_of_false nofun fun ⟨_, hp⟩ => hover hp,
      iff_of_false nofun fun ⟨_, h4, _, ht, _⟩ => hterm ⟨h4, ht⟩,
      iff_of_false nofun fun ⟨_, h4, _, ht, _⟩ => hterm ⟨h4, ht⟩⟩

/-- Settles O36: above CAP the one byte pulled is terminal, so the poll ends with it, and RX_BYTE changes the outcome
alone. -/
theorem overrunRepeatsUntilReset : Obligations.OverrunRepeatsUntilReset := by
  unfold Obligations.OverrunRepeatsUntilReset
  intro s b q hp hq
  have hstep := stepByte_above_cap (cfg := s.cfg) (r := { s.rx with outcome := .pending }) b (by rw [hp]; omega)
  have hend : (stepByte s.cfg b { s.rx with outcome := .pending }).outcome ≠ .pending := by
    rw [hstep]
    dsimp only
    split <;> nofun
  have hpoll := rxPoll_queue (bs := [b]) (rest := q) hq ⟨discardOutcome_outcome s.rx, trivial⟩
    (by rwa [receive_cons, receive_nil, discardOutcome_eq])
  refine congrArg Host.Outcome.next (hpoll.trans ?_)
  simp [afterPulls, withCtl, discardOutcome_eq, hstep, pulls]

/-- Settles O56: each code by evaluation; the codes are distinct because each is read back as its outcome. -/
theorem outcomeCodesAreDistinct : Obligations.OutcomeCodesAreDistinct := by
  unfold Obligations.OutcomeCodesAreDistinct
  exact ⟨rfl, rfl, rfl, rfl, rfl, outcomeCode_lt_five, fun _ _ h => outcomeCode_injective h⟩

end Sys2Proof.Proofs
end

section
/-! SUPPORT. What a host within its contract can meet (70_reset_and_hazards.md R230): the operations its codes name are not
the refused ones, each of them answers where the invariants hold, and a step keeps the contract of the commands that
still wait. -/

namespace Sys2Proof.Machine

theorem hostCommand_of_decode_valid {c : Command} {i : Instr} (h : decode c = .valid i) : HostCommand i := by
  simpa [h, Decoded.instr] using hostCommand_decode c

/-- No code names a reserved row validly (R97, D28). -/
theorem decode_ne_valid_reserved (c : Command) (low : BitVec 3) : decode c ≠ .valid (.reserved low) := by
  unfold decode
  split <;> nofun

/-- A command within the contract is never stopped: the invariants meet the guards of the two reads (R35 I3, I4; log 7),
and the contract that of TX_FRAME (R160, D22; log 9). -/
theorem BlockInv.exists_exec_next {s : State} {c : Command} {i : Instr} {start : Byte} (h : BlockInv s)
    (hd : decode c = .valid i) (hw : i.wellFormed start = true) : ∃ t, Machine.exec i s = .next t := by
  cases hostCommand_of_decode_valid hd with
  | nop | rxReset | rxPoll | rxTimed | bkReset => exact ⟨_, rfl⟩
  | rxRead => exact ⟨_, if_pos ((Nat.le_add_right ..).trans h.recLen_le)⟩
  | txFrame apiId frameId payload => exact ⟨_, execTxFrame_fits (of_decide_eq_true hw) apiId frameId s⟩
  | bkRead => exact ⟨_, if_pos h.count_le⟩
  | reserved low => exact absurd hd (decode_ne_valid_reserved c low)

/-- A step answers with a next state as soon as the command it may take does. -/
theorem exists_step_next {s : State}
    (hcommand : ∀ c cs, s.env.host = c :: cs → ∃ t, exec (decode c).instr (withHost cs s) = .next t) :
    ∃ t, step s = .next t := by
  by_cases hi : s.ctl = .idle
  · cases hh : s.env.host with
    | nil => exact ⟨s, step_no_command hi hh⟩
    | cons c cs =>
      rw [step_command hi hh]
      exact hcommand c cs hh
  · exact ⟨resume s, step_in_progress hi⟩

/-- A step changes no configuration, and of the host's commands it takes at most the next one (R12, R33). -/
theorem step_cfg_host {s t : State} (h : step s = .next t) : t.cfg = s.cfg ∧ t.env.host <:+ s.env.host := by
  by_cases hi : s.ctl = .idle
  · cases hh : s.env.host with
    | nil =>
      cases (step_no_command hi hh).symm.trans h
      exact ⟨rfl, hh ▸ List.suffix_rfl⟩
    | cons c cs =>
      have hwrites := writesAtMost_exec ((step_command hi hh).symm.trans h)
      exact ⟨hwrites.cfg, hwrites.host ▸ List.suffix_cons c cs⟩
  · cases (step_in_progress hi).symm.trans h
    obtain ⟨hcfg, -, -, -, hhost⟩ := resume_frame s
    exact ⟨hcfg, hhost ▸ List.suffix_rfl⟩

theorem HostWithinContract.step {s t : State} (hs : HostWithinContract s) (h : step s = .next t) :
    HostWithinContract t := by
  obtain ⟨hcfg, hhost⟩ := step_cfg_host h
  intro c hc
  rw [hcfg]
  exact hs c (hhost.subset hc)

/-- Under the invariants a host within its contract meets neither a fault nor a refusal (R230). -/
theorem BlockInv.exists_step_next {s : State} (h : BlockInv s) (hs : HostWithinContract s) :
    ∃ t, Machine.step s = .next t := by
  refine Machine.exists_step_next fun c cs hh => ?_
  obtain ⟨i, hd, hw⟩ := hs c (hh ▸ List.mem_cons_self)
  have hfetched : BlockInv (withHost cs s) := h.of_frame rfl rfl rfl rfl le_rfl
  rw [hd]
  exact hfetched.exists_exec_next hd hw

end Sys2Proof.Machine
end

section
/-! The statement of 70_reset_and_hazards.md: a host within its contract. -/

namespace Sys2Proof.Proofs

open Sys2Proof.Machine Sys2Proof.Claims

/-- Settles O59: the command taken answers under the invariants, and the commands that wait are among those of before. -/
theorem aHostWithinItsContractNeverStopsTheBlock : Obligations.AHostWithinItsContractNeverStopsTheBlock := by
  unfold Obligations.AHostWithinItsContractNeverStopsTheBlock
  intro s h hs
  obtain ⟨t, ht⟩ := h.exists_step_next hs
  exact ⟨t, ht, hs.step ht⟩

end Sys2Proof.Proofs
end

section
/-! The statement of 30_encoding.md on written-out words: the code table of section 1 and the frame W1 of
95_test_vectors.md. -/

namespace Sys2Proof.Proofs

/-- The word of a CMD row has eight bits, and its low four are the code (R96; log 14). -/
theorem decodeTableWord_eight (w : Nat) :
    decodeTableWord 8 w = some (decode (.plain (BitVec.ofNat 4 w))).instr := rfl

/-- Settles O7: the words of the assigned codes each in their own arm of the decoder, the word 1101 as the reserved code
with the low bits 101, and the bytes of W1 as the encoding of a well-formed frame (O5). -/
theorem writtenOutWordsDecode : Obligations.WrittenOutWordsDecode := by
  unfold Obligations.WrittenOutWordsDecode
  refine ⟨rfl, rfl, rfl, rfl, rfl, rfl, ?reserved, ?frame⟩
  case reserved =>
    have hcode : BitVec.ofNat 4 0b1101 = 1#1 ++ 0b101#3 := by decide
    rw [decodeTableWord_eight, hcode, decode_plain_reserved]
    rfl
  case frame =>
    have hbytes : [0x7E, 0x00, 0x04, 0x08, 0x01, 0x4E, 0x49, 0x5F] = frameBytes 0x7E 0x08 0x01 [0x4E, 0x49] ++ [] := by
      decide
    have hwf : (Instr.frame 0x08 0x01 [0x4E, 0x49]).wellFormed 0x7E = true := by decide
    rw [hbytes]
    exact frameDecodeOfEncodeIsTheFrame 0x7E 0x08 0x01 [0x4E, 0x49] [] hwf

end Sys2Proof.Proofs
end
